-- ==== Sys2Proof/Word.lean ====
section
/-! DEFINITION. The word types of the Huffman Decode Unit: 32-bit register and command words (rule R5), bytes of the
two byte-addressed memories (R20), 16-bit samples and dimensions (R8, R16). -/

namespace Sys2Proof

/-- A register or command word: W = 32 bits (R5). -/
abbrev Word := BitVec 32

/-- A byte of IBUF or OBUF (R20). -/
abbrev Byte := BitVec 8

/-- A 16-bit value: a sample (R8), a seed (R54), a dimension (R16). -/
abbrev Half := BitVec 16

end Sys2Proof
end

