-- ==== Sys2Proof/Config.lean ====
section
/-! DEFINITION. What an instance of the unit fixes: the four parameters of `00_scope.md` rules R11 to R14 with their
constraints and defaults, and the fixed constants of rules R6 to R10, R15 and R17. The unit needs no free value: by rule
R255 nothing in its behaviour is unpredictable given its state. -/

namespace Sys2Proof

/-- The parameters of an instance (R11 to R14). They are constants: no step changes them (R31). -/
structure Config where
  /-- IBUF_BYTES, the capacity of the input buffer in bytes (R11). -/
  ibufBytes : Nat
  /-- OBUF_BYTES, the capacity of the output sample memory in bytes (R12). -/
  obufBytes : Nat
  /-- TAB_ENTRIES, the entries of one code table, sentinel included (R13). -/
  tabEntries : Nat
  /-- NODE_MAX, the capacity of the node arena (R14). -/
  nodeMax : Nat
  deriving DecidableEq, Repr

/-- The defaults of R11 to R14: 2^28, 2^28, 1025 and 1 + 32 × (1025 − 1) = 32769. -/
def Config.default : Config :=
  { ibufBytes := 2 ^ 28, obufBytes := 2 ^ 28, tabEntries := 1025, nodeMax := 32769 }

/-- The constraints of R11 to R14. -/
abbrev Config.wf (c : Config) : Prop :=
  (1 ≤ c.ibufBytes ∧ c.ibufBytes ≤ 2 ^ 28) ∧ (2 ≤ c.obufBytes ∧ c.obufBytes ≤ 2 ^ 31) ∧
  (2 ≤ c.tabEntries ∧ c.tabEntries ≤ 65536) ∧ (1 ≤ c.nodeMax ∧ c.nodeMax ≤ 2 ^ 32 - 1)

/-- MAX_BITS (R6): the longest read and the longest code. -/
abbrev maxBits : Nat := 32

/-- SEED_REQUIRED (R9). -/
abbrev seedRequired : Nat := 512

/-- SAMPLE_MAX (R8). -/
abbrev sampleMax : Nat := 65535

/-- RESID_MAX_BITS (R10): the largest size category. -/
abbrev residMaxBits : Nat := 16

/-- NIL (R15): the child word of an absent branch. -/
def nil32 : Word := 0xFFFFFFFF#32

/-- UNDEFINED_LEAF (R15): the leaf word of a node that carries no symbol. -/
def undefinedLeaf : Word := 0xFFFFFFFF#32

/-- ID_VALUE (R17). -/
def idValue : Word := 0x58334601#32

end Sys2Proof
end

