-- ==== Sys2Proof/Syntax.lean ====
section
/-! DEFINITION. The 16 commands of command set HDU-1 (`30_encoding.md` R115): one constructor per row of
`spec/opcode_table.json`, with its operand fields as R113 reads them. -/

namespace Sys2Proof

/-- The bit order of the reader, STATUS.ORDER (R35, R80): `msb` is 0, MSB-first; `lsb` is 1, LSB-first. -/
inductive BitOrder where
  | msb
  | lsb
  deriving DecidableEq, Repr

/-- A command. The fields `t` and `p` have the legal values 0, 1, 2 only (R113), so they are `Fin 3`; `nm1` is the count
less one; `idx` is any 16-bit value, and `Instr.wellFormed` says which of them are legal. -/
inductive Instr where
  /-- NOP (R190). -/
  | nop
  /-- ERR.ACK (R191). -/
  | errAck
  /-- RESET (R192). -/
  | reset
  /-- BS.OPEN o (R132). -/
  | bsOpen (o : BitOrder)
  /-- BS.SEEK (R133). -/
  | bsSeek
  /-- BS.READ n, with nm1 = n − 1 (R134). -/
  | bsRead (nm1 : BitVec 5)
  /-- BS.PEEK n, with nm1 = n − 1 (R135). -/
  | bsPeek (nm1 : BitVec 5)
  /-- BS.ATEND (R136). -/
  | bsAtEnd
  /-- HT.CLEAR (R151). -/
  | htClear
  /-- HT.INSERT t, idx (R155). -/
  | htInsert (t : Fin 3) (idx : BitVec 16)
  /-- HT.BUILD t (R156). -/
  | htBuild (t : Fin 3)
  /-- HT.DECODE (R157). -/
  | htDecode
  /-- PL.ADDR (R173). -/
  | plAddr
  /-- PL.RESID (R172). -/
  | plResid
  /-- PL.DECODE p (R177). -/
  | plDecode (p : Fin 3)
  /-- PL.DECODEALL (R179). -/
  | plDecodeAll
  deriving DecidableEq, Repr

end Sys2Proof
end

