-- ==== Sys2Proof/WellFormed.lean ====
section
/-! DEFINITION. Which commands an instance with TAB_ENTRIES table entries can be given (R113, R116). -/

namespace Sys2Proof

/-- A command is well formed when its operands are legal (R113). The types of `o`, `nm1`, `t` and `p` admit their legal
values only, so the one check left is `idx < TAB_ENTRIES`. -/
def Instr.wellFormed (tabEntries : Nat) : Instr → Bool
  | .nop => true
  | .errAck => true
  | .reset => true
  | .bsOpen _ => true
  | .bsSeek => true
  | .bsRead _ => true
  | .bsPeek _ => true
  | .bsAtEnd => true
  | .htClear => true
  | .htInsert _ idx => decide (idx.toNat < tabEntries)
  | .htBuild _ => true
  | .htDecode => true
  | .plAddr => true
  | .plResid => true
  | .plDecode _ => true
  | .plDecodeAll => true

end Sys2Proof
end

