-- ==== Sys2Proof/Decode.lean ====
section
/-! DEFINITION. The command decoder and encoder (`30_encoding.md` R110 to R116, R119): a total function from a 32-bit
command word to a command or to one of the three named rejections of R116, and the word of a command. -/

namespace Sys2Proof

/-- The 16 opcodes of R115. -/
inductive Opcode where
  | nop | errAck | reset
  | bsOpen | bsSeek | bsRead | bsPeek | bsAtEnd
  | htClear | htInsert | htBuild | htDecode
  | plAddr | plResid | plDecode | plDecodeAll
  deriving DecidableEq, Repr

/-- The six formats of R111. -/
inductive Format where
  | z | o | n | t | p | i
  deriving DecidableEq, Repr

/-- Why a word is illegal (R116). -/
inductive Illegal where
  /-- UNKNOWN_OPCODE: bits 31:24 are none of the 16 opcodes. -/
  | unknownOpcode
  /-- RESERVED_FIELD: a bit the format marks as zero is 1. -/
  | reservedField
  /-- BAD_OPERAND: t or p is 3, or idx ≥ TAB_ENTRIES. -/
  | badOperand
  deriving DecidableEq, Repr

/-- What decoding a word gives. -/
inductive Decoded where
  | ok (i : Instr)
  | illegal (why : Illegal)
  deriving DecidableEq, Repr

/-- Every opcode, in the order of R115. -/
def Opcode.all : List Opcode :=
  [.nop, .errAck, .reset, .bsOpen, .bsSeek, .bsRead, .bsPeek, .bsAtEnd,
   .htClear, .htInsert, .htBuild, .htDecode, .plAddr, .plResid, .plDecode, .plDecodeAll]

/-- Bits 31:24 of the command (R115). -/
def Opcode.code : Opcode → BitVec 8
  | .nop => 0x00#8
  | .errAck => 0x01#8
  | .reset => 0x02#8
  | .bsOpen => 0x10#8
  | .bsSeek => 0x11#8
  | .bsRead => 0x12#8
  | .bsPeek => 0x13#8
  | .bsAtEnd => 0x14#8
  | .htClear => 0x20#8
  | .htInsert => 0x21#8
  | .htBuild => 0x22#8
  | .htDecode => 0x23#8
  | .plAddr => 0x30#8
  | .plResid => 0x31#8
  | .plDecode => 0x32#8
  | .plDecodeAll => 0x33#8

/-- The format of each opcode (R111, R115). -/
def Opcode.format : Opcode → Format
  | .nop => .z
  | .errAck => .z
  | .reset => .z
  | .bsOpen => .o
  | .bsSeek => .z
  | .bsRead => .n
  | .bsPeek => .n
  | .bsAtEnd => .z
  | .htClear => .z
  | .htInsert => .i
  | .htBuild => .t
  | .htDecode => .z
  | .plAddr => .z
  | .plResid => .z
  | .plDecode => .p
  | .plDecodeAll => .z

/-- The column `mask` of R115, which the format decides: the opcode's bits and the bits marked zero. -/
def Format.mask : Format → Word
  | .z => 0xFFFFFFFF#32
  | .o => 0xFFFFFFFE#32
  | .n => 0xFFFFFFE0#32
  | .t => 0xFFFFFFFC#32
  | .p => 0xFFFFFFFC#32
  | .i => 0xFFFC0000#32

/-- The column `match` of R115: the opcode in bits 31:24 over zeros. -/
def Opcode.pattern (op : Opcode) : Word := op.code ++ 0#24

/-- The opcode whose code is `b`, if there is one (R115). -/
def Opcode.ofCode (b : BitVec 8) : Option Opcode := Opcode.all.find? (fun op => op.code == b)

/-- The fields t and p (R113): the value 3 is illegal. -/
def planeField (f : BitVec 2) : Option (Fin 3) :=
  if h : f.toNat < 3 then some ⟨f.toNat, h⟩ else none

/-- The field o (R113). -/
def orderField (f : BitVec 1) : BitOrder := if f = 1#1 then .lsb else .msb

/-- The command of an opcode whose reserved bits are all 0, from the word's fields (R111, R113); none is BAD_OPERAND. -/
def Opcode.operands (tabEntries : Nat) (cw : Word) : Opcode → Option Instr
  | .nop => some .nop
  | .errAck => some .errAck
  | .reset => some .reset
  | .bsOpen => some (.bsOpen (orderField (cw.extractLsb' 0 1)))
  | .bsSeek => some .bsSeek
  | .bsRead => some (.bsRead (cw.extractLsb' 0 5))
  | .bsPeek => some (.bsPeek (cw.extractLsb' 0 5))
  | .bsAtEnd => some .bsAtEnd
  | .htClear => some .htClear
  | .htInsert =>
    if (cw.extractLsb' 0 16).toNat < tabEntries then
      (planeField (cw.extractLsb' 16 2)).map fun t => .htInsert t (cw.extractLsb' 0 16)
    else none
  | .htBuild => (planeField (cw.extractLsb' 0 2)).map .htBuild
  | .htDecode => some .htDecode
  | .plAddr => some .plAddr
  | .plResid => some .plResid
  | .plDecode => (planeField (cw.extractLsb' 0 2)).map .plDecode
  | .plDecodeAll => some .plDecodeAll

/-- Decode a command word (R112 step 2), with the three checks of R116 in their order. -/
def decode (tabEntries : Nat) (cw : Word) : Decoded :=
  match Opcode.ofCode (cw.extractLsb' 24 8) with
  | none => .illegal .unknownOpcode
  | some op =>
    if cw &&& op.format.mask = op.pattern then
      match op.operands tabEntries cw with
      | some i => .ok i
      | none => .illegal .badOperand
    else .illegal .reservedField

/-- The opcode of a command (R115). -/
def Instr.opcode : Instr → Opcode
  | .nop => .nop
  | .errAck => .errAck
  | .reset => .reset
  | .bsOpen _ => .bsOpen
  | .bsSeek => .bsSeek
  | .bsRead _ => .bsRead
  | .bsPeek _ => .bsPeek
  | .bsAtEnd => .bsAtEnd
  | .htClear => .htClear
  | .htInsert _ _ => .htInsert
  | .htBuild _ => .htBuild
  | .htDecode => .htDecode
  | .plAddr => .plAddr
  | .plResid => .plResid
  | .plDecode _ => .plDecode
  | .plDecodeAll => .plDecodeAll

/-- The bit that encodes a bit order: o = cw[0] (R111). -/
def BitOrder.bit : BitOrder → BitVec 1
  | .msb => 0#1
  | .lsb => 1#1

/-- The operand fields of a command in their places (R111), every other bit 0. -/
def Instr.fields : Instr → Word
  | .nop => 0#32
  | .errAck => 0#32
  | .reset => 0#32
  | .bsOpen o => o.bit.setWidth 32
  | .bsSeek => 0#32
  | .bsRead nm1 => nm1.setWidth 32
  | .bsPeek nm1 => nm1.setWidth 32
  | .bsAtEnd => 0#32
  | .htClear => 0#32
  | .htInsert t idx => (BitVec.ofNat 32 t.val <<< 16) ||| idx.setWidth 32
  | .htBuild t => BitVec.ofNat 32 t.val
  | .htDecode => 0#32
  | .plAddr => 0#32
  | .plResid => 0#32
  | .plDecode p => BitVec.ofNat 32 p.val
  | .plDecodeAll => 0#32

/-- The word of a command: `match | fields` (R119). -/
def encode (i : Instr) : Word := i.opcode.pattern ||| i.fields

/-- What the decoder reads from the word `w` of an opcode-table row of `nbits` bits, on an instance with the default
TAB_ENTRIES. A command is one 32-bit word (R110), written whole to CMD; it has no byte order (R81). -/
def decodeTableWord (nbits w : Nat) : Option Instr :=
  match decode Config.default.tabEntries (BitVec.ofNat 32 (w % 2 ^ nbits)) with
  | .ok i => some i
  | .illegal _ => none

end Sys2Proof
end

