-- ==== Sys2Proof/Machine/State.lean ====
section
/-! DEFINITION. The state of the unit (`10_state.md`), the host agent that drives it (R30), the reasons a step can
stop, and the state after reset (R70). State is plain data. -/

namespace Sys2Proof.Machine

/-- A memory of `w`-bit units: (address, unit) pairs. `Memory 8` is a list of `Host.Cell`; the code tables, a memory of
whole 32-bit words without byte order (R81), are a `Memory 32` keyed by the byte offset of each word (R88). -/
abbrev Memory (w : Nat) := List (Nat × BitVec w)

/-- What an address that no entry lists reads as. DESIGN CHOICE, unsafe (log entry 1): the power-on contents are
unspecified (R71, U1); every other content is a list of entries, and `State.powerOn` takes it as an argument. -/
def unlisted (w : Nat) : BitVec w := 0#w

/-- A node of the arena (R59): two child words, each a node index or NIL, and a leaf word, a symbol or UNDEFINED_LEAF. -/
structure Node where
  c0 : Word
  c1 : Word
  leaf : Word
  deriving DecidableEq, Repr

/-- The node with no children and no symbol: the root of the empty tree (R70, R151). -/
def Node.empty : Node := { c0 := nil32, c1 := nil32, leaf := undefinedLeaf }

/-- The error record (R43 to R45): the fields of ECAUSE, the registers EPOS, EEXP, EFND, and the fields of ELOC. -/
structure ErrorRecord where
  /-- ECAUSE[7:0]. -/
  cause : BitVec 8
  /-- ECAUSE[15:8]. -/
  sub : BitVec 8
  /-- ECAUSE[17:16]. -/
  plane : BitVec 2
  /-- ECAUSE[18]. -/
  inPlane : Bool
  epos : Word
  eexp : Word
  efnd : Word
  /-- ELOC[31:16]. -/
  row : Half
  /-- ELOC[15:0]. -/
  col : Half
  deriving DecidableEq, Repr

/-- The error record after reset: all 0 (R70). -/
def ErrorRecord.zero : ErrorRecord :=
  { cause := 0#8, sub := 0#8, plane := 0#2, inPlane := false, epos := 0#32, eexp := 0#32, efnd := 0#32,
    row := 0#16, col := 0#16 }

/-- The five ports of the unit (R83, R88). -/
inductive Port where
  | reg
  | ibuf
  | ctab
  | node
  | obuf
  deriving DecidableEq, Repr

/-- What the host can do (R30): read or write `width` bytes at a byte address of a port, or assert reset. A write of a
command word to CMD is `write .reg 0 4 cw` (R40). A write of fewer than 4 bytes moves the low bytes of `value`. -/
inductive HostAction where
  | read (port : Port) (addr width : Nat)
  | write (port : Port) (addr width : Nat) (value : Word)
  | hardReset
  deriving DecidableEq, Repr

/-- The answer on the host's bus to its last action. -/
inductive BusResponse where
  /-- No access is answered: after power-on and after a hardware reset. -/
  | idle
  /-- A write, or a command, has completed (R112). -/
  | done
  /-- A read returned this value, zero-extended. -/
  | data (value : Word)
  /-- The port refused the access (R84). -/
  | busError
  deriving DecidableEq, Repr

/-- The state: the parameters, the registers of R38, the four memories of section 7 of `10_state.md`, and the host.
Read-only computed views: STATUS, ECAUSE, ELOC, NCOUNT, ID (`Machine/Flags.lean`, `Machine/Operands.lean`). -/
structure State where
  /-- The instance's parameters (R11 to R14): carried, never changed. -/
  cfg : Config
  /-- STATUS[0], ERR (R37): the operating state is FAULTED. -/
  err : Bool
  /-- STATUS[1], LOST (R37). -/
  lost : Bool
  /-- STATUS[2], PAVALID (R37). -/
  pavalid : Bool
  /-- STATUS[3], ORDER (R37). -/
  order : BitOrder
  /-- CTRL[0], EIE (R42). -/
  eie : Bool
  /-- ECAUSE, EPOS, EEXP, EFND, ELOC (R43 to R45). -/
  record : ErrorRecord
  /-- A0, general register x[0] (R32). -/
  a0 : Word
  /-- A1, general register x[1] (R32). -/
  a1 : Word
  /-- RES, general register x[2] (R32). -/
  res : Word
  /-- BPOS, the bit position (R35). -/
  bpos : Word
  /-- BLIM, the bit limit (R35). -/
  blim : Word
  /-- BLEN, the valid bytes of IBUF (R48). -/
  blen : Word
  /-- COLS[15:0] (R50). -/
  cols : Half
  /-- ROWS[15:0] (R50). -/
  rows : Half
  /-- STRIDE (R51). -/
  stride : Word
  /-- PBASE (R52). -/
  pbase : Word
  /-- SEED[0..2], bits 15:0 (R54). -/
  seed : Vector Half 3
  /-- PSIZE[0..2] (R55). -/
  psize : Vector Word 3
  /-- PADDR[0..2] (R56). -/
  paddr : Vector Word 3
  /-- IBUF (R57). -/
  ibuf : Memory 8
  /-- CTAB (R58). -/
  ctab : Memory 32
  /-- NODE (R59): the nodes in use, node k at place k. NCOUNT (R49) is their number; words at and above NCOUNT are not
  architectural (R71, U8). -/
  arena : List Node
  /-- OBUF (R60). -/
  obuf : Memory 8
  /-- The model's own field: the host's actions still to come, in the order it issues them (R90). -/
  host : List HostAction
  /-- The model's own field: the answer to the host's last action. -/
  bus : BusResponse
  deriving DecidableEq, Repr

/-- Why a step stops with a fault. Every constructor is SAFE and none is an error of the unit: each stands for an access
that the spec says never happens, and `Safety.Inv` (kept by every step) excludes all of them. -/
inductive Fault where
  /-- Raised by `readBits` for a byte address at or above IBUF_BYTES, which R137 excludes. Safe. -/
  | ibufOutOfRange
  /-- Raised by `tableEntry` for an entry at or above TAB_ENTRIES, which no legal command names (R116). Safe. -/
  | ctabOutOfRange
  /-- Raised by `descend` and `insert` for a node index at or above NCOUNT, which R61 (b) excludes. Safe. -/
  | nodeOutOfArena
  /-- Raised by `descend` after NCOUNT edges without a leaf, which R61 (b) excludes. Safe. -/
  | descentTooLong
  deriving DecidableEq, Repr

/-- Why a step is refused. -/
inductive Refusal where
  /-- Raised by `exec` for an instruction that has no meaning yet; no arm raises it now. Safe. -/
  | notModelled (mnemonic : String)
  deriving DecidableEq, Repr

/-- The state after power-on and hardware reset of an instance whose memories hold `ibuf`, `ctab` and `obuf`: every
register at its reset value, the empty tree, and memory contents that are arbitrary inputs (R70, R71, U1). `host` is
what the host is going to do. -/
def State.powerOn (cfg : Config) (ibuf : Memory 8) (ctab : Memory 32) (obuf : Memory 8) (host : List HostAction) :
    State where
  cfg := cfg
  err := false
  lost := false
  pavalid := false
  order := .msb
  eie := false
  record := .zero
  a0 := 0#32
  a1 := 0#32
  res := 0#32
  bpos := 0#32
  blim := 0#32
  blen := 0#32
  cols := 0#16
  rows := 0#16
  stride := 0#32
  pbase := 0#32
  seed := #v[0#16, 0#16, 0#16]
  psize := #v[0#32, 0#32, 0#32]
  paddr := #v[0#32, 0#32, 0#32]
  ibuf := ibuf
  ctab := ctab
  arena := [Node.empty]
  obuf := obuf
  host := host
  bus := .idle

/-- The machine right after reset (R70): default parameters, nothing written to a memory, no host action pending. -/
def State.reset : State := State.powerOn Config.default [] [] [] []

end Sys2Proof.Machine
end

