-- ==== Sys2Proof/Machine/Ops.lean ====
section
/-! DEFINITION. The named operations over the memories and the registers, the result of a helper that may raise
(R21), taking an error and returning from one (`60_exceptions.md` R204, R208). -/

namespace Sys2Proof.Machine

/-! ### Memory -/

/-- Whether every address of the memory is above `a`. -/
def Memory.above {w : Nat} (a : Nat) : Memory w → Bool
  | [] => true
  | (b, _) :: m => decide (a < b) && Memory.above a m

/-- The one canonical form: addresses strictly rising, no entry equal to what an unlisted address reads as. -/
def Memory.wf {w : Nat} : Memory w → Bool
  | [] => true
  | (a, v) :: m => Memory.above a m && decide (v ≠ unlisted w) && Memory.wf m

/-- Read one unit. -/
def Memory.read {w : Nat} : Memory w → Nat → BitVec w
  | [], _ => unlisted w
  | (b, v) :: m, a => if a = b then v else Memory.read m a

/-- Write one unit, keeping the canonical form: the value an unlisted address reads as is not listed. -/
def Memory.write {w : Nat} : Memory w → Nat → BitVec w → Memory w
  | [], a, v => if v = unlisted w then [] else [(a, v)]
  | (b, x) :: m, a, v =>
    if a < b then (if v = unlisted w then (b, x) :: m else (a, v) :: (b, x) :: m)
    else if a = b then (if v = unlisted w then m else (a, v) :: m)
    else (b, x) :: Memory.write m a v

/-- Write the `n` low bytes of `v`, least significant byte at the lowest address (R81). -/
def Memory.writeBytes (m : Memory 8) (a : Nat) (v : Word) : Nat → Memory 8
  | 0 => m
  | n + 1 => Memory.write (Memory.writeBytes m a v n) (a + n) (v.extractLsb' (8 * n) 8)

/-- Read `n` bytes as a number, least significant byte at the lowest address (R81). -/
def Memory.readBytes (m : Memory 8) (a : Nat) : Nat → Nat
  | 0 => 0
  | n + 1 => Memory.readBytes m a n + (m.read (a + n)).toNat * 2 ^ (8 * n)

/-- `OBUF.MemWrite(a, 2, v)` (R20, R81): two byte writes, at any address (R85). -/
def Memory.writeHalf (m : Memory 8) (a : Nat) (v : Half) : Memory 8 :=
  Memory.write (Memory.write m a (v.extractLsb' 0 8)) (a + 1) (v.extractLsb' 8 8)

/-- The byte offset of `CTAB[t][i].len`; the word `CTAB[t][i].code` is 4 bytes on (R88). -/
def ctabOffset (cfg : Config) (t : Fin 3) (i : Nat) : Nat := 8 * (t.val * cfg.tabEntries + i)

/-! ### Nodes (R59) -/

/-- `NODE[k].c[b]` (R20). -/
def Node.child (nd : Node) (b : Bool) : Word := if b then nd.c1 else nd.c0

/-- `NODE[k].c[b] <- m`. -/
def Node.setChild (nd : Node) (b : Bool) (m : Word) : Node :=
  if b then { nd with c1 := m } else { nd with c0 := m }

/-- A node with no children (R150). -/
def Node.childless (nd : Node) : Bool := decide (nd.c0 = nil32) && decide (nd.c1 = nil32)

/-! ### Errors: what `raise` carries and does -/

/-- The pairs cause and sub-cause that a command can raise (R202). -/
inductive Cause where
  | truncatedStream
  | leafOnPath
  | internalAtLeaf
  | duplicateCode
  | badLength
  | noSentinel
  | arenaFull
  | undefinedLeaf
  | absentBranch
  | badSizeSymbol
  | sampleOverflow
  | badSeed
  | window
  | seek
  | planes
  | unknownOpcode
  | reservedField
  | badOperand
  | blenTooLarge
  | planesNotAddressed
  | strideTooSmall
  | obufOverflow
  deriving DecidableEq, Repr

/-- ECAUSE.CAUSE (R201). -/
def Cause.code : Cause → BitVec 8
  | .truncatedStream => 3#8
  | .leafOnPath => 4#8
  | .internalAtLeaf => 4#8
  | .duplicateCode => 4#8
  | .badLength => 4#8
  | .noSentinel => 4#8
  | .arenaFull => 4#8
  | .undefinedLeaf => 5#8
  | .absentBranch => 5#8
  | .badSizeSymbol => 5#8
  | .sampleOverflow => 5#8
  | .badSeed => 5#8
  | .window => 6#8
  | .seek => 6#8
  | .planes => 6#8
  | .unknownOpcode => 9#8
  | .reservedField => 9#8
  | .badOperand => 9#8
  | .blenTooLarge => 10#8
  | .planesNotAddressed => 10#8
  | .strideTooSmall => 10#8
  | .obufOverflow => 10#8

/-- ECAUSE.SUB (R202). -/
def Cause.sub : Cause → BitVec 8
  | .truncatedStream => 0#8
  | .leafOnPath => 1#8
  | .internalAtLeaf => 2#8
  | .duplicateCode => 3#8
  | .badLength => 4#8
  | .noSentinel => 5#8
  | .arenaFull => 6#8
  | .undefinedLeaf => 1#8
  | .absentBranch => 2#8
  | .badSizeSymbol => 3#8
  | .sampleOverflow => 4#8
  | .badSeed => 5#8
  | .window => 1#8
  | .seek => 2#8
  | .planes => 3#8
  | .unknownOpcode => 1#8
  | .reservedField => 2#8
  | .badOperand => 3#8
  | .blenTooLarge => 1#8
  | .planesNotAddressed => 2#8
  | .strideTooSmall => 3#8
  | .obufOverflow => 4#8

/-- `raise Cause.SUB(pos, exp, fnd)` (R21), with its context: the plane when it is inside PlaneBody, the row and column
when it is inside the sample loops (R204). -/
structure Raise where
  cause : Cause
  pos : Nat
  exp : Nat
  fnd : Nat
  plane : Option (Fin 3) := none
  sample : Option (Nat × Nat) := none
  deriving DecidableEq, Repr

/-- What a helper function answers: a value, a `raise` that ends the command (R21), or an access the spec excludes. -/
inductive Result (α : Type) where
  | ok (a : α)
  | raised (e : Raise)
  | fault (f : Fault)
  deriving DecidableEq, Repr

/-- Go on with the value; a `raise` or a fault propagates (R21). -/
def Result.bind {α β : Type} (r : Result α) (f : α → Result β) : Result β :=
  match r with
  | .ok a => f a
  | .raised e => .raised e
  | .fault x => .fault x

/-- Give a `raise` a context. -/
def Result.mapRaise {α : Type} (r : Result α) (g : Raise → Raise) : Result α :=
  match r with
  | .ok a => .ok a
  | .raised e => .raised (g e)
  | .fault x => .fault x

/-- The context of PlaneBody(p) (R176, R204). -/
def Raise.inPlane (p : Fin 3) (e : Raise) : Raise := { e with plane := some p }

/-- The context of the sample at (row, col) (R176, R204). -/
def Raise.atSample (row col : Nat) (e : Raise) : Raise := { e with sample := some (row, col) }

/-- The error record a `raise` writes (R204 step 2). -/
def Raise.record (e : Raise) : ErrorRecord where
  cause := e.cause.code
  sub := e.cause.sub
  plane := match e.plane with | some p => BitVec.ofNat 2 p.val | none => 0#2
  inPlane := e.plane.isSome
  epos := BitVec.ofNat 32 e.pos
  eexp := BitVec.ofNat 32 e.exp
  efnd := BitVec.ofNat 32 e.fnd
  row := match e.sample with | some rc => BitVec.ofNat 16 rc.1 | none => 0#16
  col := match e.sample with | some rc => BitVec.ofNat 16 rc.2 | none => 0#16

/-- The effect of `raise` (R204), on the state as it was before the command: everything the command did is discarded,
the record is written and ERR is set. -/
def State.takeError (s : State) (e : Raise) : State := { s with err := true, record := e.record }

/-- The return from an error (R208, R191): ERR and LOST are cleared, nothing else. -/
def State.ackError (s : State) : State := { s with err := false, lost := false }

/-- A command dropped in FAULTED (R207): LOST is set, nothing else. -/
def State.dropCommand (s : State) : State := { s with lost := true }

/-- How a command ends (R112 step 3): in the state its rule computed from `s`, or by raising in `s`. -/
def finish (s : State) (r : Result State) : Host.Outcome State Fault Refusal :=
  match r with
  | .ok t => .next t
  | .raised e => .next (s.takeError e)
  | .fault x => .fault x

/-! ### Registers -/

/-- Every register at its reset value, and the arena the empty tree (R70, R192); IBUF, CTAB and OBUF stay (R71). -/
def State.resetRegisters (s : State) : State :=
  { State.powerOn s.cfg s.ibuf s.ctab s.obuf s.host with bus := s.bus }

/-- `REG.RES <- v`. -/
def State.setRes (s : State) (v : Word) : State := { s with res := v }

/-- `REG.BPOS <- pos`. -/
def State.setBpos (s : State) (pos : Nat) : State := { s with bpos := BitVec.ofNat 32 pos }

/-- Set the cursor: ORDER, BPOS and BLIM (R35). -/
def State.setWindow (s : State) (order : BitOrder) (pos lim : Nat) : State :=
  { s with order := order, bpos := BitVec.ofNat 32 pos, blim := BitVec.ofNat 32 lim }

/-- Replace the tree: NODE and NCOUNT (R59, R49). -/
def State.setArena (s : State) (arena : List Node) : State := { s with arena := arena }

/-- Store the plane addresses and set PAVALID (R173). -/
def State.setPaddr (s : State) (a0 a1 a2 : Nat) : State :=
  { s with paddr := #v[BitVec.ofNat 32 a0, BitVec.ofNat 32 a1, BitVec.ofNat 32 a2], pavalid := true }

/-- Replace the contents of OBUF (R60). -/
def State.setObuf (s : State) (obuf : Memory 8) : State := { s with obuf := obuf }

/-- Take the host's next action off its list; unless the action answers otherwise, the bus says it completed. -/
def State.accept (s : State) (rest : List HostAction) : State := { s with host := rest, bus := .done }

/-- Answer the host's action. -/
def State.respond (s : State) (r : BusResponse) : State := { s with bus := r }

end Sys2Proof.Machine
end

