-- ==== Sys2Proof/Machine/Flags.lean ====
section
/-! DEFINITION. The flags (`10_state.md` R37, R41, R42) and the interrupt output (`60_exceptions.md` R209). The unit has
no arithmetic condition codes (R37). -/

namespace Sys2Proof.Machine

/-- STATUS.ORDER as a flag: 0 MSB-first, 1 LSB-first (R35). -/
def orderFlag : BitOrder → Bool
  | .msb => false
  | .lsb => true

/-- STATUS (R41): bit 0 ERR, bit 1 LOST, bit 2 PAVALID, bit 3 ORDER; bits 31:4 read 0. -/
def State.status (s : State) : Word :=
  0#28 ++ BitVec.ofBool (orderFlag s.order) ++ BitVec.ofBool s.pavalid ++ BitVec.ofBool s.lost ++ BitVec.ofBool s.err

/-- CTRL (R42): bit 0 EIE; bits 31:1 read 0. -/
def State.ctrl (s : State) : Word := 0#31 ++ BitVec.ofBool s.eie

/-- The interrupt output (R209): `irq = STATUS.ERR & CTRL.EIE`. -/
def State.irq (s : State) : Bool := s.err && s.eie

/-- A write to BLEN, PBASE or a PSIZE register clears PAVALID, whatever value is written (R37). -/
def State.clearPavalid (s : State) : State := { s with pavalid := false }

end Sys2Proof.Machine
end

