-- ==== Sys2Proof/Machine/Operands.lean ====
section
/-! DEFINITION. The values commands and host accesses work on: the count field (R113), 32-bit views of integers (R18),
the register port's names, offsets, reads and writes (`10_state.md` R38 to R56), and the words of the CTAB and NODE
ports (`20_memory.md` R88). -/

namespace Sys2Proof.Machine

/-- `n = nm1 + 1` (R113): 1 to 32. -/
def bitCount (nm1 : BitVec 5) : Nat := nm1.toNat + 1

/-- `u32(v) = v mod 2^32` (R18). -/
def u32 (v : Int) : Word := BitVec.ofInt 32 v

/-- `s32(w)` (R18): how the host recovers a signed residual from RES (R33). -/
def s32 (w : Word) : Int := w.toInt

/-- NCOUNT (R49): the number of nodes in use. -/
def State.ncount (s : State) : Word := BitVec.ofNat 32 s.arena.length

/-- ECAUSE (R43): CAUSE in 7:0, SUB in 15:8, PLANE in 17:16, INPLANE in 18; bits 31:19 read 0. -/
def ErrorRecord.ecause (r : ErrorRecord) : Word := 0#13 ++ BitVec.ofBool r.inPlane ++ r.plane ++ r.sub ++ r.cause

/-- ELOC (R45): ROW in 31:16, COL in 15:0. -/
def ErrorRecord.eloc (r : ErrorRecord) : Word := r.row ++ r.col

/-- The registers of the port REG (R38). -/
inductive Reg where
  | cmd | status | ctrl | ecause | epos | eexp | efnd | eloc
  | a0 | a1 | res | bpos | blim | blen | ncount
  | cols | rows | stride | pbase
  | seed (p : Fin 3) | psize (p : Fin 3) | paddr (p : Fin 3)
  | id
  deriving DecidableEq, Repr

/-- The register at a byte offset (R38); none is a reserved offset. -/
def Reg.ofOffset : Nat → Option Reg
  | 0x00 => some .cmd
  | 0x04 => some .status
  | 0x08 => some .ctrl
  | 0x0C => some .ecause
  | 0x10 => some .epos
  | 0x14 => some .eexp
  | 0x18 => some .efnd
  | 0x1C => some .eloc
  | 0x20 => some .a0
  | 0x24 => some .a1
  | 0x28 => some .res
  | 0x2C => some .bpos
  | 0x30 => some .blim
  | 0x34 => some .blen
  | 0x38 => some .ncount
  | 0x3C => some .cols
  | 0x40 => some .rows
  | 0x44 => some .stride
  | 0x48 => some .pbase
  | 0x4C => some (.seed 0)
  | 0x50 => some (.seed 1)
  | 0x54 => some (.seed 2)
  | 0x58 => some (.psize 0)
  | 0x5C => some (.psize 1)
  | 0x60 => some (.psize 2)
  | 0x64 => some (.paddr 0)
  | 0x68 => some (.paddr 1)
  | 0x6C => some (.paddr 2)
  | 0x70 => some .id
  | _ => none

/-- A host read of a register (R38, R39): CMD reads 0, reserved bits read 0, nothing changes. -/
def State.readReg (s : State) : Reg → Word
  | .cmd => 0#32
  | .status => s.status
  | .ctrl => s.ctrl
  | .ecause => s.record.ecause
  | .epos => s.record.epos
  | .eexp => s.record.eexp
  | .efnd => s.record.efnd
  | .eloc => s.record.eloc
  | .a0 => s.a0
  | .a1 => s.a1
  | .res => s.res
  | .bpos => s.bpos
  | .blim => s.blim
  | .blen => s.blen
  | .ncount => s.ncount
  | .cols => s.cols.setWidth 32
  | .rows => s.rows.setWidth 32
  | .stride => s.stride
  | .pbase => s.pbase
  | .seed p => s.seed[p].setWidth 32
  | .psize p => s.psize[p]
  | .paddr p => s.paddr[p]
  | .id => idValue

/-- A host write of a register other than CMD (R38, R39): read-only registers and reserved bits ignore it; a write to
BLEN, PBASE or a PSIZE register also clears PAVALID (R37). -/
def State.writeReg (s : State) (r : Reg) (v : Word) : State :=
  match r with
  | .ctrl => { s with eie := v.getLsbD 0 }
  | .a0 => { s with a0 := v }
  | .a1 => { s with a1 := v }
  | .blen => State.clearPavalid { s with blen := v }
  | .cols => { s with cols := v.setWidth 16 }
  | .rows => { s with rows := v.setWidth 16 }
  | .stride => { s with stride := v }
  | .pbase => State.clearPavalid { s with pbase := v }
  | .seed p => { s with seed := s.seed.set p (v.setWidth 16) }
  | .psize p => State.clearPavalid { s with psize := s.psize.set p v }
  | .cmd => s
  | .status => s
  | .ecause => s
  | .epos => s
  | .eexp => s
  | .efnd => s
  | .eloc => s
  | .res => s
  | .bpos => s
  | .blim => s
  | .ncount => s
  | .paddr _ => s
  | .id => s

/-- The two words of `CTAB[t][i]`, (len, code) (R58, R88). -/
def tableEntry (cfg : Config) (ctab : Memory 32) (t : Fin 3) (i : Nat) : Result (Word × Word) :=
  if i < cfg.tabEntries then
    .ok (ctab.read (ctabOffset cfg t i), ctab.read (ctabOffset cfg t i + 4))
  else .fault .ctabOutOfRange

/-- The word at a byte offset of the NODE port (R88); a node at or above NCOUNT reads 0xFFFFFFFF (R59). -/
def State.nodeWord (s : State) (off : Nat) : Word :=
  match s.arena[off / 12]? with
  | none => 0xFFFFFFFF#32
  | some nd => if off % 12 = 0 then nd.c0 else if off % 12 = 4 then nd.c1 else nd.leaf

end Sys2Proof.Machine
end

