-- ==== Sys2Proof/Machine/Control.lean ====
section
/-! DEFINITION. The control commands (`43_control.md`): NOP, ERR.ACK, RESET. In FAULTED a NOP is dropped before it is
decoded (R112 step 1, R207): that is `runCommand` of `Machine/HostPort.lean`. -/

namespace Sys2Proof.Machine

/-- NOP (R190): nothing. -/
def execNop (s : State) : Host.Outcome State Fault Refusal := finish s (.ok s)

/-- ERR.ACK (R191): the return from an error. -/
def execErrAck (s : State) : Host.Outcome State Fault Refusal := finish s (.ok s.ackError)

/-- RESET (R192). -/
def execReset (s : State) : Host.Outcome State Fault Refusal := finish s (.ok s.resetRegisters)

end Sys2Proof.Machine
end

