-- ==== Sys2Proof/Machine/Bitstream.lean ====
section
/-! DEFINITION. The bitstream reader (`40_bitstream.md`): StreamBit, ReadBits, and the commands BS.OPEN, BS.SEEK,
BS.READ, BS.PEEK, BS.ATEND. Positions and sums are unbounded integers (R18). -/

namespace Sys2Proof.Machine

/-- StreamBit (R130): the bit of the stream at bit position `P`. -/
def streamBit (ibuf : Memory 8) (P : Nat) (order : BitOrder) : Bool :=
  let byte := ibuf.read (P >>> 3)
  let k := P &&& 7
  match order with
  | .msb => byte.getLsbD (7 - k)
  | .lsb => byte.getLsbD k

/-- The loop of ReadBits, MSB-first (R131): the first bit read becomes bit n − 1 of the value. -/
def bitsMsb (ibuf : Memory 8) (pos : Nat) : Nat → Nat
  | 0 => 0
  | n + 1 => (bitsMsb ibuf pos n <<< 1) ||| (streamBit ibuf (pos + n) .msb).toNat

/-- The loop of ReadBits, LSB-first (R131): the first bit read becomes bit 0 of the value. -/
def bitsLsb (ibuf : Memory 8) (pos : Nat) : Nat → Nat
  | 0 => 0
  | n + 1 => bitsLsb ibuf pos n ||| ((streamBit ibuf (pos + n) .lsb).toNat <<< n)

/-- The next `n` bits from `pos` as a number (R131). -/
def streamBits (ibuf : Memory 8) (n pos : Nat) : BitOrder → Nat
  | .msb => bitsMsb ibuf pos n
  | .lsb => bitsLsb ibuf pos n

/-- ReadBits (R131): the next `n` bits and the position after them, or TruncatedStream. The unit's own access outside
IBUF never happens (R20, R137); where a state no run reaches would need one, the model faults. -/
def readBits (cfg : Config) (ibuf : Memory 8) (n pos lim : Nat) (order : BitOrder) : Result (Nat × Nat) :=
  if lim < pos + n then .raised { cause := .truncatedStream, pos := pos, exp := n, fnd := lim - pos }
  else if 8 * cfg.ibufBytes < pos + n then .fault .ibufOutOfRange
  else .ok (streamBits ibuf n pos order, pos + n)

/-- BS.OPEN o (R132). -/
def execBsOpen (o : BitOrder) (s : State) : Host.Outcome State Fault Refusal :=
  let start := s.a0.toNat
  let size := s.a1.toNat
  finish s <|
    if s.cfg.ibufBytes < s.blen.toNat then
      .raised { cause := .blenTooLarge, pos := 0, exp := s.cfg.ibufBytes, fnd := s.blen.toNat }
    else if s.blen.toNat < start + size then
      .raised { cause := .window, pos := start, exp := s.blen.toNat, fnd := size }
    else .ok (s.setWindow o (8 * start) (8 * (start + size)))

/-- BS.SEEK (R133). -/
def execBsSeek (s : State) : Host.Outcome State Fault Refusal :=
  let target := s.a0.toNat
  finish s <|
    if s.blim.toNat < 8 * target then
      .raised { cause := .seek, pos := s.bpos.toNat, exp := s.blim.toNat >>> 3, fnd := target }
    else .ok (s.setBpos (8 * target))

/-- BS.READ n (R134). -/
def execBsRead (nm1 : BitVec 5) (s : State) : Host.Outcome State Fault Refusal :=
  finish s <|
    (readBits s.cfg s.ibuf (bitCount nm1) s.bpos.toNat s.blim.toNat s.order).bind fun (v, pos') =>
      .ok ((s.setRes (BitVec.ofNat 32 v)).setBpos pos')

/-- BS.PEEK n (R135): as BS.READ n, without advancing. -/
def execBsPeek (nm1 : BitVec 5) (s : State) : Host.Outcome State Fault Refusal :=
  finish s <|
    (readBits s.cfg s.ibuf (bitCount nm1) s.bpos.toNat s.blim.toNat s.order).bind fun (v, _) =>
      .ok (s.setRes (BitVec.ofNat 32 v))

/-- BS.ATEND (R136). -/
def execBsAtEnd (s : State) : Host.Outcome State Fault Refusal :=
  finish s (.ok (s.setRes (if s.bpos = s.blim then 1#32 else 0#32)))

end Sys2Proof.Machine
end

