-- ==== Sys2Proof/Machine/Huffman.lean ====
section
/-! DEFINITION. The Huffman tree builder and decoder (`41_huffman.md`): Insert, Build, Descend, and the commands
HT.CLEAR, HT.INSERT, HT.BUILD, HT.DECODE. Each helper works on the arena it is given and returns a new one, so that a
`raise` leaves no trace (R204). -/

namespace Sys2Proof.Machine

/-- The walk of Insert (R152), one code bit per step from bit `i − 1` down to bit 0: the arena with the nodes allocated
on demand, and the node the code ends at. -/
def insertWalk (nodeMax : Nat) (sym len code : Word) : Nat → List Node → Nat → Result (List Node × Nat)
  | 0, arena, k => .ok (arena, k)
  | i + 1, arena, k =>
    match arena[k]? with
    | none => .fault .nodeOutOfArena
    | some nd =>
      if nd.leaf ≠ undefinedLeaf then
        .raised { cause := .leafOnPath, pos := sym.toNat, exp := len.toNat, fnd := code.toNat }
      else
        let b := code.getLsbD i
        if nd.child b = nil32 then
          if arena.length = nodeMax then
            .raised { cause := .arenaFull, pos := sym.toNat, exp := len.toNat, fnd := code.toNat }
          else
            let m := arena.length
            insertWalk nodeMax sym len code i
              (arena.set k (nd.setChild b (BitVec.ofNat 32 m)) ++ [Node.empty]) m
        else insertWalk nodeMax sym len code i arena (nd.child b).toNat

/-- The end of Insert (R152): store the symbol in the node the code ends at. -/
def storeLeaf (sym len code : Word) (arena : List Node) (k : Nat) : Result (List Node) :=
  match arena[k]? with
  | none => .fault .nodeOutOfArena
  | some nd =>
    if nd.c0 ≠ nil32 ∨ nd.c1 ≠ nil32 then
      .raised { cause := .internalAtLeaf, pos := sym.toNat, exp := len.toNat, fnd := code.toNat }
    else if nd.leaf ≠ undefinedLeaf then
      .raised { cause := .duplicateCode, pos := sym.toNat, exp := len.toNat, fnd := code.toNat }
    else .ok (arena.set k { nd with leaf := sym })

/-- Insert (R152): add the code (len, code) for symbol `sym`. -/
def insert (cfg : Config) (sym len code : Word) (arena : List Node) : Result (List Node) :=
  if len.toNat < 1 ∨ maxBits < len.toNat then
    .raised { cause := .badLength, pos := sym.toNat, exp := len.toNat, fnd := code.toNat }
  else
    (insertWalk cfg.nodeMax sym len code len.toNat arena 0).bind fun (arena', k) =>
      storeLeaf sym len code arena' k

/-- The loop of Build (R153) from entry `i`, with `fuel` entries of the table left: the arena and the number of codes. -/
def buildLoop (cfg : Config) (ctab : Memory 32) (t : Fin 3) : Nat → Nat → List Node → Result (List Node × Nat)
  | 0, _, _ => .raised { cause := .noSentinel, pos := cfg.tabEntries, exp := 0, fnd := 0 }
  | fuel + 1, i, arena =>
    (tableEntry cfg ctab t i).bind fun (len, code) =>
      if len = 0#32 then .ok (arena, i)
      else
        (insert cfg (BitVec.ofNat 32 i) len code arena).bind fun arena' =>
          buildLoop cfg ctab t fuel (i + 1) arena'

/-- Build (R153): a new tree from table `t`, and its leaf count. -/
def build (cfg : Config) (ctab : Memory 32) (t : Fin 3) : Result (List Node × Nat) :=
  buildLoop cfg ctab t cfg.tabEntries 0 [Node.empty]

/-- The loop of Descend (R154) from node `k`, following at most `fuel` edges. -/
def descendFrom (cfg : Config) (ibuf : Memory 8) (arena : List Node) (lim : Nat) (order : BitOrder) :
    Nat → Nat → Nat → Result (Word × Nat)
  | fuel, k, pos =>
    match arena[k]? with
    | none => .fault .nodeOutOfArena
    | some nd =>
      if nd.childless then
        if nd.leaf = undefinedLeaf then .raised { cause := .undefinedLeaf, pos := pos, exp := 0, fnd := k }
        else .ok (nd.leaf, pos)
      else
        match fuel with
        | 0 => .fault .descentTooLong
        | fuel + 1 =>
          (readBits cfg ibuf 1 pos lim order).bind fun (b, pos1) =>
            let m := nd.child (b == 1)
            if m = nil32 then .raised { cause := .absentBranch, pos := pos, exp := b, fnd := k }
            else descendFrom cfg ibuf arena lim order fuel m.toNat pos1

/-- Descend (R154): decode one symbol, from the root. In a well-formed arena at most NCOUNT − 1 edges are followed
(R61), so NCOUNT of them are fuel enough. -/
def descend (cfg : Config) (ibuf : Memory 8) (arena : List Node) (pos lim : Nat) (order : BitOrder) :
    Result (Word × Nat) :=
  descendFrom cfg ibuf arena lim order arena.length 0 pos

/-- HT.CLEAR (R151). -/
def execHtClear (s : State) : Host.Outcome State Fault Refusal :=
  finish s (.ok (s.setArena [Node.empty]))

/-- HT.INSERT t, idx (R155). -/
def execHtInsert (t : Fin 3) (idx : BitVec 16) (s : State) : Host.Outcome State Fault Refusal :=
  finish s <|
    (tableEntry s.cfg s.ctab t idx.toNat).bind fun (len, code) =>
      (insert s.cfg (idx.setWidth 32) len code s.arena).bind fun arena =>
        .ok (s.setArena arena)

/-- HT.BUILD t (R156). -/
def execHtBuild (t : Fin 3) (s : State) : Host.Outcome State Fault Refusal :=
  finish s <|
    (build s.cfg s.ctab t).bind fun (arena, count) =>
      .ok ((s.setArena arena).setRes (BitVec.ofNat 32 count))

/-- HT.DECODE (R157). -/
def execHtDecode (s : State) : Host.Outcome State Fault Refusal :=
  finish s <|
    (descend s.cfg s.ibuf s.arena s.bpos.toNat s.blim.toNat s.order).bind fun (sym, pos') =>
      .ok ((s.setRes sym).setBpos pos')

end Sys2Proof.Machine
end

