-- ==== Sys2Proof/Machine/Plane.lean ====
section
/-! DEFINITION. The differential Huffman plane decoder (`42_plane.md`): Resid, PlaneChecks, PlaneBody, Commit, and the
commands PL.ADDR, PL.RESID, PL.DECODE, PL.DECODEALL. -/

namespace Sys2Proof.Machine

/-- The residual that size category `s` and its further bits `v` stand for (R171): top bit 1, `v`; top bit 0,
`v − (2^s − 1)`; category 0 is the residual 0. -/
def residualOf (s v : Nat) : Int :=
  if s = 0 then 0
  else if v.testBit (s - 1) then (v : Int)
  else (v : Int) - (2 ^ s - 1)

/-- Resid (R171): one signed residual and the position after it. -/
def resid (cfg : Config) (ibuf : Memory 8) (arena : List Node) (lim : Nat) (order : BitOrder) (pos : Nat) :
    Result (Int × Nat) :=
  (descend cfg ibuf arena pos lim order).bind fun (sym, pos1) =>
    let s := sym.toNat
    if residMaxBits < s then .raised { cause := .badSizeSymbol, pos := pos, exp := residMaxBits, fnd := s }
    else if s = 0 then .ok (0, pos1)
    else
      (readBits cfg ibuf s pos1 lim order).bind fun (v, pos2) =>
        .ok (residualOf s v, pos2)

/-- One sample of PlaneBody (R176): the predictor is the seed in columns 0 and 1 and else the sample to the left; the
sum is exact, and one outside 0 to 65535 is SAMPLE_OVERFLOW. -/
def decodeSample (residAt : Nat → Result (Int × Nat)) (seed col left pos : Nat) : Result (Nat × Nat) :=
  (residAt pos).bind fun (d, pos1) =>
    let pred := if col < 2 then seed else left
    let v : Int := pred + d
    if v < 0 ∨ (sampleMax : Int) < v then
      .raised { cause := .sampleOverflow, pos := pos, exp := pred, fnd := (u32 d).toNat }
    else .ok (v.toNat, pos1)

/-- The column loop of PlaneBody (R176): the next `n` samples of row `row` from column `col`, where `left` is the sample
at column `col − 1`. A `raise` inside has the sample context (row, col). -/
def decodeRow (residAt : Nat → Result (Int × Nat)) (seed row : Nat) : Nat → Nat → Nat → Nat → Result (List Half × Nat)
  | 0, _, _, pos => .ok ([], pos)
  | n + 1, col, left, pos =>
    ((decodeSample residAt seed col left pos).mapRaise (Raise.atSample row col)).bind fun (v, pos1) =>
      (decodeRow residAt seed row n (col + 1) v pos1).bind fun (vs, pos2) =>
        .ok (BitVec.ofNat 16 v :: vs, pos2)

/-- The row loop of PlaneBody (R176): the next `n` rows from row `row`, one run of bits without realignment. -/
def decodeRows (residAt : Nat → Result (Int × Nat)) (seed cols : Nat) :
    Nat → Nat → Nat → Result (List (List Half) × Nat)
  | 0, _, pos => .ok ([], pos)
  | n + 1, row, pos =>
    (decodeRow residAt seed row cols 0 0 pos).bind fun (r, pos1) =>
      (decodeRows residAt seed cols n (row + 1) pos1).bind fun (rs, pos2) =>
        .ok (r :: rs, pos2)

/-- What PlaneBody returns (R176): the staged samples row by row, the tree it built, and the final bit position. -/
structure PlaneOut where
  samples : List (List Half)
  arena : List Node
  pos : Nat
  deriving DecidableEq, Repr

/-- The first bit of plane `p` (R176). -/
def State.planeStart (s : State) (p : Fin 3) : Nat := 8 * s.paddr[p].toNat

/-- The bit limit of plane `p` (R176): the end of its own bytes. -/
def State.planeLimit (s : State) (p : Fin 3) : Nat := 8 * (s.paddr[p].toNat + s.psize[p].toNat)

/-- PlaneBody (R176): the seed check (R174), the tree of table `p`, then ROWS × COLS samples, MSB-first whatever
STATUS.ORDER is. A `raise` inside has the plane context `p`. -/
def planeBody (s : State) (p : Fin 3) : Result PlaneOut :=
  Result.mapRaise
    (if s.seed[p].toNat ≠ seedRequired then
      .raised { cause := .badSeed, pos := s.planeStart p, exp := seedRequired, fnd := s.seed[p].toNat }
    else
      (build s.cfg s.ctab p).bind fun (arena, _) =>
        (decodeRows (resid s.cfg s.ibuf arena (s.planeLimit p) .msb) s.seed[p].toNat s.cols.toNat
            s.rows.toNat 0 (s.planeStart p)).bind fun (samples, pos) =>
          .ok { samples := samples, arena := arena, pos := pos })
    (Raise.inPlane p)

/-- PlaneChecks (R175), in this order. -/
def planeChecks (s : State) : Result Unit :=
  if s.pavalid = false then .raised { cause := .planesNotAddressed, pos := 0, exp := 1, fnd := 0 }
  else if s.stride.toNat < 6 * s.cols.toNat then
    .raised { cause := .strideTooSmall, pos := 0, exp := 6 * s.cols.toNat, fnd := s.stride.toNat }
  else if s.cfg.obufBytes < s.rows.toNat * s.stride.toNat then
    .raised { cause := .obufOverflow, pos := 0, exp := s.cfg.obufBytes,
              fnd := min (s.rows.toNat * s.stride.toNat) (2 ^ 32 - 1) }
  else .ok ()

/-- The byte address in OBUF of the sample of plane `p` at (row, col) (R60, R178). -/
def sampleAddr (stride : Nat) (p : Fin 3) (row col : Nat) : Nat := row * stride + (3 * col + p.val) * 2

/-- The column loop of Commit (R178), from column `col`. -/
def commitRow (stride : Nat) (p : Fin 3) (row : Nat) : Nat → List Half → Memory 8 → Memory 8
  | _, [], obuf => obuf
  | col, v :: vs, obuf => commitRow stride p row (col + 1) vs (obuf.writeHalf (sampleAddr stride p row col) v)

/-- Commit (R178), from row `row`: publish the staged samples of plane `p`. It cannot raise, and by R175 every address
is inside OBUF. -/
def commitRows (stride : Nat) (p : Fin 3) : Nat → List (List Half) → Memory 8 → Memory 8
  | _, [], obuf => obuf
  | row, r :: rs, obuf => commitRows stride p (row + 1) rs (commitRow stride p row 0 r obuf)

/-- Commit(p, S) (R178). -/
def State.commit (s : State) (p : Fin 3) (samples : List (List Half)) : State :=
  s.setObuf (commitRows s.stride.toNat p 0 samples s.obuf)

/-- The end of a plane command whose last plane is `p` (R177, R179): the arena holds its tree, ORDER is 0, BLIM the end
of the plane, BPOS the position after its last bit consumed. -/
def State.endPlane (s : State) (p : Fin 3) (out : PlaneOut) : State :=
  (s.setArena out.arena).setWindow .msb out.pos (s.planeLimit p)

/-- PL.ADDR (R173). -/
def execPlAddr (s : State) : Host.Outcome State Fault Refusal :=
  let a0 := s.pbase.toNat
  let a1 := a0 + s.psize[0].toNat
  let a2 := a1 + s.psize[1].toNat
  let last := a2 + s.psize[2].toNat
  finish s <|
    if s.cfg.ibufBytes < s.blen.toNat then
      .raised { cause := .blenTooLarge, pos := 0, exp := s.cfg.ibufBytes, fnd := s.blen.toNat }
    else if s.blen.toNat < last then
      .raised { cause := .planes, pos := s.pbase.toNat, exp := s.blen.toNat, fnd := min last (2 ^ 32 - 1) }
    else .ok (s.setPaddr a0 a1 a2)

/-- PL.RESID (R172). -/
def execPlResid (s : State) : Host.Outcome State Fault Refusal :=
  finish s <|
    (resid s.cfg s.ibuf s.arena s.blim.toNat s.order s.bpos.toNat).bind fun (d, pos') =>
      .ok ((s.setRes (u32 d)).setBpos pos')

/-- PL.DECODE p (R177). -/
def execPlDecode (p : Fin 3) (s : State) : Host.Outcome State Fault Refusal :=
  finish s <|
    (planeChecks s).bind fun _ =>
      (planeBody s p).bind fun out =>
        .ok ((s.commit p out.samples).endPlane p out)

/-- PL.DECODEALL (R179): the planes in the order 0, 1, 2; nothing is published unless all three decode. -/
def execPlDecodeAll (s : State) : Host.Outcome State Fault Refusal :=
  finish s <|
    (planeChecks s).bind fun _ =>
      (planeBody s 0).bind fun out0 =>
        (planeBody s 1).bind fun out1 =>
          (planeBody s 2).bind fun out2 =>
            .ok ((((s.commit 0 out0.samples).commit 1 out1.samples).commit 2 out2.samples).endPlane 2 out2)

end Sys2Proof.Machine
end

