-- ==== Sys2Proof/Machine/Dispatch.lean ====
section
/-! DEFINITION. Execution of a decoded command (R112 step 3): one arm per constructor of `Instr`. -/

namespace Sys2Proof.Machine

/-- The effect of command `i` in state `s`, by its own rule. -/
def exec (i : Instr) (s : State) : Host.Outcome State Fault Refusal :=
  match i with
  | .nop => Sys2Proof.Machine.execNop s
  | .errAck => Sys2Proof.Machine.execErrAck s
  | .reset => Sys2Proof.Machine.execReset s
  | .bsOpen o => Sys2Proof.Machine.execBsOpen o s
  | .bsSeek => Sys2Proof.Machine.execBsSeek s
  | .bsRead nm1 => Sys2Proof.Machine.execBsRead nm1 s
  | .bsPeek nm1 => Sys2Proof.Machine.execBsPeek nm1 s
  | .bsAtEnd => Sys2Proof.Machine.execBsAtEnd s
  | .htClear => Sys2Proof.Machine.execHtClear s
  | .htInsert t idx => Sys2Proof.Machine.execHtInsert t idx s
  | .htBuild t => Sys2Proof.Machine.execHtBuild t s
  | .htDecode => Sys2Proof.Machine.execHtDecode s
  | .plAddr => Sys2Proof.Machine.execPlAddr s
  | .plResid => Sys2Proof.Machine.execPlResid s
  | .plDecode p => Sys2Proof.Machine.execPlDecode p s
  | .plDecodeAll => Sys2Proof.Machine.execPlDecodeAll s

end Sys2Proof.Machine
end

