-- ==== Sys2Proof/Machine/HostPort.lean ====
section
/-! DEFINITION. The host's side (`10_state.md` R30, R39; `20_memory.md` R83 to R88): what a read or a write of a port
does, which accesses are refused with a bus error, hardware reset, and the execution of a command word written to CMD
(`30_encoding.md` R112). -/

namespace Sys2Proof.Machine

/-- The bytes in the range of a port (R88). -/
def portBytes (cfg : Config) : Port → Nat
  | .reg => 256
  | .ibuf => cfg.ibufBytes
  | .ctab => 8 * 3 * cfg.tabEntries
  | .node => 12 * cfg.nodeMax
  | .obuf => cfg.obufBytes

/-- The access widths of a port in bytes (R83). -/
def portTakes : Port → Nat → Bool
  | .reg, width => width == 4
  | .ibuf, width => width == 1 || width == 2 || width == 4
  | .ctab, width => width == 4
  | .node, width => width == 4
  | .obuf, width => width == 1 || width == 2 || width == 4

/-- Whether the port accepts an access of `width` bytes at `addr` (R83, R84, R88): a width it takes, an address that is
a multiple of it, and every byte in range (log entry 3). -/
def accessOk (cfg : Config) (port : Port) (addr width : Nat) : Bool :=
  portTakes port width && addr % width == 0 && decide (addr + width ≤ portBytes cfg port)

/-- The value a host read of an accepted access returns, zero-extended (R38, R59, R81, R88). -/
def State.portRead (s : State) (port : Port) (addr width : Nat) : Word :=
  match port with
  | .reg => match Reg.ofOffset addr with
    | some r => s.readReg r
    | none => 0#32
  | .ibuf => BitVec.ofNat 32 (s.ibuf.readBytes addr width)
  | .ctab => s.ctab.read addr
  | .node => s.nodeWord addr
  | .obuf => BitVec.ofNat 32 (s.obuf.readBytes addr width)

/-- The error of an illegal command word (R116). -/
def illegalCommand (why : Illegal) (cw : Word) : Raise :=
  { cause := match why with
      | .unknownOpcode => .unknownOpcode
      | .reservedField => .reservedField
      | .badOperand => .badOperand
    pos := 0, exp := 0, fnd := cw.toNat }

/-- Execution of the command word `cw` (R112): in FAULTED only the words of ERR.ACK and RESET execute and any other is
dropped undecoded (R207); in NORMAL the word is decoded, and raises IllegalCommand or executes by its rule. -/
def runCommand (cw : Word) (s : State) : Host.Outcome State Fault Refusal :=
  if s.err then
    if cw = 0x01000000#32 then exec .errAck s
    else if cw = 0x02000000#32 then exec .reset s
    else .next s.dropCommand
  else
    match decode s.cfg.tabEntries cw with
    | .illegal why => .next (s.takeError (illegalCommand why cw))
    | .ok i => exec i s

/-- A host write of an accepted access (R39, R40, R81, R87); the NODE port is read-only (R83, R84). -/
def hostWrite (port : Port) (addr width : Nat) (v : Word) (s : State) : Host.Outcome State Fault Refusal :=
  match port with
  | .reg => match Reg.ofOffset addr with
    | some .cmd => runCommand v s
    | some r => .next (s.writeReg r v)
    | none => .next s
  | .ibuf => .next { s with ibuf := s.ibuf.writeBytes addr v width }
  | .ctab => .next { s with ctab := s.ctab.write addr v }
  | .node => .next (s.respond .busError)
  | .obuf => .next { s with obuf := s.obuf.writeBytes addr v width }

/-- Hardware reset (R240, R241): the registers and the arena as RESET leaves them; no bus access is answered. -/
def State.hardReset (s : State) : State := s.resetRegisters.respond .idle

/-- One action of the host in the total order of R90. `s` is the state after the action was taken off the host's list. -/
def perform (a : HostAction) (s : State) : Host.Outcome State Fault Refusal :=
  match a with
  | .read port addr width =>
    if accessOk s.cfg port addr width then .next (s.respond (.data (s.portRead port addr width)))
    else .next (s.respond .busError)
  | .write port addr width v =>
    if accessOk s.cfg port addr width then hostWrite port addr width v s
    else .next (s.respond .busError)
  | .hardReset => .next s.hardReset

/-- The command word `cw` written to CMD as the host's next action. -/
def State.issue (s : State) (cw : Word) : State := { s with host := .write .reg 0 4 cw :: s.host }

end Sys2Proof.Machine
end

