-- ==== Sys2Proof/Machine/Step.lean ====
section
/-! DEFINITION. One step of the machine: the next action in the total order of the host's accesses and commands (R90). -/

namespace Sys2Proof.Machine

/-- One step: the host's next action; with none, the unit is idle and holds its state (R216, R240). -/
def step (s : State) : Host.Outcome State Fault Refusal :=
  match s.host with
  | [] => .next s
  | a :: rest => perform a (s.accept rest)

/-- `s` with the command word `w` (of `nbits` bits) as the host's next write to CMD: the unit fetches no instructions
(R34), so the place a step takes its next command from is the host's list of actions. -/
def State.withFetchWord (s : State) (nbits w : Nat) : State := s.issue (BitVec.ofNat 32 (w % 2 ^ nbits))

end Sys2Proof.Machine
end

