-- ==== Sys2Proof/Safety.lean ====
section
/-! DEFINITION. The terms in which claims about the machine are stated: the invariant that the spec says holds between
commands (R35, R61, and the state rules that no writer breaks), and descriptions of trees, codes and plane runs that
do not mention the loops of the machine. -/

namespace Sys2Proof.Machine

/-! ### Trees (R61) -/

/-- Node `m` is the child of node `k` on bit `b`. -/
def isChild (arena : List Node) (m k : Nat) (b : Bool) : Prop :=
  ∃ nd, arena[k]? = some nd ∧ (nd.child b).toNat = m

/-- The arena is well formed: R61 (a), (b), (c), (d), (e) and (g). R61 (f) holds of trees made by HT.BUILD or a plane
command only, and is `symbolsOnce`. -/
structure ArenaWf (cfg : Config) (arena : List Node) : Prop where
  /-- (a) -/
  nonempty : 1 ≤ arena.length
  /-- (a) -/
  fits : arena.length ≤ cfg.nodeMax
  /-- (b) -/
  childRange : ∀ (k : Nat) (nd : Node) (b : Bool), arena[k]? = some nd → nd.child b ≠ nil32 →
    k < (nd.child b).toNat ∧ (nd.child b).toNat < arena.length
  /-- (c) -/
  oneParent : ∀ m, 1 ≤ m → m < arena.length →
    ∃ k b, isChild arena m k b ∧ ∀ k' b', isChild arena m k' b' → k' = k ∧ b' = b
  /-- (d) -/
  innerNoSymbol : ∀ (k : Nat) (nd : Node), arena[k]? = some nd → nd.childless = false → nd.leaf = undefinedLeaf
  /-- (e) -/
  symbolRange : ∀ (k : Nat) (nd : Node), arena[k]? = some nd → nd.leaf = undefinedLeaf ∨ nd.leaf.toNat < cfg.tabEntries
  /-- (g) -/
  leafSymbol : ∀ (k : Nat) (nd : Node), 1 ≤ k → arena[k]? = some nd → nd.childless = true → nd.leaf ≠ undefinedLeaf

/-- R61 (f): no two nodes carry the same symbol. -/
def symbolsOnce (arena : List Node) : Prop :=
  ∀ (j k : Nat) (nj nk : Node), arena[j]? = some nj → arena[k]? = some nk → nj.leaf ≠ undefinedLeaf → nj.leaf = nk.leaf → j = k

/-- The node reached from node `k` along the bits, if every child on the way exists. -/
def walk (arena : List Node) : List Bool → Nat → Option Nat
  | [], k => some k
  | b :: bs, k =>
    match arena[k]? with
    | none => none
    | some nd => if nd.child b = nil32 then none else walk arena bs (nd.child b).toNat

/-- The symbol word of the node that the path `bits` from the root ends at. -/
def symbolAt (arena : List Node) (bits : List Bool) : Option Word :=
  match walk arena bits 0 with
  | none => none
  | some k => (arena[k]?).map Node.leaf

/-- The path `bits` from the root ends at a childless node that carries `sym`. -/
def leadsTo (arena : List Node) (bits : List Bool) (sym : Word) : Prop :=
  ∃ k nd, walk arena bits 0 = some k ∧ arena[k]? = some nd ∧ nd.childless = true ∧ nd.leaf = sym ∧
    sym ≠ undefinedLeaf

/-! ### Codes and streams (R58, R130) -/

/-- The bits of a code in reading order: bit len − 1 first, bit 0 last (R58). -/
def codeBits : Nat → Word → List Bool
  | 0, _ => []
  | n + 1, code => code.getLsbD n :: codeBits n code

/-- `CTAB[t][i].len` as a number (R88). -/
def entryLen (cfg : Config) (ctab : Memory 32) (t : Fin 3) (i : Nat) : Nat :=
  (ctab.read (8 * (t.val * cfg.tabEntries + i))).toNat

/-- `CTAB[t][i].code` (R88). -/
def entryCode (cfg : Config) (ctab : Memory 32) (t : Fin 3) (i : Nat) : Word :=
  ctab.read (8 * (t.val * cfg.tabEntries + i) + 4)

/-- The code of entry `i` of table `t`, in reading order. -/
def entryBits (cfg : Config) (ctab : Memory 32) (t : Fin 3) (i : Nat) : List Bool :=
  codeBits (entryLen cfg ctab t i) (entryCode cfg ctab t i)

/-- Table `t` is a valid prefix code of `n` symbols followed by its sentinel: every length is 1 to 32, and no code is a
prefix of, or equal to, another (R159). -/
structure PrefixTable (cfg : Config) (ctab : Memory 32) (t : Fin 3) (n : Nat) : Prop where
  room : n < cfg.tabEntries
  lengths : ∀ i, i < n → 1 ≤ entryLen cfg ctab t i ∧ entryLen cfg ctab t i ≤ 32
  sentinel : entryLen cfg ctab t n = 0
  free : ∀ i j, i < n → j < n → i ≠ j → ¬ entryBits cfg ctab t i <+: entryBits cfg ctab t j

/-- The paths from the root that a tree of the first `n` codes of table `t` has to hold (R152): the empty one, and every
prefix of a code. -/
def codePaths (cfg : Config) (ctab : Memory 32) (t : Fin 3) (n : Nat) : List (List Bool) :=
  [] :: (List.range n).flatMap fun i => (entryBits cfg ctab t i).inits

/-- The number of nodes of a tree of the first `n` codes of table `t`: Insert makes one node for each path that the tree
does not hold yet (R152), so codes that begin alike share their nodes. -/
def nodesNeeded (cfg : Config) (ctab : Memory 32) (t : Fin 3) (n : Nat) : Nat := (codePaths cfg ctab t n).dedup.length

/-- The next `n` bits of the stream from `pos`, in reading order (R130). -/
def streamList (ibuf : Memory 8) (order : BitOrder) (pos n : Nat) : List Bool :=
  (List.range n).map fun i => streamBit ibuf (pos + i) order

/-- The window lies inside IBUF (R35, R137). -/
def windowInside (s : State) : Prop := s.blim.toNat ≤ 8 * s.cfg.ibufBytes

/-! ### Plane runs (R176) -/

/-- The first `n` samples of plane `p`, in row-major order: sample `j` starts at bit `pos j`, has residual `d j` and
value `v j`. The tree is the one Build makes of table `p`; the predictor of columns 0 and 1 is 512, of any other column
the sample before it. -/
structure PlaneRun (s : State) (p : Fin 3) (arena : List Node) (n : Nat) (pos : Nat → Nat) (d : Nat → Int)
    (v : Nat → Nat) : Prop where
  tree : ∃ count, build s.cfg s.ctab p = .ok (arena, count)
  start : pos 0 = 8 * s.paddr[p].toNat
  residual : ∀ j, j < n →
    resid s.cfg s.ibuf arena (8 * (s.paddr[p].toNat + s.psize[p].toNat)) .msb (pos j) = .ok (d j, pos (j + 1))
  value : ∀ j, j < n → (v j : Int) = (if j % s.cols.toNat < 2 then 512 else (v (j - 1) : Int)) + d j
  range : ∀ j, j < n → v j ≤ 65535

/-- The configuration that PlaneChecks asks for (R175). -/
def planeReady (s : State) : Prop :=
  s.pavalid = true ∧ 6 * s.cols.toNat ≤ s.stride.toNat ∧ s.rows.toNat * s.stride.toNat ≤ s.cfg.obufBytes

/-- Address `a` holds a byte of a sample of plane `p` (R178). -/
def sampleByte (s : State) (p : Fin 3) (a : Nat) : Prop :=
  ∃ row col, row < s.rows.toNat ∧ col < s.cols.toNat ∧
    (a = sampleAddr s.stride.toNat p row col ∨ a = sampleAddr s.stride.toNat p row col + 1)

/-! ### Commands and errors as the rules list them -/

/-- The host's next action writes the command word `cw` to CMD (R40). -/
def issues (s : State) (cw : Word) : Prop := s.host.head? = some (.write .reg 0 4 cw)

/-- The state after `raise` outside a plane (R204): the state before the command, but ERR and the error record. -/
def afterError (s : State) (cause sub : BitVec 8) (pos exp fnd : Nat) : State :=
  { s with
    err := true
    record :=
      { cause := cause, sub := sub, plane := 0#2, inPlane := false
        epos := BitVec.ofNat 32 pos, eexp := BitVec.ofNat 32 exp, efnd := BitVec.ofNat 32 fnd
        row := 0#16, col := 0#16 } }

/-- The state after `raise` inside PlaneBody(p) (R204); `sample` is the row and column inside the sample loops. -/
def afterPlaneError (s : State) (p : Fin 3) (sample : Option (Nat × Nat)) (cause sub : BitVec 8) (pos exp fnd : Nat) :
    State :=
  { s with
    err := true
    record :=
      { cause := cause, sub := sub, plane := BitVec.ofNat 2 p.val, inPlane := true
        epos := BitVec.ofNat 32 pos, eexp := BitVec.ofNat 32 exp, efnd := BitVec.ofNat 32 fnd
        row := match sample with | some rc => BitVec.ofNat 16 rc.1 | none => 0#16
        col := match sample with | some rc => BitVec.ofNat 16 rc.2 | none => 0#16 } }

/-- The rows of R115: opcode, match, mask. -/
def commandRows : List (BitVec 8 × Word × Word) :=
  [(0x00#8, 0x00000000#32, 0xFFFFFFFF#32), (0x01#8, 0x01000000#32, 0xFFFFFFFF#32),
   (0x02#8, 0x02000000#32, 0xFFFFFFFF#32), (0x10#8, 0x10000000#32, 0xFFFFFFFE#32),
   (0x11#8, 0x11000000#32, 0xFFFFFFFF#32), (0x12#8, 0x12000000#32, 0xFFFFFFE0#32),
   (0x13#8, 0x13000000#32, 0xFFFFFFE0#32), (0x14#8, 0x14000000#32, 0xFFFFFFFF#32),
   (0x20#8, 0x20000000#32, 0xFFFFFFFF#32), (0x21#8, 0x21000000#32, 0xFFFC0000#32),
   (0x22#8, 0x22000000#32, 0xFFFFFFFC#32), (0x23#8, 0x23000000#32, 0xFFFFFFFF#32),
   (0x30#8, 0x30000000#32, 0xFFFFFFFF#32), (0x31#8, 0x31000000#32, 0xFFFFFFFF#32),
   (0x32#8, 0x32000000#32, 0xFFFFFFFC#32), (0x33#8, 0x33000000#32, 0xFFFFFFFF#32)]

/-- The third condition of R116: the field t or p holds 3, or the field idx is at least TAB_ENTRIES. -/
def operandIllegal (tabEntries : Nat) (cw : Word) : Prop :=
  (cw.extractLsb' 24 8 = 0x21#8 ∧ (cw.extractLsb' 16 2 = 3#2 ∨ tabEntries ≤ (cw.extractLsb' 0 16).toNat)) ∨
  (cw.extractLsb' 24 8 = 0x22#8 ∧ cw.extractLsb' 0 2 = 3#2) ∨
  (cw.extractLsb' 24 8 = 0x32#8 ∧ cw.extractLsb' 0 2 = 3#2)

/-- The causes and sub-causes each command can raise (R217). -/
def mayRaise : Instr → List Cause
  | .nop => []
  | .errAck => []
  | .reset => []
  | .bsOpen _ => [.blenTooLarge, .window]
  | .bsSeek => [.seek]
  | .bsRead _ => [.truncatedStream]
  | .bsPeek _ => [.truncatedStream]
  | .bsAtEnd => []
  | .htClear => []
  | .htInsert _ _ => [.leafOnPath, .internalAtLeaf, .duplicateCode, .badLength, .arenaFull]
  | .htBuild _ => [.leafOnPath, .internalAtLeaf, .duplicateCode, .badLength, .noSentinel, .arenaFull]
  | .htDecode => [.truncatedStream, .undefinedLeaf, .absentBranch]
  | .plAddr => [.blenTooLarge, .planes]
  | .plResid => [.truncatedStream, .undefinedLeaf, .absentBranch, .badSizeSymbol]
  | .plDecode _ => planeCauses
  | .plDecodeAll => planeCauses
where
  planeCauses : List Cause :=
    [.planesNotAddressed, .strideTooSmall, .obufOverflow,
     .leafOnPath, .internalAtLeaf, .duplicateCode, .badLength, .noSentinel, .arenaFull,
     .truncatedStream, .undefinedLeaf, .absentBranch, .badSizeSymbol, .sampleOverflow, .badSeed]

/-! ### The register port as R38 lists it -/

/-- The offsets the host may write, CMD apart, with the bits each register stores (R38, R39). -/
def storedBits : Nat → Option Word
  | 0x08 => some 0x00000001#32
  | 0x20 => some 0xFFFFFFFF#32
  | 0x24 => some 0xFFFFFFFF#32
  | 0x34 => some 0xFFFFFFFF#32
  | 0x3C => some 0x0000FFFF#32
  | 0x40 => some 0x0000FFFF#32
  | 0x44 => some 0xFFFFFFFF#32
  | 0x48 => some 0xFFFFFFFF#32
  | 0x4C => some 0x0000FFFF#32
  | 0x50 => some 0x0000FFFF#32
  | 0x54 => some 0x0000FFFF#32
  | 0x58 => some 0xFFFFFFFF#32
  | 0x5C => some 0xFFFFFFFF#32
  | 0x60 => some 0xFFFFFFFF#32
  | _ => none

/-- The offsets whose writes clear PAVALID: BLEN, PBASE, PSIZE0, PSIZE1, PSIZE2 (R37). -/
def clearsPavalid (off : Nat) : Prop := off ∈ [0x34, 0x48, 0x58, 0x5C, 0x60]

/-- The reset value of the register at an offset (R38): 0, but for NCOUNT and ID. -/
def resetValue (off : Nat) : Word :=
  if off = 0x38 then 1#32 else if off = 0x70 then 0x58334601#32 else 0#32

/-! ### The invariant -/

/-- ECAUSE.CAUSE and ECAUSE.SUB hold 0 (no error since reset) or a listed pair (U11, R202). -/
def listedCause (r : ErrorRecord) : Prop :=
  (r.cause = 0#8 ∧ r.sub = 0#8) ∨ ∃ c : Cause, r.cause = c.code ∧ r.sub = c.sub

/-- What holds between commands in every state a run reaches. -/
structure Inv (s : State) : Prop where
  /-- R11 to R14. -/
  params : s.cfg.wf
  /-- R35. -/
  cursor : s.bpos.toNat ≤ s.blim.toNat
  /-- R35. -/
  limit : windowInside s
  /-- R35: BLIM is always a multiple of 8. -/
  limitByte : s.blim.toNat % 8 = 0
  /-- R61. -/
  tree : ArenaWf s.cfg s.arena
  /-- U11. -/
  cause : listedCause s.record
  /-- R43: outside a plane, PLANE is 0 and, by R45, so is ELOC. -/
  context : s.record.inPlane = false → s.record.plane = 0#2 ∧ s.record.row = 0#16 ∧ s.record.col = 0#16
  /-- R7: PLANE is a plane number. -/
  planeNumber : s.record.plane ≠ 3#2
  /-- R37: LOST is set only while ERR is 1, and cleared with it. -/
  lostInFaulted : s.lost = true → s.err = true
  /-- R204: an error that is not acknowledged has a cause. -/
  faultedCause : s.err = true → s.record.cause ≠ 0#8
  /-- R173: PAVALID says that PADDR matches the registers it was computed from, inside the input. -/
  addressed : s.pavalid = true →
    s.paddr[0].toNat = s.pbase.toNat ∧
    s.paddr[1].toNat = s.pbase.toNat + s.psize[0].toNat ∧
    s.paddr[2].toNat = s.pbase.toNat + s.psize[0].toNat + s.psize[1].toNat ∧
    s.pbase.toNat + s.psize[0].toNat + s.psize[1].toNat + s.psize[2].toNat ≤ s.blen.toNat ∧
    s.blen.toNat ≤ s.cfg.ibufBytes
  /-- The canonical form of IBUF, inside its range (R88). -/
  ibufForm : s.ibuf.wf = true ∧ ∀ c ∈ s.ibuf, c.1 < s.cfg.ibufBytes
  /-- The canonical form of CTAB: whole words, inside its range (R83, R88). -/
  ctabForm : s.ctab.wf = true ∧ ∀ c ∈ s.ctab, c.1 % 4 = 0 ∧ c.1 < 24 * s.cfg.tabEntries
  /-- The canonical form of OBUF, inside its range (R88). -/
  obufForm : s.obuf.wf = true ∧ ∀ c ∈ s.obuf, c.1 < s.cfg.obufBytes

end Sys2Proof.Machine
end

