-- ==== Sys2Proof/Certificates/Slice0/Obligations.lean ====
section
/-! DEFINITION. The statements about the unit, one definition each. Every docstring names the rule of spec/ that the
statement formalises. The command word `cw` written to CMD as the host's next action is `s.issue cw`; a step takes the
action off the host's list and answers `done` on the bus; those two fields are the model's own (log entries 2 and 7). -/

section

open Sys2Proof Sys2Proof.Machine

/-! ### Encoding and decoding -/

/-- R119: the word `match | fields` of a legal command is decoded to that command, whatever its operands. -/
def Obligations.EncodeThenDecodeGivesTheCommand : Prop :=
  ∀ (tab : Nat) (i : Instr), i.wellFormed tab = true → decode tab (encode i) = .ok i

/-- R111, R113: a word that decodes is the one word of its command, and its operands are legal: no bit is dropped. -/
def Obligations.DecodedWordIsTheEncoding : Prop :=
  ∀ (tab : Nat) (cw : Word) (i : Instr), decode tab cw = .ok i → encode i = cw ∧ i.wellFormed tab = true

/-- R116: the three conditions of an illegal word in their order, and what each raises; every other word is legal. -/
def Obligations.IllegalWordsRaiseTheFirstFailedCheck : Prop :=
  ∀ (s : State) (cw : Word), s.err = false →
    ((∀ r ∈ commandRows, cw.extractLsb' 24 8 ≠ r.1) →
      step (s.issue cw) = .next (afterError { s with bus := .done } 9#8 1#8 0 0 cw.toNat)) ∧
    (∀ r ∈ commandRows, cw.extractLsb' 24 8 = r.1 →
      (cw &&& r.2.2 ≠ r.2.1 →
        step (s.issue cw) = .next (afterError { s with bus := .done } 9#8 2#8 0 0 cw.toNat)) ∧
      (cw &&& r.2.2 = r.2.1 → operandIllegal s.cfg.tabEntries cw →
        step (s.issue cw) = .next (afterError { s with bus := .done } 9#8 3#8 0 0 cw.toNat)) ∧
      (cw &&& r.2.2 = r.2.1 → ¬ operandIllegal s.cfg.tabEntries cw →
        ∃ i, decode s.cfg.tabEntries cw = .ok i))

/-- R119, R120: words written out in the spec decode to the commands they stand for. -/
def Obligations.WrittenOutWordsDecode : Prop :=
  decode 1025 0x1200000B#32 = .ok (.bsRead 11#5) ∧
  decode 1025 0x21020005#32 = .ok (.htInsert 2 5#16) ∧
  decode 1025 0x10000001#32 = .ok (.bsOpen .lsb) ∧
  decode 1025 0x1200001F#32 = .ok (.bsRead 31#5) ∧
  decode 1025 0x32000000#32 = .ok (.plDecode 0) ∧
  decode 1025 0x00000000#32 = .ok .nop

/-- R112 step 3: in NORMAL, a step that takes a legal word off the host's list executes the decoded command. The list
and the bus answer are the model's (log entries 2, 7 and 9). -/
def Obligations.StepRunsTheDecodedCommand : Prop :=
  ∀ (s : State) (cw : Word) (i : Instr) (rest : List HostAction),
    s.err = false → s.host = .write .reg 0 4 cw :: rest → decode s.cfg.tabEntries cw = .ok i →
    step s = exec i { s with host := rest, bus := .done }

/-! ### Operating states and errors -/

/-- R207: in FAULTED a word other than those of ERR.ACK and RESET is dropped undecoded; it sets LOST and nothing else. -/
def Obligations.FaultedUnitDropsCommands : Prop :=
  ∀ (s : State) (cw : Word), s.err = true → cw ≠ 0x01000000#32 → cw ≠ 0x02000000#32 →
    step (s.issue cw) = .next { s with lost := true, bus := .done }

/-- R112 step 1: in FAULTED the words of ERR.ACK and RESET execute. -/
def Obligations.FaultedUnitExecutesAckAndReset : Prop :=
  ∀ (s : State), s.err = true →
    step (s.issue 0x01000000#32) = .next { s with err := false, lost := false, bus := .done } ∧
    step (s.issue 0x02000000#32) =
      .next { State.powerOn s.cfg s.ibuf s.ctab s.obuf s.host with bus := .done }

/-- R212, R249: a host write other than a command has the same effect in both operating states. -/
def Obligations.HostWritesWorkWhileFaulted : Prop :=
  ∀ (s t : State) (port : Port) (addr width : Nat) (v : Word) (b : Bool), ¬ (port = .reg ∧ addr = 0) →
    step { s with host := .write port addr width v :: s.host } = .next t →
    step { s with host := .write port addr width v :: s.host, err := b } = .next { t with err := b }

/-- R205: a command that fails in NORMAL changes nothing but ERR and the error record. -/
def Obligations.ErrorsChangeOnlyErrAndTheRecord : Prop :=
  ∀ (i : Instr) (s t : State), s.err = false → exec i s = .next t → t.err = true →
    t = { s with err := true, record := t.record }

/-- R204 step 2: INPLANE and PLANE say in which plane the error was raised, and ELOC is a sample of it or 0. Outside
PlaneBody they are 0. A plane command that fails on anything but its configuration (R175) failed inside PlaneBody of the
plane in PLANE: PL.DECODE in its own plane, PL.DECODEALL in the first plane whose PL.DECODE fails, with that record. A
table error or a bad seed comes before the first sample. -/
def Obligations.ErrorContextMatchesTheCommand : Prop :=
  ∀ (i : Instr) (s t : State), s.err = false → exec i s = .next t → t.err = true →
    (t.record.inPlane = false → t.record.plane = 0#2 ∧ t.record.row = 0#16 ∧ t.record.col = 0#16) ∧
    (t.record.inPlane = true → i = .plDecodeAll ∨ ∃ p, i = .plDecode p ∧ t.record.plane = BitVec.ofNat 2 p.val) ∧
    (t.record.inPlane = true → t.record.cause = 3#8 ∨ t.record.cause = 4#8 ∨ t.record.cause = 5#8) ∧
    (t.record.row ≠ 0#16 ∨ t.record.col ≠ 0#16 →
      t.record.inPlane = true ∧ t.record.row.toNat < s.rows.toNat ∧ t.record.col.toNat < s.cols.toNat) ∧
    (i = .plDecodeAll ∨ (∃ p, i = .plDecode p) → t.record.cause ≠ 10#8 → t.record.inPlane = true) ∧
    (i = .plDecodeAll → t.record.inPlane = true →
      ∃ p : Fin 3, t.record.plane = BitVec.ofNat 2 p.val ∧
        (∃ u, exec (.plDecode p) s = .next u ∧ u.err = true ∧ u.record = t.record) ∧
        ∀ q : Fin 3, q < p → ∃ u, exec (.plDecode q) s = .next u ∧ u.err = false) ∧
    (t.record.inPlane = true → t.record.cause = 4#8 ∨ (t.record.cause = 5#8 ∧ t.record.sub = 5#8) →
      t.record.row = 0#16 ∧ t.record.col = 0#16)

/-- R217: which command can raise which cause and sub-cause. -/
def Obligations.CommandsRaiseOnlyTheirCauses : Prop :=
  ∀ (i : Instr) (s t : State), s.err = false → exec i s = .next t → t.err = true →
    ∃ c ∈ mayRaise i, t.record.cause = c.code ∧ t.record.sub = c.sub

/-- R37: what sets and what clears each of the four flags, over every step of the machine. -/
def Obligations.FlagsChangeOnlyAsListed : Prop :=
  ∀ (s t : State), step s = .next t →
    (s.err = false → t.err = true → ∃ cw, issues s cw) ∧
    (s.err = true → t.err = false →
      issues s 0x01000000#32 ∨ issues s 0x02000000#32 ∨ s.host.head? = some .hardReset) ∧
    (s.lost = false → t.lost = true →
      s.err = true ∧ ∃ cw, issues s cw ∧ cw ≠ 0x01000000#32 ∧ cw ≠ 0x02000000#32) ∧
    (s.lost = true → t.lost = false →
      issues s 0x01000000#32 ∨ issues s 0x02000000#32 ∨ s.host.head? = some .hardReset) ∧
    (s.pavalid = false → t.pavalid = true → issues s 0x30000000#32) ∧
    (s.pavalid = true → t.pavalid = false →
      (∃ off v, s.host.head? = some (.write .reg off 4 v) ∧ clearsPavalid off) ∨
      issues s 0x02000000#32 ∨ s.host.head? = some .hardReset) ∧
    (s.order = .msb → t.order = .lsb → issues s 0x10000001#32) ∧
    (s.order = .lsb → t.order = .msb →
      issues s 0x10000000#32 ∨ issues s 0x32000000#32 ∨ issues s 0x32000001#32 ∨ issues s 0x32000002#32 ∨
      issues s 0x33000000#32 ∨ issues s 0x02000000#32 ∨ s.host.head? = some .hardReset)

/-- R43, R44, R45: the error record is written only by `raise`, RESET and hardware reset. -/
def Obligations.ErrorRecordChangesOnlyByRaiseOrReset : Prop :=
  ∀ (s t : State), step s = .next t → t.record ≠ s.record →
    (s.err = false ∧ t.err = true ∧ ∃ cw, issues s cw) ∨
    (t.record = .zero ∧ (issues s 0x02000000#32 ∨ s.host.head? = some .hardReset))

/-- R208, R191: ERR.ACK, the return from an error, clears ERR and LOST and nothing else. -/
def Obligations.ErrAckClearsErrAndLost : Prop :=
  encode .errAck = 0x01000000#32 ∧ ∀ s : State, exec .errAck s = .next { s with err := false, lost := false }

/-- R209: irq is ERR and EIE at all times; EIE enables and masks it; ERR.ACK, RESET and hardware reset clear it. -/
def Obligations.InterruptIsErrAndEnable : Prop :=
  ∀ s : State,
    s.irq = (s.status.getLsbD 0 && s.ctrl.getLsbD 0) ∧
    (∃ t, step { s with host := .write .reg 8 4 1#32 :: s.host } = .next t ∧ t.irq = s.err) ∧
    (∃ t, step { s with host := .write .reg 8 4 0#32 :: s.host } = .next t ∧ t.irq = false) ∧
    (∃ t, exec .errAck s = .next t ∧ t.irq = false) ∧
    (∃ t, exec .reset s = .next t ∧ t.irq = false) ∧
    (∃ t, step { s with host := .hardReset :: s.host } = .next t ∧ t.irq = false)

/-! ### Reset -/

/-- R192: RESET puts every register and the arena at the reset value, and changes no other memory. The host's list and
the bus answer are the model's own fields. -/
def Obligations.ResetRestoresTheResetState : Prop :=
  encode .reset = 0x02000000#32 ∧
  ∀ s : State, ∃ t, exec .reset s = .next t ∧
    (∀ off, off % 4 = 0 → off < 256 → t.portRead .reg off 4 = resetValue off) ∧
    t.arena = [Node.empty] ∧ t.ibuf = s.ibuf ∧ t.ctab = s.ctab ∧ t.obuf = s.obuf ∧
    t.cfg = s.cfg ∧ t.host = s.host ∧ t.bus = s.bus

/-- R70: after power-on every register reads its reset value, the tree is empty, the unit is in NORMAL and the interrupt
output is 0, whatever the memories hold. -/
def Obligations.PowerOnRegistersReadTheirResetValues : Prop :=
  ∀ (cfg : Config) (ibuf : Memory 8) (ctab : Memory 32) (obuf : Memory 8) (host : List HostAction),
    (∀ off, off % 4 = 0 → off < 256 →
      (State.powerOn cfg ibuf ctab obuf host).portRead .reg off 4 = resetValue off) ∧
    (∀ w ∈ [0, 4, 8], (State.powerOn cfg ibuf ctab obuf host).portRead .node w 4 = 0xFFFFFFFF#32) ∧
    (State.powerOn cfg ibuf ctab obuf host).arena = [{ c0 := 0xFFFFFFFF#32, c1 := 0xFFFFFFFF#32, leaf := 0xFFFFFFFF#32 }] ∧
    (State.powerOn cfg ibuf ctab obuf host).err = false ∧
    (State.powerOn cfg ibuf ctab obuf host).irq = false

/-- R240: hardware reset has the effect of the RESET command on every register and on the arena, and neither changes
IBUF, CTAB or OBUF. That the host's list stays and the bus is idle is the model's choice (log entries 7 and 10). -/
def Obligations.HardwareResetActsAsReset : Prop :=
  ∀ s : State, ∃ t, exec .reset s = .next t ∧
    step { s with host := .hardReset :: s.host } = .next { t with bus := .idle } ∧
    t.ibuf = s.ibuf ∧ t.ctab = s.ctab ∧ t.obuf = s.obuf

/-! ### The host's ports -/

/-- R39: a write stores the named bits of a writable register and changes nothing else but PAVALID, a write to any other
offset but CMD is ignored, reserved offsets and CMD read 0, and a read changes nothing, in both operating states. -/
def Obligations.RegisterPortStoresTheNamedBits : Prop :=
  ∀ (s : State) (off : Nat) (v : Word), off % 4 = 0 → off < 256 →
    (∀ m, storedBits off = some m →
      ∃ t, step { s with host := .write .reg off 4 v :: s.host } = .next t ∧
        t.portRead .reg off 4 = v &&& m ∧
        (∀ off', off' ≠ off → off' ≠ 4 → t.portRead .reg off' 4 = s.portRead .reg off' 4) ∧
        (clearsPavalid off → t.portRead .reg 4 4 = s.portRead .reg 4 4 &&& 0xFFFFFFFB#32) ∧
        (¬ clearsPavalid off → t.portRead .reg 4 4 = s.portRead .reg 4 4) ∧
        t.cfg = s.cfg ∧ t.ibuf = s.ibuf ∧ t.ctab = s.ctab ∧ t.arena = s.arena ∧ t.obuf = s.obuf ∧ t.host = s.host) ∧
    (storedBits off = none → off ≠ 0 →
      step { s with host := .write .reg off 4 v :: s.host } = .next { s with bus := .done }) ∧
    (off = 0 ∨ 0x74 ≤ off → s.portRead .reg off 4 = 0#32) ∧
    step { s with host := .read .reg off 4 :: s.host } = .next { s with bus := .data (s.portRead .reg off 4) }

/-- R38, with R41 to R45, R49, R50: which register each offset of the REG port is. A host write of a writable offset sets
that register of State, its low bits where it is narrower, and clears PAVALID where R37 says so; a host read of an offset
answers that register. CMD reads 0; what a write to it does is the statements about commands. -/
def Obligations.RegisterOffsetsNameTheirRegisters : Prop :=
  ∀ (s : State) (v : Word),
    (∀ r ∈ ([
        (0x08, { s with eie := v.getLsbD 0 }),
        (0x20, { s with a0 := v }),
        (0x24, { s with a1 := v }),
        (0x34, { s with blen := v, pavalid := false }),
        (0x3C, { s with cols := v.setWidth 16 }),
        (0x40, { s with rows := v.setWidth 16 }),
        (0x44, { s with stride := v }),
        (0x48, { s with pbase := v, pavalid := false }),
        (0x4C, { s with seed := s.seed.set 0 (v.setWidth 16) }),
        (0x50, { s with seed := s.seed.set 1 (v.setWidth 16) }),
        (0x54, { s with seed := s.seed.set 2 (v.setWidth 16) }),
        (0x58, { s with psize := s.psize.set 0 v, pavalid := false }),
        (0x5C, { s with psize := s.psize.set 1 v, pavalid := false }),
        (0x60, { s with psize := s.psize.set 2 v, pavalid := false })] : List (Nat × State)),
      step { s with host := .write .reg r.1 4 v :: s.host } = .next { r.2 with bus := .done }) ∧
    ∀ r ∈ ([
        (0x00, 0#32),
        (0x04, 0#28 ++ BitVec.ofBool (decide (s.order = .lsb)) ++ BitVec.ofBool s.pavalid ++ BitVec.ofBool s.lost ++
          BitVec.ofBool s.err),
        (0x08, 0#31 ++ BitVec.ofBool s.eie),
        (0x0C, 0#13 ++ BitVec.ofBool s.record.inPlane ++ s.record.plane ++ s.record.sub ++ s.record.cause),
        (0x10, s.record.epos),
        (0x14, s.record.eexp),
        (0x18, s.record.efnd),
        (0x1C, s.record.row ++ s.record.col),
        (0x20, s.a0),
        (0x24, s.a1),
        (0x28, s.res),
        (0x2C, s.bpos),
        (0x30, s.blim),
        (0x34, s.blen),
        (0x38, BitVec.ofNat 32 s.arena.length),
        (0x3C, s.cols.setWidth 32),
        (0x40, s.rows.setWidth 32),
        (0x44, s.stride),
        (0x48, s.pbase),
        (0x4C, s.seed[0].setWidth 32),
        (0x50, s.seed[1].setWidth 32),
        (0x54, s.seed[2].setWidth 32),
        (0x58, s.psize[0]),
        (0x5C, s.psize[1]),
        (0x60, s.psize[2]),
        (0x64, s.paddr[0]),
        (0x68, s.paddr[1]),
        (0x6C, s.paddr[2]),
        (0x70, 0x58334601#32)] : List (Nat × Word)),
      step { s with host := .read .reg r.1 4 :: s.host } = .next { s with bus := .data r.2 }

/-- R84: an access that is misaligned, of a width the port does not take, out of the port's range, or a write to NODE,
gets a bus error and changes nothing. That an access is out of range when any byte of it is, is the model's choice (log
entry 3), as is the field that holds the answer (log entry 7). -/
def Obligations.BadAccessesGetABusError : Prop :=
  ∀ (s : State) (port : Port) (addr width : Nat) (v : Word),
    (width ∉ (if port = .ibuf ∨ port = .obuf then [1, 2, 4] else [4]) ∨ addr % width ≠ 0 ∨
      (match port with
        | .reg => 256
        | .ibuf => s.cfg.ibufBytes
        | .ctab => 8 * 3 * s.cfg.tabEntries
        | .node => 12 * s.cfg.nodeMax
        | .obuf => s.cfg.obufBytes) < addr + width →
      step { s with host := .read port addr width :: s.host } = .next { s with bus := .busError } ∧
      step { s with host := .write port addr width v :: s.host } = .next { s with bus := .busError }) ∧
    step { s with host := .write .node addr width v :: s.host } = .next { s with bus := .busError }

/-- R81 (b), R83: a host write of 1, 2 or 4 bytes to IBUF or OBUF stores the value least significant byte first, changes
no other byte, and is read back the same way. -/
def Obligations.HostBytesAreLittleEndian : Prop :=
  ∀ (s : State) (addr width : Nat) (v : Word), width ∈ [1, 2, 4] → addr % width = 0 →
    (addr + width ≤ s.cfg.ibufBytes → s.ibuf.wf = true →
      ∃ m : Memory 8, m.wf = true ∧
        step { s with host := .write .ibuf addr width v :: s.host } = .next { s with ibuf := m, bus := .done } ∧
        (∀ i, i < width → m.read (addr + i) = v.extractLsb' (8 * i) 8) ∧
        (∀ a, a < addr ∨ addr + width ≤ a → m.read a = s.ibuf.read a) ∧
        step { s with host := .read .ibuf addr width :: s.host, ibuf := m } =
          .next { s with ibuf := m, bus := .data (BitVec.ofNat 32 (v.toNat % 2 ^ (8 * width))) }) ∧
    (addr + width ≤ s.cfg.obufBytes → s.obuf.wf = true →
      ∃ m : Memory 8, m.wf = true ∧
        step { s with host := .write .obuf addr width v :: s.host } = .next { s with obuf := m, bus := .done } ∧
        (∀ i, i < width → m.read (addr + i) = v.extractLsb' (8 * i) 8) ∧
        (∀ a, a < addr ∨ addr + width ≤ a → m.read a = s.obuf.read a) ∧
        step { s with host := .read .obuf addr width :: s.host, obuf := m } =
          .next { s with obuf := m, bus := .data (BitVec.ofNat 32 (v.toNat % 2 ^ (8 * width))) })

/-- R88, R58: the words of entry `i` of table `t` are at byte offsets `8 × (t × TAB_ENTRIES + i)` and 4 above: a host
read there answers the len and the code, and a host write of one changes that word and no other. -/
def Obligations.CodeTableWordsLieAtTheirOffsets : Prop :=
  ∀ (s : State) (t : Fin 3) (i : Nat) (v : Word), i < s.cfg.tabEntries →
    step { s with host := .read .ctab (8 * (t.val * s.cfg.tabEntries + i)) 4 :: s.host } =
      .next { s with bus := .data (BitVec.ofNat 32 (entryLen s.cfg s.ctab t i)) } ∧
    step { s with host := .read .ctab (8 * (t.val * s.cfg.tabEntries + i) + 4) 4 :: s.host } =
      .next { s with bus := .data (entryCode s.cfg s.ctab t i) } ∧
    (s.ctab.wf = true → ∃ m : Memory 32, m.wf = true ∧
      step { s with host := .write .ctab (8 * (t.val * s.cfg.tabEntries + i)) 4 v :: s.host } =
        .next { s with ctab := m, bus := .done } ∧
      entryLen s.cfg m t i = v.toNat ∧
      (∀ t' j, j < s.cfg.tabEntries → entryCode s.cfg m t' j = entryCode s.cfg s.ctab t' j) ∧
      (∀ t' j, j < s.cfg.tabEntries → (t', j) ≠ (t, i) → entryLen s.cfg m t' j = entryLen s.cfg s.ctab t' j)) ∧
    (s.ctab.wf = true → ∃ m : Memory 32, m.wf = true ∧
      step { s with host := .write .ctab (8 * (t.val * s.cfg.tabEntries + i) + 4) 4 v :: s.host } =
        .next { s with ctab := m, bus := .done } ∧
      entryCode s.cfg m t i = v ∧
      (∀ t' j, j < s.cfg.tabEntries → entryLen s.cfg m t' j = entryLen s.cfg s.ctab t' j) ∧
      (∀ t' j, j < s.cfg.tabEntries → (t', j) ≠ (t, i) → entryCode s.cfg m t' j = entryCode s.cfg s.ctab t' j))

/-- R59, R88: the NODE port shows node `k` at byte offset `12 × k`; a node that is not in use reads 0xFFFFFFFF. -/
def Obligations.NodePortShowsTheArena : Prop :=
  ∀ (s : State) (k : Nat), k < s.cfg.nodeMax →
    (∀ nd, s.arena[k]? = some nd →
      step { s with host := .read .node (12 * k) 4 :: s.host } = .next { s with bus := .data nd.c0 } ∧
      step { s with host := .read .node (12 * k + 4) 4 :: s.host } = .next { s with bus := .data nd.c1 } ∧
      step { s with host := .read .node (12 * k + 8) 4 :: s.host } = .next { s with bus := .data nd.leaf }) ∧
    (s.arena.length ≤ k → ∀ w ∈ [0, 4, 8],
      step { s with host := .read .node (12 * k + w) 4 :: s.host } = .next { s with bus := .data 0xFFFFFFFF#32 })

/-- R90, R216: the host's actions are performed one a step in the order it issues them, and an idle unit holds its
state. The list that holds them is the model's choice (log entry 2). -/
def Obligations.HostActionsRunInOrder : Prop :=
  (∀ (s t : State) (a : HostAction) (rest : List HostAction), s.host = a :: rest → step s = .next t → t.host = rest) ∧
  ∀ s : State, s.host = [] → step s = .next s

/-- The frame of every command, for every next state of `exec`: what R32 (A0, A1, RES), R36 (the cursor), R37 (flags),
R42, R43, R49, R50 to R56 (the host's registers), R57, R58 and R60 (memories) say no other command writes. -/
def Obligations.CommandsWriteOnlyTheirOwnState : Prop :=
  ∀ (i : Instr) (s t : State), exec i s = .next t →
    (t.cfg = s.cfg ∧ t.ibuf = s.ibuf ∧ t.ctab = s.ctab ∧ t.host = s.host ∧ t.bus = s.bus) ∧
    (i ≠ .reset →
      t.eie = s.eie ∧ t.a0 = s.a0 ∧ t.a1 = s.a1 ∧ t.blen = s.blen ∧ t.cols = s.cols ∧ t.rows = s.rows ∧
      t.stride = s.stride ∧ t.pbase = s.pbase ∧ t.seed = s.seed ∧ t.psize = s.psize) ∧
    (i ≠ .reset → i ≠ .plAddr → t.pavalid = s.pavalid ∧ t.paddr = s.paddr) ∧
    (i ≠ .reset → i ≠ .errAck → t.lost = s.lost ∧ (s.err = true → t.err = true)) ∧
    (i ≠ .reset → t.record ≠ s.record → t.err = true) ∧
    ((∀ n, i ≠ .bsRead n) → (∀ n, i ≠ .bsPeek n) → i ≠ .bsAtEnd → (∀ k, i ≠ .htBuild k) → i ≠ .htDecode →
      i ≠ .plResid → i ≠ .reset → t.res = s.res) ∧
    ((∀ o, i ≠ .bsOpen o) → i ≠ .bsSeek → (∀ n, i ≠ .bsRead n) → i ≠ .htDecode → i ≠ .plResid →
      (∀ p, i ≠ .plDecode p) → i ≠ .plDecodeAll → i ≠ .reset → t.bpos = s.bpos) ∧
    ((∀ o, i ≠ .bsOpen o) → (∀ p, i ≠ .plDecode p) → i ≠ .plDecodeAll → i ≠ .reset →
      t.blim = s.blim ∧ t.order = s.order) ∧
    (i ≠ .htClear → (∀ k n, i ≠ .htInsert k n) → (∀ k, i ≠ .htBuild k) → (∀ p, i ≠ .plDecode p) →
      i ≠ .plDecodeAll → i ≠ .reset → t.arena = s.arena) ∧
    (∀ a, (∀ p, i = .plDecode p ∨ i = .plDecodeAll → ¬ sampleByte s p a) → t.obuf.read a = s.obuf.read a) ∧
    ((∀ p, i ≠ .plDecode p) → i ≠ .plDecodeAll → t.obuf = s.obuf)

/-! ### Control and bitstream commands -/

/-- R190: NOP changes nothing. -/
def Obligations.NopChangesNothing : Prop :=
  encode .nop = 0x00000000#32 ∧ ∀ s : State, exec .nop s = .next s

/-- R132: BS.OPEN checks BLEN against the capacity, then the window against BLEN, with exact sums; it sets ORDER, BPOS
and BLIM and nothing else, or raises. -/
def Obligations.BsOpenSetsTheWindowOrRaises : Prop :=
  ∀ (s : State) (o : BitOrder),
    encode (.bsOpen o) = 0x10000000#32 ||| (match o with | .msb => 0#32 | .lsb => 1#32) ∧
    (s.cfg.ibufBytes < s.blen.toNat →
      exec (.bsOpen o) s = .next (afterError s 10#8 1#8 0 s.cfg.ibufBytes s.blen.toNat)) ∧
    (s.blen.toNat ≤ s.cfg.ibufBytes → s.blen.toNat < s.a0.toNat + s.a1.toNat →
      exec (.bsOpen o) s = .next (afterError s 6#8 1#8 s.a0.toNat s.blen.toNat s.a1.toNat)) ∧
    (s.blen.toNat ≤ s.cfg.ibufBytes → s.a0.toNat + s.a1.toNat ≤ s.blen.toNat →
      ∃ pos lim : Word, exec (.bsOpen o) s = .next { s with order := o, bpos := pos, blim := lim } ∧
        (s.cfg.wf → pos.toNat = 8 * s.a0.toNat ∧ lim.toNat = 8 * (s.a0.toNat + s.a1.toNat)))

/-- R133: BS.SEEK moves BPOS to byte A0 if that is not beyond BLIM, and writes nothing else; or it raises. -/
def Obligations.BsSeekMovesTheCursorOrRaises : Prop :=
  encode .bsSeek = 0x11000000#32 ∧
  ∀ s : State,
    (s.blim.toNat < 8 * s.a0.toNat →
      exec .bsSeek s = .next (afterError s 6#8 2#8 s.bpos.toNat (s.blim.toNat / 8) s.a0.toNat)) ∧
    (8 * s.a0.toNat ≤ s.blim.toNat →
      ∃ pos : Word, exec .bsSeek s = .next { s with bpos := pos } ∧ pos.toNat = 8 * s.a0.toNat)

/-- R134 with R130 and R131: BS.READ n gives RES the next n stream bits, the first read most significant MSB-first and
least significant LSB-first, zero-extended, and advances BPOS by n; with fewer than n bits left it raises. -/
def Obligations.BsReadReturnsTheStreamBits : Prop :=
  ∀ (s : State) (nm1 : BitVec 5), windowInside s → s.bpos.toNat ≤ s.blim.toNat →
    encode (.bsRead nm1) = 0x12000000#32 ||| nm1.setWidth 32 ∧
    (s.bpos.toNat + (nm1.toNat + 1) ≤ s.blim.toNat →
      ∃ v pos : Word, exec (.bsRead nm1) s = .next { s with res := v, bpos := pos } ∧
        pos.toNat = s.bpos.toNat + (nm1.toNat + 1) ∧
        (∀ i, nm1.toNat < i → v.getLsbD i = false) ∧
        (s.order = .msb → ∀ i, i ≤ nm1.toNat →
          v.getLsbD (nm1.toNat - i) = (s.ibuf.read ((s.bpos.toNat + i) / 8)).getLsbD (7 - (s.bpos.toNat + i) % 8)) ∧
        (s.order = .lsb → ∀ i, i ≤ nm1.toNat →
          v.getLsbD i = (s.ibuf.read ((s.bpos.toNat + i) / 8)).getLsbD ((s.bpos.toNat + i) % 8))) ∧
    (s.blim.toNat < s.bpos.toNat + (nm1.toNat + 1) →
      exec (.bsRead nm1) s =
        .next (afterError s 3#8 0#8 s.bpos.toNat (nm1.toNat + 1) (s.blim.toNat - s.bpos.toNat)))

/-- R135: BS.PEEK n gives the RES that BS.READ n gives, and raises where it raises, but leaves BPOS. -/
def Obligations.BsPeekReadsWithoutAdvancing : Prop :=
  ∀ (s : State) (nm1 : BitVec 5), windowInside s → s.bpos.toNat ≤ s.blim.toNat →
    encode (.bsPeek nm1) = 0x13000000#32 ||| nm1.setWidth 32 ∧
    (s.bpos.toNat + (nm1.toNat + 1) ≤ s.blim.toNat →
      ∃ v : Word, exec (.bsPeek nm1) s = .next { s with res := v } ∧
        (∀ i, nm1.toNat < i → v.getLsbD i = false) ∧
        (s.order = .msb → ∀ i, i ≤ nm1.toNat →
          v.getLsbD (nm1.toNat - i) = (s.ibuf.read ((s.bpos.toNat + i) / 8)).getLsbD (7 - (s.bpos.toNat + i) % 8)) ∧
        (s.order = .lsb → ∀ i, i ≤ nm1.toNat →
          v.getLsbD i = (s.ibuf.read ((s.bpos.toNat + i) / 8)).getLsbD ((s.bpos.toNat + i) % 8)) ∧
        ∃ t : State, exec (.bsRead nm1) s = .next t ∧ t.res = v) ∧
    (s.blim.toNat < s.bpos.toNat + (nm1.toNat + 1) →
      exec (.bsPeek nm1) s =
        .next (afterError s 3#8 0#8 s.bpos.toNat (nm1.toNat + 1) (s.blim.toNat - s.bpos.toNat)))

/-- R136: BS.ATEND gives RES 1 at the end of the window and 0 elsewhere. -/
def Obligations.BsAtEndComparesTheCursor : Prop :=
  encode .bsAtEnd = 0x14000000#32 ∧
  ∀ s : State,
    (s.bpos = s.blim → exec .bsAtEnd s = .next { s with res := 1#32 }) ∧
    (s.bpos ≠ s.blim → exec .bsAtEnd s = .next { s with res := 0#32 })

/-- R80, R131: two reads in a row give the two parts of one read: MSB-first the first part is the upper one, LSB-first
the lower one. -/
def Obligations.ConsecutiveReadsAreOneRead : Prop :=
  ∀ (s t u : State) (m n k : BitVec 5), windowInside s → s.err = false → k.toNat + 1 = (m.toNat + 1) + (n.toNat + 1) →
    exec (.bsRead m) s = .next t → t.err = false → exec (.bsRead n) t = .next u → u.err = false →
    ∃ v : Word, exec (.bsRead k) s = .next { s with res := v, bpos := u.bpos } ∧
      (s.order = .msb → v.toNat = t.res.toNat * 2 ^ (n.toNat + 1) + u.res.toNat) ∧
      (s.order = .lsb → v.toNat = t.res.toNat + u.res.toNat * 2 ^ (m.toNat + 1))

/-! ### Huffman commands -/

/-- R151: HT.CLEAR leaves the empty tree and changes nothing else. -/
def Obligations.HtClearEmptiesTheTree : Prop :=
  encode .htClear = 0x20000000#32 ∧
  ∀ s : State, ∃ t, exec .htClear s = .next t ∧
    t = { s with arena := [{ c0 := 0xFFFFFFFF#32, c1 := 0xFFFFFFFF#32, leaf := 0xFFFFFFFF#32 }] } ∧
    t.ncount = 1#32

/-- R152, R155: HT.INSERT on a legal length whose path leaves the tree after `d` bits at a node that carries no symbol,
with room for the `len − d` missing nodes: they take the next free indices in path order, every old path stays, and the
codes of the tree are the old ones and this one. Nothing but the arena changes. -/
def Obligations.HtInsertAddsItsCode : Prop :=
  ∀ (s : State) (t : Fin 3) (idx : BitVec 16) (d : Nat),
    s.cfg.wf → ArenaWf s.cfg s.arena → idx.toNat < s.cfg.tabEntries →
    entryLen s.cfg s.ctab t idx.toNat ≤ 32 → d < entryLen s.cfg s.ctab t idx.toNat →
    (∃ k, walk s.arena ((entryBits s.cfg s.ctab t idx.toNat).take d) 0 = some k) →
    walk s.arena ((entryBits s.cfg s.ctab t idx.toNat).take (d + 1)) 0 = none →
    (∀ w, ¬ leadsTo s.arena ((entryBits s.cfg s.ctab t idx.toNat).take d) w) →
    s.arena.length + (entryLen s.cfg s.ctab t idx.toNat - d) ≤ s.cfg.nodeMax →
    encode (.htInsert t idx) = 0x21000000#32 ||| (BitVec.ofNat 32 t.val <<< 16) ||| idx.setWidth 32 ∧
    ∃ arena : List Node, exec (.htInsert t idx) s = .next { s with arena := arena } ∧
      ArenaWf s.cfg arena ∧
      arena.length = s.arena.length + (entryLen s.cfg s.ctab t idx.toNat - d) ∧
      (∀ bs k, walk s.arena bs 0 = some k → walk arena bs 0 = some k) ∧
      (∀ j, d < j → j ≤ entryLen s.cfg s.ctab t idx.toNat →
        walk arena ((entryBits s.cfg s.ctab t idx.toNat).take j) 0 = some (s.arena.length + (j - d - 1))) ∧
      (∀ bs w, leadsTo arena bs w ↔
        leadsTo s.arena bs w ∨ (bs = entryBits s.cfg s.ctab t idx.toNat ∧ w = idx.setWidth 32))

/-- R152, R203: the five errors of HT.INSERT, each with the entry's index, length and code in the record. -/
def Obligations.HtInsertRaisesEachTableError : Prop :=
  ∀ (s : State) (t : Fin 3) (idx : BitVec 16), s.cfg.wf → ArenaWf s.cfg s.arena → idx.toNat < s.cfg.tabEntries →
    (entryLen s.cfg s.ctab t idx.toNat < 1 ∨ 32 < entryLen s.cfg s.ctab t idx.toNat →
      exec (.htInsert t idx) s = .next (afterError s 4#8 4#8 idx.toNat (entryLen s.cfg s.ctab t idx.toNat)
        (entryCode s.cfg s.ctab t idx.toNat).toNat)) ∧
    (1 ≤ entryLen s.cfg s.ctab t idx.toNat → entryLen s.cfg s.ctab t idx.toNat ≤ 32 →
      (∀ j w, j < entryLen s.cfg s.ctab t idx.toNat →
        leadsTo s.arena ((entryBits s.cfg s.ctab t idx.toNat).take j) w →
        exec (.htInsert t idx) s = .next (afterError s 4#8 1#8 idx.toNat (entryLen s.cfg s.ctab t idx.toNat)
          (entryCode s.cfg s.ctab t idx.toNat).toNat)) ∧
      (∀ k nd, walk s.arena (entryBits s.cfg s.ctab t idx.toNat) 0 = some k → s.arena[k]? = some nd →
        nd.childless = false →
        exec (.htInsert t idx) s = .next (afterError s 4#8 2#8 idx.toNat (entryLen s.cfg s.ctab t idx.toNat)
          (entryCode s.cfg s.ctab t idx.toNat).toNat)) ∧
      (∀ w, leadsTo s.arena (entryBits s.cfg s.ctab t idx.toNat) w →
        exec (.htInsert t idx) s = .next (afterError s 4#8 3#8 idx.toNat (entryLen s.cfg s.ctab t idx.toNat)
          (entryCode s.cfg s.ctab t idx.toNat).toNat)) ∧
      (∀ d, d < entryLen s.cfg s.ctab t idx.toNat →
        (∃ k, walk s.arena ((entryBits s.cfg s.ctab t idx.toNat).take d) 0 = some k) →
        walk s.arena ((entryBits s.cfg s.ctab t idx.toNat).take (d + 1)) 0 = none →
        (∀ w, ¬ leadsTo s.arena ((entryBits s.cfg s.ctab t idx.toNat).take d) w) →
        s.cfg.nodeMax < s.arena.length + (entryLen s.cfg s.ctab t idx.toNat - d) →
        exec (.htInsert t idx) s = .next (afterError s 4#8 6#8 idx.toNat (entryLen s.cfg s.ctab t idx.toNat)
          (entryCode s.cfg s.ctab t idx.toNat).toNat)))

/-- R153, R156: on a valid prefix code of `n` symbols whose nodes fit the arena, HT.BUILD replaces the tree, whatever it was,
by one whose codes are exactly the table's, each symbol once, and RES is `n`. Nothing else changes. -/
def Obligations.HtBuildCompletesOnPrefixTables : Prop :=
  ∀ (s : State) (t : Fin 3) (n : Nat), s.cfg.wf → PrefixTable s.cfg s.ctab t n →
    nodesNeeded s.cfg s.ctab t n ≤ s.cfg.nodeMax →
    encode (.htBuild t) = 0x22000000#32 ||| BitVec.ofNat 32 t.val ∧
    ∃ arena : List Node, exec (.htBuild t) s = .next { s with arena := arena, res := BitVec.ofNat 32 n } ∧
      ArenaWf s.cfg arena ∧ symbolsOnce arena ∧
      ∀ bs w, leadsTo arena bs w ↔ ∃ i, i < n ∧ bs = entryBits s.cfg s.ctab t i ∧ w = BitVec.ofNat 32 i

/-- R159: a table that HT.BUILD accepts is a prefix code: lengths 1 to 32, no code a prefix of another or equal to it,
and RES is the number of its codes. -/
def Obligations.HtBuildAcceptsOnlyPrefixTables : Prop :=
  ∀ (s u : State) (t : Fin 3), s.cfg.wf → s.err = false → exec (.htBuild t) s = .next u → u.err = false →
    PrefixTable s.cfg s.ctab t u.res.toNat ∧ ArenaWf s.cfg u.arena ∧ symbolsOnce u.arena ∧
    u.arena.length ≤ 1 + 32 * u.res.toNat ∧ u = { s with arena := u.arena, res := u.res }

/-- R153, R156: a table of TAB_ENTRIES prefix-free codes without a sentinel, whose nodes fit the arena, raises
NO_SENTINEL, and the old tree stays. -/
def Obligations.HtBuildNeedsASentinel : Prop :=
  ∀ (s : State) (t : Fin 3), s.cfg.wf → nodesNeeded s.cfg s.ctab t s.cfg.tabEntries ≤ s.cfg.nodeMax →
    (∀ i, i < s.cfg.tabEntries → 1 ≤ entryLen s.cfg s.ctab t i ∧ entryLen s.cfg s.ctab t i ≤ 32) →
    (∀ i j, i < s.cfg.tabEntries → j < s.cfg.tabEntries → i ≠ j →
      ¬ entryBits s.cfg s.ctab t i <+: entryBits s.cfg s.ctab t j) →
    exec (.htBuild t) s = .next (afterError s 4#8 5#8 s.cfg.tabEntries 0 0)

/-- R152, R153, R156, R206 (c): HT.BUILD raises the error of Insert at the first entry that fails, with that entry's
index, length and code in the record; the old tree and RES stay. Where the entries before entry `n` are a prefix code
whose nodes fit the arena, entry `n` fails by its length, by a code before it that is a proper prefix of its own, has
its own as a proper prefix or equals it, or, where no code before it conflicts with its own, by the room for its nodes. -/
def Obligations.HtBuildRaisesTheFirstFailingEntry : Prop :=
  ∀ (s : State) (t : Fin 3) (n : Nat), s.cfg.wf → n < s.cfg.tabEntries →
    (∀ i, i < n → 1 ≤ entryLen s.cfg s.ctab t i ∧ entryLen s.cfg s.ctab t i ≤ 32) →
    (∀ i j, i < n → j < n → i ≠ j → ¬ entryBits s.cfg s.ctab t i <+: entryBits s.cfg s.ctab t j) →
    nodesNeeded s.cfg s.ctab t n ≤ s.cfg.nodeMax →
    (32 < entryLen s.cfg s.ctab t n →
      exec (.htBuild t) s = .next (afterError s 4#8 4#8 n (entryLen s.cfg s.ctab t n)
        (entryCode s.cfg s.ctab t n).toNat)) ∧
    (1 ≤ entryLen s.cfg s.ctab t n → entryLen s.cfg s.ctab t n ≤ 32 →
      (∀ j, j < n → entryBits s.cfg s.ctab t j <+: entryBits s.cfg s.ctab t n →
        entryBits s.cfg s.ctab t j ≠ entryBits s.cfg s.ctab t n →
        exec (.htBuild t) s = .next (afterError s 4#8 1#8 n (entryLen s.cfg s.ctab t n)
          (entryCode s.cfg s.ctab t n).toNat)) ∧
      (∀ j, j < n → entryBits s.cfg s.ctab t n <+: entryBits s.cfg s.ctab t j →
        entryBits s.cfg s.ctab t n ≠ entryBits s.cfg s.ctab t j →
        exec (.htBuild t) s = .next (afterError s 4#8 2#8 n (entryLen s.cfg s.ctab t n)
          (entryCode s.cfg s.ctab t n).toNat)) ∧
      (∀ j, j < n → entryBits s.cfg s.ctab t n = entryBits s.cfg s.ctab t j →
        exec (.htBuild t) s = .next (afterError s 4#8 3#8 n (entryLen s.cfg s.ctab t n)
          (entryCode s.cfg s.ctab t n).toNat)) ∧
      ((∀ j, j < n → ¬ entryBits s.cfg s.ctab t j <+: entryBits s.cfg s.ctab t n ∧
          ¬ entryBits s.cfg s.ctab t n <+: entryBits s.cfg s.ctab t j) →
        s.cfg.nodeMax < nodesNeeded s.cfg s.ctab t (n + 1) →
        exec (.htBuild t) s = .next (afterError s 4#8 6#8 n (entryLen s.cfg s.ctab t n)
          (entryCode s.cfg s.ctab t n).toNat)))

/-- R158: after a successful HT.BUILD, whatever happens to the table, the window and the input, if the next stream bits
are the code of entry `i` and they lie inside the window, HT.DECODE gives RES = i and advances BPOS by the code's
length; and no two symbols share a code path. -/
def Obligations.HuffmanDecodeInvertsTheTable : Prop :=
  ∀ (s u x : State) (t : Fin 3), s.cfg.wf → s.err = false → exec (.htBuild t) s = .next u → u.err = false →
    x.cfg = u.cfg → x.arena = u.arena → windowInside x →
    ∀ i, i < u.res.toNat →
      (x.bpos.toNat + entryLen s.cfg s.ctab t i ≤ x.blim.toNat →
        streamList x.ibuf x.order x.bpos.toNat (entryLen s.cfg s.ctab t i) = entryBits s.cfg s.ctab t i →
        ∃ pos : Word, exec .htDecode x = .next { x with res := BitVec.ofNat 32 i, bpos := pos } ∧
          pos.toNat = x.bpos.toNat + entryLen s.cfg s.ctab t i) ∧
      ∀ j, j < u.res.toNat → i ≠ j → ¬ entryBits s.cfg s.ctab t i <+: entryBits s.cfg s.ctab t j

/-- R154, R157: where the next `n` stream bits inside the window lead from the root to a node with a symbol, HT.DECODE
gives that symbol and advances BPOS by `n`; nothing else changes. -/
def Obligations.HtDecodeFollowsTheStream : Prop :=
  ∀ (s : State) (n : Nat) (sym : Word), ArenaWf s.cfg s.arena → windowInside s →
    s.bpos.toNat + n ≤ s.blim.toNat → leadsTo s.arena (streamList s.ibuf s.order s.bpos.toNat n) sym →
    encode .htDecode = 0x23000000#32 ∧
    ∃ pos : Word, exec .htDecode s = .next { s with res := sym, bpos := pos } ∧ pos.toNat = s.bpos.toNat + n

/-- R154 (a), (b), (c): the three failures of HT.DECODE, and that every stream is either decoded or fails in one of the
three ways. -/
def Obligations.HtDecodeDecidesEveryStream : Prop :=
  ∀ s : State, ArenaWf s.cfg s.arena → windowInside s → s.bpos.toNat ≤ s.blim.toNat →
    (s.arena = [Node.empty] → exec .htDecode s = .next (afterError s 5#8 1#8 s.bpos.toNat 0 0)) ∧
    (∀ m k nd, s.bpos.toNat + m < s.blim.toNat →
      walk s.arena (streamList s.ibuf s.order s.bpos.toNat m) 0 = some k → s.arena[k]? = some nd →
      nd.childless = false → nd.child (streamBit s.ibuf (s.bpos.toNat + m) s.order) = nil32 →
      exec .htDecode s = .next (afterError s 5#8 2#8 (s.bpos.toNat + m)
        (streamBit s.ibuf (s.bpos.toNat + m) s.order).toNat k)) ∧
    (∀ m k nd, s.bpos.toNat + m = s.blim.toNat →
      walk s.arena (streamList s.ibuf s.order s.bpos.toNat m) 0 = some k → s.arena[k]? = some nd →
      nd.childless = false →
      exec .htDecode s = .next (afterError s 3#8 0#8 (s.bpos.toNat + m) 1 0)) ∧
    (s.arena = [Node.empty] ∨
      (∃ n sym, s.bpos.toNat + n ≤ s.blim.toNat ∧ leadsTo s.arena (streamList s.ibuf s.order s.bpos.toNat n) sym) ∨
      ∃ m k nd, s.bpos.toNat + m ≤ s.blim.toNat ∧
        walk s.arena (streamList s.ibuf s.order s.bpos.toNat m) 0 = some k ∧ s.arena[k]? = some nd ∧
        nd.childless = false ∧
        (s.bpos.toNat + m = s.blim.toNat ∨ nd.child (streamBit s.ibuf (s.bpos.toNat + m) s.order) = nil32))

/-! ### Plane commands -/

/-- R173: PL.ADDR stores the cumulative sums of the plane sizes from PBASE and sets PAVALID, or raises. -/
def Obligations.PlAddrComputesThePlaneStarts : Prop :=
  encode .plAddr = 0x30000000#32 ∧
  ∀ s : State,
    (s.cfg.ibufBytes < s.blen.toNat →
      exec .plAddr s = .next (afterError s 10#8 1#8 0 s.cfg.ibufBytes s.blen.toNat)) ∧
    (s.blen.toNat ≤ s.cfg.ibufBytes →
      s.blen.toNat < s.pbase.toNat + s.psize[0].toNat + s.psize[1].toNat + s.psize[2].toNat →
      exec .plAddr s = .next (afterError s 6#8 3#8 s.pbase.toNat s.blen.toNat
        (min (s.pbase.toNat + s.psize[0].toNat + s.psize[1].toNat + s.psize[2].toNat) (2 ^ 32 - 1)))) ∧
    (s.blen.toNat ≤ s.cfg.ibufBytes →
      s.pbase.toNat + s.psize[0].toNat + s.psize[1].toNat + s.psize[2].toNat ≤ s.blen.toNat →
      ∃ paddr : Vector Word 3, exec .plAddr s = .next { s with paddr := paddr, pavalid := true } ∧
        paddr[0].toNat = s.pbase.toNat ∧
        paddr[1].toNat = s.pbase.toNat + s.psize[0].toNat ∧
        paddr[2].toNat = s.pbase.toNat + s.psize[0].toNat + s.psize[1].toNat)

/-- R171, R172: a size category `c` of at most 16 and its further bits `v` give the residual: 0 for category 0, `v` where
its top bit is 1, else `v − (2^c − 1)`; RES holds it in two's complement and BPOS moves past both. -/
def Obligations.PlResidReadsASizedResidual : Prop :=
  ∀ (s : State) (n : Nat) (sym : Word), ArenaWf s.cfg s.arena → windowInside s →
    leadsTo s.arena (streamList s.ibuf s.order s.bpos.toNat n) sym → sym.toNat ≤ 16 →
    s.bpos.toNat + n + sym.toNat ≤ s.blim.toNat →
    encode .plResid = 0x31000000#32 ∧
    ∃ (v : Nat) (d : Int) (pos : Word),
      exec .plResid s = .next { s with res := BitVec.ofInt 32 d, bpos := pos } ∧
      pos.toNat = s.bpos.toNat + n + sym.toNat ∧ s32 (BitVec.ofInt 32 d) = d ∧
      v < 2 ^ sym.toNat ∧
      (∀ i, i < sym.toNat →
        v.testBit (match s.order with | .msb => sym.toNat - 1 - i | .lsb => i) =
          streamBit s.ibuf (s.bpos.toNat + n + i) s.order) ∧
      (sym.toNat = 0 → d = 0) ∧
      (sym.toNat ≠ 0 → v.testBit (sym.toNat - 1) = true → d = v) ∧
      (sym.toNat ≠ 0 → v.testBit (sym.toNat - 1) = false → d = (v : Int) - (2 ^ sym.toNat - 1))

/-- R172, R203: PL.RESID raises where Descend does and with the same record, on a category above 16 before its further
bits are read, and where fewer further bits remain than the category asks for. -/
def Obligations.PlResidRaises : Prop :=
  ∀ s : State, ArenaWf s.cfg s.arena → windowInside s → s.err = false →
    (∀ t, exec .htDecode s = .next t → t.err = true → exec .plResid s = .next t) ∧
    (∀ n sym, s.bpos.toNat + n ≤ s.blim.toNat →
      leadsTo s.arena (streamList s.ibuf s.order s.bpos.toNat n) sym →
      (16 < sym.toNat → exec .plResid s = .next (afterError s 5#8 3#8 s.bpos.toNat 16 sym.toNat)) ∧
      (sym.toNat ≤ 16 → s.blim.toNat < s.bpos.toNat + n + sym.toNat →
        exec .plResid s = .next (afterError s 3#8 0#8 (s.bpos.toNat + n) sym.toNat
          (s.blim.toNat - (s.bpos.toNat + n)))))

/-- R171: every integer from −65535 to 65535 has exactly one coding, and its size category is the number of bits of its
absolute value. -/
def Obligations.EveryResidualHasOneCoding : Prop :=
  (∀ c v, c ≤ 16 → v < 2 ^ c → -65535 ≤ residualOf c v ∧ residualOf c v ≤ 65535) ∧
  ∀ d : Int, -65535 ≤ d → d ≤ 65535 →
    ∃ c v, (c ≤ 16 ∧ v < 2 ^ c ∧ residualOf c v = d) ∧
      d.natAbs < 2 ^ c ∧ (c ≠ 0 → 2 ^ (c - 1) ≤ d.natAbs) ∧
      ∀ c' v', c' ≤ 16 → v' < 2 ^ c' → residualOf c' v' = d → c' = c ∧ v' = v

/-- R175: the three checks of the plane commands in their order, and that a configuration that passes them raises no
IllegalConfig. -/
def Obligations.PlaneChecksRaiseInOrder : Prop :=
  ∀ (s : State) (i : Instr), i = .plDecodeAll ∨ (∃ p, i = .plDecode p) →
    (s.pavalid = false → exec i s = .next (afterError s 10#8 2#8 0 1 0)) ∧
    (s.pavalid = true → s.stride.toNat < 6 * s.cols.toNat →
      exec i s = .next (afterError s 10#8 3#8 0 (6 * s.cols.toNat) s.stride.toNat)) ∧
    (s.pavalid = true → 6 * s.cols.toNat ≤ s.stride.toNat → s.cfg.obufBytes < s.rows.toNat * s.stride.toNat →
      exec i s = .next (afterError s 10#8 4#8 0 s.cfg.obufBytes (min (s.rows.toNat * s.stride.toNat) (2 ^ 32 - 1)))) ∧
    (planeReady s → ∀ t, exec i s = .next t → s.err = false → t.err = true → t.record.cause ≠ 10#8)

/-- R174: a plane is decoded only if its seed is 512; otherwise BAD_SEED is raised, and the seed stays. In PL.DECODEALL
the seed of a plane is checked after the planes before it. -/
def Obligations.SeedMustBe512 : Prop :=
  ∀ (s : State), planeReady s →
    (∀ p : Fin 3, s.seed[p].toNat ≠ 512 →
      exec (.plDecode p) s =
        .next (afterPlaneError s p none 5#8 5#8 (8 * s.paddr[p].toNat) 512 s.seed[p].toNat)) ∧
    (∀ p : Fin 3, s.seed[p].toNat ≠ 512 → (∀ q : Fin 3, q < p → ∃ out, planeBody s q = .ok out) →
      exec .plDecodeAll s =
        .next (afterPlaneError s p none 5#8 5#8 (8 * s.paddr[p].toNat) 512 s.seed[p].toNat)) ∧
    (∀ (p : Fin 3) (t : State), s.err = false → exec (.plDecode p) s = .next t → t.err = false →
      s.seed[p].toNat = 512 ∧ t.seed = s.seed) ∧
    (∀ t, s.err = false → exec .plDecodeAll s = .next t → t.err = false →
      (∀ p : Fin 3, s.seed[p].toNat = 512) ∧ t.seed = s.seed)

/-- R176, R177, R178: where the seed is 512, the configuration is ready and every sample of plane `p` decodes, PL.DECODE
publishes the samples and nothing else of OBUF, leaves the plane's tree, sets ORDER to 0, BLIM to the plane's end and
BPOS past its last bit, and changes nothing else. -/
def Obligations.PlDecodeComputesThePlane : Prop :=
  ∀ (s : State) (p : Fin 3) (arena : List Node) (pos : Nat → Nat) (d : Nat → Int) (v : Nat → Nat),
    planeReady s → s.seed[p].toNat = 512 → s.obuf.wf = true →
    PlaneRun s p arena (s.rows.toNat * s.cols.toNat) pos d v →
    encode (.plDecode p) = 0x32000000#32 ||| BitVec.ofNat 32 p.val ∧
    ∃ obuf : Memory 8,
      exec (.plDecode p) s = .next { s with
        obuf := obuf, arena := arena, order := .msb,
        blim := BitVec.ofNat 32 (8 * (s.paddr[p].toNat + s.psize[p].toNat)),
        bpos := BitVec.ofNat 32 (pos (s.rows.toNat * s.cols.toNat)) } ∧
      obuf.wf = true ∧
      (∀ row col, row < s.rows.toNat → col < s.cols.toNat →
        obuf.read (row * s.stride.toNat + (3 * col + p.val) * 2) =
          BitVec.ofNat 8 (v (row * s.cols.toNat + col) % 256) ∧
        obuf.read (row * s.stride.toNat + (3 * col + p.val) * 2 + 1) =
          BitVec.ofNat 8 (v (row * s.cols.toNat + col) / 256)) ∧
      ∀ a, ¬ sampleByte s p a → obuf.read a = s.obuf.read a

/-- R176, R206 (c): after the checks, a bad table and then the first sample that does not decode decide the error of
PL.DECODE: what Build or the residual raises, or SAMPLE_OVERFLOW with the exact sum outside 0 to 65535, at that sample's
row and column. -/
def Obligations.PlDecodeReportsTheFirstError : Prop :=
  ∀ (s : State) (p : Fin 3), planeReady s → s.seed[p].toNat = 512 →
    (∀ e, build s.cfg s.ctab p = .raised e →
      exec (.plDecode p) s = .next (afterPlaneError s p none e.cause.code e.cause.sub e.pos e.exp e.fnd)) ∧
    ∀ (arena : List Node) (j : Nat) (pos : Nat → Nat) (d : Nat → Int) (v : Nat → Nat),
      j < s.rows.toNat * s.cols.toNat → PlaneRun s p arena j pos d v →
      (∀ e, resid s.cfg s.ibuf arena (8 * (s.paddr[p].toNat + s.psize[p].toNat)) .msb (pos j) = .raised e →
        exec (.plDecode p) s = .next (afterPlaneError s p (some (j / s.cols.toNat, j % s.cols.toNat))
          e.cause.code e.cause.sub e.pos e.exp e.fnd)) ∧
      (∀ (d' : Int) (pos' pred : Nat),
        resid s.cfg s.ibuf arena (8 * (s.paddr[p].toNat + s.psize[p].toNat)) .msb (pos j) = .ok (d', pos') →
        pred = (if j % s.cols.toNat < 2 then 512 else v (j - 1)) → ((pred : Int) + d' < 0 ∨ 65535 < (pred : Int) + d') →
        exec (.plDecode p) s = .next (afterPlaneError s p (some (j / s.cols.toNat, j % s.cols.toNat))
          5#8 4#8 (pos j) pred (BitVec.ofInt 32 d').toNat))

/-- R176, R204, R206 (c): after the checks of R175 every error of PL.DECODE is the seed's, the table's, or that of the
first sample that does not decode, and in the last case ELOC is that sample's row and column: sample `j` is the first
that has no residual, or whose residual takes the predictor outside 0 to 65535. -/
def Obligations.PlDecodeFailsAtTheFirstBadSample : Prop :=
  ∀ (s t : State) (p : Fin 3), planeReady s → s.err = false → exec (.plDecode p) s = .next t → t.err = true →
    (s.seed[p].toNat ≠ 512 ∧
      t = afterPlaneError s p none 5#8 5#8 (8 * s.paddr[p].toNat) 512 s.seed[p].toNat) ∨
    (s.seed[p].toNat = 512 ∧ ∃ e, build s.cfg s.ctab p = .raised e ∧
      t = afterPlaneError s p none e.cause.code e.cause.sub e.pos e.exp e.fnd) ∨
    (s.seed[p].toNat = 512 ∧
      ∃ (arena : List Node) (j : Nat) (pos : Nat → Nat) (d : Nat → Int) (v : Nat → Nat),
        j < s.rows.toNat * s.cols.toNat ∧ PlaneRun s p arena j pos d v ∧
        t.record.row.toNat = j / s.cols.toNat ∧ t.record.col.toNat = j % s.cols.toNat ∧
        ((∃ e, resid s.cfg s.ibuf arena (8 * (s.paddr[p].toNat + s.psize[p].toNat)) .msb (pos j) = .raised e ∧
            t = afterPlaneError s p (some (j / s.cols.toNat, j % s.cols.toNat))
              e.cause.code e.cause.sub e.pos e.exp e.fnd) ∨
          ∃ (d' : Int) (pos' pred : Nat),
            resid s.cfg s.ibuf arena (8 * (s.paddr[p].toNat + s.psize[p].toNat)) .msb (pos j) = .ok (d', pos') ∧
            pred = (if j % s.cols.toNat < 2 then 512 else v (j - 1)) ∧
            ((pred : Int) + d' < 0 ∨ 65535 < (pred : Int) + d') ∧
            t = afterPlaneError s p (some (j / s.cols.toNat, j % s.cols.toNat))
              5#8 4#8 (pos j) pred (BitVec.ofInt 32 d').toNat))

/-- R179: where all three planes decode, PL.DECODEALL publishes the three-plane image, leaves the tree and the cursor of
plane 2, and changes nothing else. -/
def Obligations.PlDecodeAllComputesTheImage : Prop :=
  ∀ (s : State) (arena : Fin 3 → List Node) (pos : Fin 3 → Nat → Nat) (d : Fin 3 → Nat → Int) (v : Fin 3 → Nat → Nat),
    planeReady s → (∀ p : Fin 3, s.seed[p].toNat = 512) → s.obuf.wf = true →
    (∀ p, PlaneRun s p (arena p) (s.rows.toNat * s.cols.toNat) (pos p) (d p) (v p)) →
    encode .plDecodeAll = 0x33000000#32 ∧
    ∃ obuf : Memory 8,
      exec .plDecodeAll s = .next { s with
        obuf := obuf, arena := arena 2, order := .msb,
        blim := BitVec.ofNat 32 (8 * (s.paddr[2].toNat + s.psize[2].toNat)),
        bpos := BitVec.ofNat 32 (pos 2 (s.rows.toNat * s.cols.toNat)) } ∧
      obuf.wf = true ∧
      (∀ (p : Fin 3) row col, row < s.rows.toNat → col < s.cols.toNat →
        obuf.read (row * s.stride.toNat + (3 * col + p.val) * 2) =
          BitVec.ofNat 8 (v p (row * s.cols.toNat + col) % 256) ∧
        obuf.read (row * s.stride.toNat + (3 * col + p.val) * 2 + 1) =
          BitVec.ofNat 8 (v p (row * s.cols.toNat + col) / 256)) ∧
      ∀ a, (∀ p, ¬ sampleByte s p a) → obuf.read a = s.obuf.read a

/-- R179: PL.DECODEALL leaves the state that PL.DECODE 0, 1 and 2 leave, or, where one of them fails, that one's error
with nothing published. -/
def Obligations.PlDecodeAllEqualsThreeDecodes : Prop :=
  ∀ s t0 : State, s.err = false → exec (.plDecode 0) s = .next t0 →
    (t0.err = true → exec .plDecodeAll s = .next t0) ∧
    (t0.err = false → ∀ t1, exec (.plDecode 1) t0 = .next t1 →
      (t1.err = true → exec .plDecodeAll s = .next { s with err := true, record := t1.record }) ∧
      (t1.err = false → ∀ t2, exec (.plDecode 2) t1 = .next t2 →
        (t2.err = true → exec .plDecodeAll s = .next { s with err := true, record := t2.record }) ∧
        (t2.err = false → exec .plDecodeAll s = .next t2)))

/-- R180: the effect of PL.DECODE p is a function of its field, PAVALID, COLS, ROWS, STRIDE, SEED[p], PADDR[p], PSIZE[p],
table p up to its sentinel, and the plane's bytes: from two states that agree on those (and on the instance's
parameters) it gives the same error record, or the same samples, tree and cursor. -/
def Obligations.PlDecodeIsDeterministic : Prop :=
  ∀ (s s' t : State) (p : Fin 3),
    s'.cfg = s.cfg → s.err = false → s'.err = false → s.obuf.wf = true → s'.obuf.wf = true →
    s'.pavalid = s.pavalid → s'.cols = s.cols → s'.rows = s.rows → s'.stride = s.stride →
    s'.seed[p] = s.seed[p] → s'.paddr[p] = s.paddr[p] → s'.psize[p] = s.psize[p] →
    (∀ i, i < s.cfg.tabEntries → (∀ j, j < i → entryLen s.cfg s.ctab p j ≠ 0) →
      entryLen s.cfg s'.ctab p i = entryLen s.cfg s.ctab p i ∧
      (entryLen s.cfg s.ctab p i ≠ 0 → entryCode s.cfg s'.ctab p i = entryCode s.cfg s.ctab p i)) →
    (∀ a, s.paddr[p].toNat ≤ a → a < s.paddr[p].toNat + s.psize[p].toNat → s'.ibuf.read a = s.ibuf.read a) →
    exec (.plDecode p) s = .next t →
    ∃ t', exec (.plDecode p) s' = .next t' ∧ t'.err = t.err ∧
      (t.err = true → t'.record = t.record) ∧
      (t.err = false → t'.arena = t.arena ∧ t'.order = t.order ∧ t'.bpos = t.bpos ∧ t'.blim = t.blim ∧
        ∀ a, sampleByte s p a → t'.obuf.read a = t.obuf.read a)

/-- R180, last sentence: the effect of PL.DECODEALL is a function of the same inputs, over all three planes. -/
def Obligations.PlDecodeAllIsDeterministic : Prop :=
  ∀ s s' t : State,
    s'.cfg = s.cfg → s.err = false → s'.err = false → s.obuf.wf = true → s'.obuf.wf = true →
    s'.pavalid = s.pavalid → s'.cols = s.cols → s'.rows = s.rows → s'.stride = s.stride →
    s'.seed = s.seed → s'.paddr = s.paddr → s'.psize = s.psize →
    (∀ (p : Fin 3) i, i < s.cfg.tabEntries → (∀ j, j < i → entryLen s.cfg s.ctab p j ≠ 0) →
      entryLen s.cfg s'.ctab p i = entryLen s.cfg s.ctab p i ∧
      (entryLen s.cfg s.ctab p i ≠ 0 → entryCode s.cfg s'.ctab p i = entryCode s.cfg s.ctab p i)) →
    (∀ (p : Fin 3) a, s.paddr[p].toNat ≤ a → a < s.paddr[p].toNat + s.psize[p].toNat →
      s'.ibuf.read a = s.ibuf.read a) →
    exec .plDecodeAll s = .next t →
    ∃ t', exec .plDecodeAll s' = .next t' ∧ t'.err = t.err ∧
      (t.err = true → t'.record = t.record) ∧
      (t.err = false → t'.arena = t.arena ∧ t'.order = t.order ∧ t'.bpos = t.bpos ∧ t'.blim = t.blim ∧
        ∀ (p : Fin 3) a, sampleByte s p a → t'.obuf.read a = t.obuf.read a)

/-- R177 example, V E4: a table whose only code is the bit 0, and a plane of zero bits, give 512 at every pixel. -/
def Obligations.ZeroResidualPlaneIsUniform : Prop :=
  ∀ (s : State) (p : Fin 3), s.cfg.wf → 2 ≤ s.cfg.nodeMax → planeReady s → s.seed[p].toNat = 512 → s.obuf.wf = true →
    entryLen s.cfg s.ctab p 0 = 1 → (entryCode s.cfg s.ctab p 0).getLsbD 0 = false → entryLen s.cfg s.ctab p 1 = 0 →
    s.paddr[p].toNat + s.psize[p].toNat ≤ s.cfg.ibufBytes →
    s.rows.toNat * s.cols.toNat ≤ 8 * s.psize[p].toNat →
    (∀ k, k < s.rows.toNat * s.cols.toNat → streamBit s.ibuf (8 * s.paddr[p].toNat + k) .msb = false) →
    ∃ t, exec (.plDecode p) s = .next t ∧ t.err = s.err ∧ t.ncount = 2#32 ∧
      t.bpos.toNat = 8 * s.paddr[p].toNat + s.rows.toNat * s.cols.toNat ∧
      t.blim.toNat = 8 * (s.paddr[p].toNat + s.psize[p].toNat) ∧
      ∀ row col, row < s.rows.toNat → col < s.cols.toNat →
        t.obuf.read (row * s.stride.toNat + (3 * col + p.val) * 2) = 0x00#8 ∧
        t.obuf.read (row * s.stride.toNat + (3 * col + p.val) * 2 + 1) = 0x02#8

/-! ### The invariant -/

/-- R35, R37, R61, R88, U11: what holds between steps is kept by every step, from every state in which it holds. -/
def Obligations.StepKeepsTheInvariant : Prop :=
  ∀ s t : State, Inv s → step s = .next t → Inv t

/-- R70, R71: it holds after power-on of any legal instance, whatever the memories hold, and at the model's reset
state, whose memories are the model's choice (log entries 1 and 4). -/
def Obligations.PowerOnMeetsTheInvariant : Prop :=
  Inv State.reset ∧
  ∀ (cfg : Config) (ibuf : Memory 8) (ctab : Memory 32) (obuf : Memory 8) (host : List HostAction), cfg.wf →
    (ibuf.wf = true ∧ ∀ c ∈ ibuf, c.1 < cfg.ibufBytes) →
    (ctab.wf = true ∧ ∀ c ∈ ctab, c.1 % 4 = 0 ∧ c.1 < 24 * cfg.tabEntries) →
    (obuf.wf = true ∧ ∀ c ∈ obuf, c.1 < cfg.obufBytes) →
    Inv (State.powerOn cfg ibuf ctab obuf host)

/-- R255, R256, R137: in every state that meets the invariant a step answers a next state: no command stops, whatever
the host does and whatever the memories hold (the model's own faults, log entry 8, never happen). -/
def Obligations.EveryStepCompletes : Prop :=
  ∀ s : State, Inv s → ∃ t, step s = .next t

end
end

