-- ==== Sys2Proof/Laws/State.lean ====
section
/-! SUPPORT. One lemma per field per named update of the state (`Machine/Ops.lean`, `Machine/Flags.lean`,
`Machine/Plane.lean`), true by rfl, so that no proof unfolds a record update. -/

namespace Sys2Proof.Machine

/-! ### State.takeError -/

@[simp] theorem State.takeError_cfg (s : State) (e : Raise) : (s.takeError e).cfg = s.cfg := rfl
@[simp] theorem State.takeError_err (s : State) (e : Raise) : (s.takeError e).err = true := rfl
@[simp] theorem State.takeError_lost (s : State) (e : Raise) : (s.takeError e).lost = s.lost := rfl
@[simp] theorem State.takeError_pavalid (s : State) (e : Raise) : (s.takeError e).pavalid = s.pavalid := rfl
@[simp] theorem State.takeError_order (s : State) (e : Raise) : (s.takeError e).order = s.order := rfl
@[simp] theorem State.takeError_eie (s : State) (e : Raise) : (s.takeError e).eie = s.eie := rfl
@[simp] theorem State.takeError_record (s : State) (e : Raise) : (s.takeError e).record = e.record := rfl
@[simp] theorem State.takeError_a0 (s : State) (e : Raise) : (s.takeError e).a0 = s.a0 := rfl
@[simp] theorem State.takeError_a1 (s : State) (e : Raise) : (s.takeError e).a1 = s.a1 := rfl
@[simp] theorem State.takeError_res (s : State) (e : Raise) : (s.takeError e).res = s.res := rfl
@[simp] theorem State.takeError_bpos (s : State) (e : Raise) : (s.takeError e).bpos = s.bpos := rfl
@[simp] theorem State.takeError_blim (s : State) (e : Raise) : (s.takeError e).blim = s.blim := rfl
@[simp] theorem State.takeError_blen (s : State) (e : Raise) : (s.takeError e).blen = s.blen := rfl
@[simp] theorem State.takeError_cols (s : State) (e : Raise) : (s.takeError e).cols = s.cols := rfl
@[simp] theorem State.takeError_rows (s : State) (e : Raise) : (s.takeError e).rows = s.rows := rfl
@[simp] theorem State.takeError_stride (s : State) (e : Raise) : (s.takeError e).stride = s.stride := rfl
@[simp] theorem State.takeError_pbase (s : State) (e : Raise) : (s.takeError e).pbase = s.pbase := rfl
@[simp] theorem State.takeError_seed (s : State) (e : Raise) : (s.takeError e).seed = s.seed := rfl
@[simp] theorem State.takeError_psize (s : State) (e : Raise) : (s.takeError e).psize = s.psize := rfl
@[simp] theorem State.takeError_paddr (s : State) (e : Raise) : (s.takeError e).paddr = s.paddr := rfl
@[simp] theorem State.takeError_ibuf (s : State) (e : Raise) : (s.takeError e).ibuf = s.ibuf := rfl
@[simp] theorem State.takeError_ctab (s : State) (e : Raise) : (s.takeError e).ctab = s.ctab := rfl
@[simp] theorem State.takeError_arena (s : State) (e : Raise) : (s.takeError e).arena = s.arena := rfl
@[simp] theorem State.takeError_obuf (s : State) (e : Raise) : (s.takeError e).obuf = s.obuf := rfl
@[simp] theorem State.takeError_host (s : State) (e : Raise) : (s.takeError e).host = s.host := rfl
@[simp] theorem State.takeError_bus (s : State) (e : Raise) : (s.takeError e).bus = s.bus := rfl

/-! ### State.ackError -/

@[simp] theorem State.ackError_cfg (s : State) : (s.ackError).cfg = s.cfg := rfl
@[simp] theorem State.ackError_err (s : State) : (s.ackError).err = false := rfl
@[simp] theorem State.ackError_lost (s : State) : (s.ackError).lost = false := rfl
@[simp] theorem State.ackError_pavalid (s : State) : (s.ackError).pavalid = s.pavalid := rfl
@[simp] theorem State.ackError_order (s : State) : (s.ackError).order = s.order := rfl
@[simp] theorem State.ackError_eie (s : State) : (s.ackError).eie = s.eie := rfl
@[simp] theorem State.ackError_record (s : State) : (s.ackError).record = s.record := rfl
@[simp] theorem State.ackError_a0 (s : State) : (s.ackError).a0 = s.a0 := rfl
@[simp] theorem State.ackError_a1 (s : State) : (s.ackError).a1 = s.a1 := rfl
@[simp] theorem State.ackError_res (s : State) : (s.ackError).res = s.res := rfl
@[simp] theorem State.ackError_bpos (s : State) : (s.ackError).bpos = s.bpos := rfl
@[simp] theorem State.ackError_blim (s : State) : (s.ackError).blim = s.blim := rfl
@[simp] theorem State.ackError_blen (s : State) : (s.ackError).blen = s.blen := rfl
@[simp] theorem State.ackError_cols (s : State) : (s.ackError).cols = s.cols := rfl
@[simp] theorem State.ackError_rows (s : State) : (s.ackError).rows = s.rows := rfl
@[simp] theorem State.ackError_stride (s : State) : (s.ackError).stride = s.stride := rfl
@[simp] theorem State.ackError_pbase (s : State) : (s.ackError).pbase = s.pbase := rfl
@[simp] theorem State.ackError_seed (s : State) : (s.ackError).seed = s.seed := rfl
@[simp] theorem State.ackError_psize (s : State) : (s.ackError).psize = s.psize := rfl
@[simp] theorem State.ackError_paddr (s : State) : (s.ackError).paddr = s.paddr := rfl
@[simp] theorem State.ackError_ibuf (s : State) : (s.ackError).ibuf = s.ibuf := rfl
@[simp] theorem State.ackError_ctab (s : State) : (s.ackError).ctab = s.ctab := rfl
@[simp] theorem State.ackError_arena (s : State) : (s.ackError).arena = s.arena := rfl
@[simp] theorem State.ackError_obuf (s : State) : (s.ackError).obuf = s.obuf := rfl
@[simp] theorem State.ackError_host (s : State) : (s.ackError).host = s.host := rfl
@[simp] theorem State.ackError_bus (s : State) : (s.ackError).bus = s.bus := rfl

/-! ### State.dropCommand -/

@[simp] theorem State.dropCommand_cfg (s : State) : (s.dropCommand).cfg = s.cfg := rfl
@[simp] theorem State.dropCommand_err (s : State) : (s.dropCommand).err = s.err := rfl
@[simp] theorem State.dropCommand_lost (s : State) : (s.dropCommand).lost = true := rfl
@[simp] theorem State.dropCommand_pavalid (s : State) : (s.dropCommand).pavalid = s.pavalid := rfl
@[simp] theorem State.dropCommand_order (s : State) : (s.dropCommand).order = s.order := rfl
@[simp] theorem State.dropCommand_eie (s : State) : (s.dropCommand).eie = s.eie := rfl
@[simp] theorem State.dropCommand_record (s : State) : (s.dropCommand).record = s.record := rfl
@[simp] theorem State.dropCommand_a0 (s : State) : (s.dropCommand).a0 = s.a0 := rfl
@[simp] theorem State.dropCommand_a1 (s : State) : (s.dropCommand).a1 = s.a1 := rfl
@[simp] theorem State.dropCommand_res (s : State) : (s.dropCommand).res = s.res := rfl
@[simp] theorem State.dropCommand_bpos (s : State) : (s.dropCommand).bpos = s.bpos := rfl
@[simp] theorem State.dropCommand_blim (s : State) : (s.dropCommand).blim = s.blim := rfl
@[simp] theorem State.dropCommand_blen (s : State) : (s.dropCommand).blen = s.blen := rfl
@[simp] theorem State.dropCommand_cols (s : State) : (s.dropCommand).cols = s.cols := rfl
@[simp] theorem State.dropCommand_rows (s : State) : (s.dropCommand).rows = s.rows := rfl
@[simp] theorem State.dropCommand_stride (s : State) : (s.dropCommand).stride = s.stride := rfl
@[simp] theorem State.dropCommand_pbase (s : State) : (s.dropCommand).pbase = s.pbase := rfl
@[simp] theorem State.dropCommand_seed (s : State) : (s.dropCommand).seed = s.seed := rfl
@[simp] theorem State.dropCommand_psize (s : State) : (s.dropCommand).psize = s.psize := rfl
@[simp] theorem State.dropCommand_paddr (s : State) : (s.dropCommand).paddr = s.paddr := rfl
@[simp] theorem State.dropCommand_ibuf (s : State) : (s.dropCommand).ibuf = s.ibuf := rfl
@[simp] theorem State.dropCommand_ctab (s : State) : (s.dropCommand).ctab = s.ctab := rfl
@[simp] theorem State.dropCommand_arena (s : State) : (s.dropCommand).arena = s.arena := rfl
@[simp] theorem State.dropCommand_obuf (s : State) : (s.dropCommand).obuf = s.obuf := rfl
@[simp] theorem State.dropCommand_host (s : State) : (s.dropCommand).host = s.host := rfl
@[simp] theorem State.dropCommand_bus (s : State) : (s.dropCommand).bus = s.bus := rfl

/-! ### State.setRes -/

@[simp] theorem State.setRes_cfg (s : State) (v : Word) : (s.setRes v).cfg = s.cfg := rfl
@[simp] theorem State.setRes_err (s : State) (v : Word) : (s.setRes v).err = s.err := rfl
@[simp] theorem State.setRes_lost (s : State) (v : Word) : (s.setRes v).lost = s.lost := rfl
@[simp] theorem State.setRes_pavalid (s : State) (v : Word) : (s.setRes v).pavalid = s.pavalid := rfl
@[simp] theorem State.setRes_order (s : State) (v : Word) : (s.setRes v).order = s.order := rfl
@[simp] theorem State.setRes_eie (s : State) (v : Word) : (s.setRes v).eie = s.eie := rfl
@[simp] theorem State.setRes_record (s : State) (v : Word) : (s.setRes v).record = s.record := rfl
@[simp] theorem State.setRes_a0 (s : State) (v : Word) : (s.setRes v).a0 = s.a0 := rfl
@[simp] theorem State.setRes_a1 (s : State) (v : Word) : (s.setRes v).a1 = s.a1 := rfl
@[simp] theorem State.setRes_res (s : State) (v : Word) : (s.setRes v).res = v := rfl
@[simp] theorem State.setRes_bpos (s : State) (v : Word) : (s.setRes v).bpos = s.bpos := rfl
@[simp] theorem State.setRes_blim (s : State) (v : Word) : (s.setRes v).blim = s.blim := rfl
@[simp] theorem State.setRes_blen (s : State) (v : Word) : (s.setRes v).blen = s.blen := rfl
@[simp] theorem State.setRes_cols (s : State) (v : Word) : (s.setRes v).cols = s.cols := rfl
@[simp] theorem State.setRes_rows (s : State) (v : Word) : (s.setRes v).rows = s.rows := rfl
@[simp] theorem State.setRes_stride (s : State) (v : Word) : (s.setRes v).stride = s.stride := rfl
@[simp] theorem State.setRes_pbase (s : State) (v : Word) : (s.setRes v).pbase = s.pbase := rfl
@[simp] theorem State.setRes_seed (s : State) (v : Word) : (s.setRes v).seed = s.seed := rfl
@[simp] theorem State.setRes_psize (s : State) (v : Word) : (s.setRes v).psize = s.psize := rfl
@[simp] theorem State.setRes_paddr (s : State) (v : Word) : (s.setRes v).paddr = s.paddr := rfl
@[simp] theorem State.setRes_ibuf (s : State) (v : Word) : (s.setRes v).ibuf = s.ibuf := rfl
@[simp] theorem State.setRes_ctab (s : State) (v : Word) : (s.setRes v).ctab = s.ctab := rfl
@[simp] theorem State.setRes_arena (s : State) (v : Word) : (s.setRes v).arena = s.arena := rfl
@[simp] theorem State.setRes_obuf (s : State) (v : Word) : (s.setRes v).obuf = s.obuf := rfl
@[simp] theorem State.setRes_host (s : State) (v : Word) : (s.setRes v).host = s.host := rfl
@[simp] theorem State.setRes_bus (s : State) (v : Word) : (s.setRes v).bus = s.bus := rfl

/-! ### State.setBpos -/

@[simp] theorem State.setBpos_cfg (s : State) (pos : Nat) : (s.setBpos pos).cfg = s.cfg := rfl
@[simp] theorem State.setBpos_err (s : State) (pos : Nat) : (s.setBpos pos).err = s.err := rfl
@[simp] theorem State.setBpos_lost (s : State) (pos : Nat) : (s.setBpos pos).lost = s.lost := rfl
@[simp] theorem State.setBpos_pavalid (s : State) (pos : Nat) : (s.setBpos pos).pavalid = s.pavalid := rfl
@[simp] theorem State.setBpos_order (s : State) (pos : Nat) : (s.setBpos pos).order = s.order := rfl
@[simp] theorem State.setBpos_eie (s : State) (pos : Nat) : (s.setBpos pos).eie = s.eie := rfl
@[simp] theorem State.setBpos_record (s : State) (pos : Nat) : (s.setBpos pos).record = s.record := rfl
@[simp] theorem State.setBpos_a0 (s : State) (pos : Nat) : (s.setBpos pos).a0 = s.a0 := rfl
@[simp] theorem State.setBpos_a1 (s : State) (pos : Nat) : (s.setBpos pos).a1 = s.a1 := rfl
@[simp] theorem State.setBpos_res (s : State) (pos : Nat) : (s.setBpos pos).res = s.res := rfl
@[simp] theorem State.setBpos_bpos (s : State) (pos : Nat) : (s.setBpos pos).bpos = BitVec.ofNat 32 pos := rfl
@[simp] theorem State.setBpos_blim (s : State) (pos : Nat) : (s.setBpos pos).blim = s.blim := rfl
@[simp] theorem State.setBpos_blen (s : State) (pos : Nat) : (s.setBpos pos).blen = s.blen := rfl
@[simp] theorem State.setBpos_cols (s : State) (pos : Nat) : (s.setBpos pos).cols = s.cols := rfl
@[simp] theorem State.setBpos_rows (s : State) (pos : Nat) : (s.setBpos pos).rows = s.rows := rfl
@[simp] theorem State.setBpos_stride (s : State) (pos : Nat) : (s.setBpos pos).stride = s.stride := rfl
@[simp] theorem State.setBpos_pbase (s : State) (pos : Nat) : (s.setBpos pos).pbase = s.pbase := rfl
@[simp] theorem State.setBpos_seed (s : State) (pos : Nat) : (s.setBpos pos).seed = s.seed := rfl
@[simp] theorem State.setBpos_psize (s : State) (pos : Nat) : (s.setBpos pos).psize = s.psize := rfl
@[simp] theorem State.setBpos_paddr (s : State) (pos : Nat) : (s.setBpos pos).paddr = s.paddr := rfl
@[simp] theorem State.setBpos_ibuf (s : State) (pos : Nat) : (s.setBpos pos).ibuf = s.ibuf := rfl
@[simp] theorem State.setBpos_ctab (s : State) (pos : Nat) : (s.setBpos pos).ctab = s.ctab := rfl
@[simp] theorem State.setBpos_arena (s : State) (pos : Nat) : (s.setBpos pos).arena = s.arena := rfl
@[simp] theorem State.setBpos_obuf (s : State) (pos : Nat) : (s.setBpos pos).obuf = s.obuf := rfl
@[simp] theorem State.setBpos_host (s : State) (pos : Nat) : (s.setBpos pos).host = s.host := rfl
@[simp] theorem State.setBpos_bus (s : State) (pos : Nat) : (s.setBpos pos).bus = s.bus := rfl

/-! ### State.setWindow -/

@[simp] theorem State.setWindow_cfg (s : State) (o : BitOrder) (pos lim : Nat) : (s.setWindow o pos lim).cfg = s.cfg := rfl
@[simp] theorem State.setWindow_err (s : State) (o : BitOrder) (pos lim : Nat) : (s.setWindow o pos lim).err = s.err := rfl
@[simp] theorem State.setWindow_lost (s : State) (o : BitOrder) (pos lim : Nat) : (s.setWindow o pos lim).lost = s.lost := rfl
@[simp] theorem State.setWindow_pavalid (s : State) (o : BitOrder) (pos lim : Nat) : (s.setWindow o pos lim).pavalid = s.pavalid := rfl
@[simp] theorem State.setWindow_order (s : State) (o : BitOrder) (pos lim : Nat) : (s.setWindow o pos lim).order = o := rfl
@[simp] theorem State.setWindow_eie (s : State) (o : BitOrder) (pos lim : Nat) : (s.setWindow o pos lim).eie = s.eie := rfl
@[simp] theorem State.setWindow_record (s : State) (o : BitOrder) (pos lim : Nat) : (s.setWindow o pos lim).record = s.record := rfl
@[simp] theorem State.setWindow_a0 (s : State) (o : BitOrder) (pos lim : Nat) : (s.setWindow o pos lim).a0 = s.a0 := rfl
@[simp] theorem State.setWindow_a1 (s : State) (o : BitOrder) (pos lim : Nat) : (s.setWindow o pos lim).a1 = s.a1 := rfl
@[simp] theorem State.setWindow_res (s : State) (o : BitOrder) (pos lim : Nat) : (s.setWindow o pos lim).res = s.res := rfl
@[simp] theorem State.setWindow_bpos (s : State) (o : BitOrder) (pos lim : Nat) : (s.setWindow o pos lim).bpos = BitVec.ofNat 32 pos := rfl
@[simp] theorem State.setWindow_blim (s : State) (o : BitOrder) (pos lim : Nat) : (s.setWindow o pos lim).blim = BitVec.ofNat 32 lim := rfl
@[simp] theorem State.setWindow_blen (s : State) (o : BitOrder) (pos lim : Nat) : (s.setWindow o pos lim).blen = s.blen := rfl
@[simp] theorem State.setWindow_cols (s : State) (o : BitOrder) (pos lim : Nat) : (s.setWindow o pos lim).cols = s.cols := rfl
@[simp] theorem State.setWindow_rows (s : State) (o : BitOrder) (pos lim : Nat) : (s.setWindow o pos lim).rows = s.rows := rfl
@[simp] theorem State.setWindow_stride (s : State) (o : BitOrder) (pos lim : Nat) : (s.setWindow o pos lim).stride = s.stride := rfl
@[simp] theorem State.setWindow_pbase (s : State) (o : BitOrder) (pos lim : Nat) : (s.setWindow o pos lim).pbase = s.pbase := rfl
@[simp] theorem State.setWindow_seed (s : State) (o : BitOrder) (pos lim : Nat) : (s.setWindow o pos lim).seed = s.seed := rfl
@[simp] theorem State.setWindow_psize (s : State) (o : BitOrder) (pos lim : Nat) : (s.setWindow o pos lim).psize = s.psize := rfl
@[simp] theorem State.setWindow_paddr (s : State) (o : BitOrder) (pos lim : Nat) : (s.setWindow o pos lim).paddr = s.paddr := rfl
@[simp] theorem State.setWindow_ibuf (s : State) (o : BitOrder) (pos lim : Nat) : (s.setWindow o pos lim).ibuf = s.ibuf := rfl
@[simp] theorem State.setWindow_ctab (s : State) (o : BitOrder) (pos lim : Nat) : (s.setWindow o pos lim).ctab = s.ctab := rfl
@[simp] theorem State.setWindow_arena (s : State) (o : BitOrder) (pos lim : Nat) : (s.setWindow o pos lim).arena = s.arena := rfl
@[simp] theorem State.setWindow_obuf (s : State) (o : BitOrder) (pos lim : Nat) : (s.setWindow o pos lim).obuf = s.obuf := rfl
@[simp] theorem State.setWindow_host (s : State) (o : BitOrder) (pos lim : Nat) : (s.setWindow o pos lim).host = s.host := rfl
@[simp] theorem State.setWindow_bus (s : State) (o : BitOrder) (pos lim : Nat) : (s.setWindow o pos lim).bus = s.bus := rfl

/-! ### State.setArena -/

@[simp] theorem State.setArena_cfg (s : State) (a : List Node) : (s.setArena a).cfg = s.cfg := rfl
@[simp] theorem State.setArena_err (s : State) (a : List Node) : (s.setArena a).err = s.err := rfl
@[simp] theorem State.setArena_lost (s : State) (a : List Node) : (s.setArena a).lost = s.lost := rfl
@[simp] theorem State.setArena_pavalid (s : State) (a : List Node) : (s.setArena a).pavalid = s.pavalid := rfl
@[simp] theorem State.setArena_order (s : State) (a : List Node) : (s.setArena a).order = s.order := rfl
@[simp] theorem State.setArena_eie (s : State) (a : List Node) : (s.setArena a).eie = s.eie := rfl
@[simp] theorem State.setArena_record (s : State) (a : List Node) : (s.setArena a).record = s.record := rfl
@[simp] theorem State.setArena_a0 (s : State) (a : List Node) : (s.setArena a).a0 = s.a0 := rfl
@[simp] theorem State.setArena_a1 (s : State) (a : List Node) : (s.setArena a).a1 = s.a1 := rfl
@[simp] theorem State.setArena_res (s : State) (a : List Node) : (s.setArena a).res = s.res := rfl
@[simp] theorem State.setArena_bpos (s : State) (a : List Node) : (s.setArena a).bpos = s.bpos := rfl
@[simp] theorem State.setArena_blim (s : State) (a : List Node) : (s.setArena a).blim = s.blim := rfl
@[simp] theorem State.setArena_blen (s : State) (a : List Node) : (s.setArena a).blen = s.blen := rfl
@[simp] theorem State.setArena_cols (s : State) (a : List Node) : (s.setArena a).cols = s.cols := rfl
@[simp] theorem State.setArena_rows (s : State) (a : List Node) : (s.setArena a).rows = s.rows := rfl
@[simp] theorem State.setArena_stride (s : State) (a : List Node) : (s.setArena a).stride = s.stride := rfl
@[simp] theorem State.setArena_pbase (s : State) (a : List Node) : (s.setArena a).pbase = s.pbase := rfl
@[simp] theorem State.setArena_seed (s : State) (a : List Node) : (s.setArena a).seed = s.seed := rfl
@[simp] theorem State.setArena_psize (s : State) (a : List Node) : (s.setArena a).psize = s.psize := rfl
@[simp] theorem State.setArena_paddr (s : State) (a : List Node) : (s.setArena a).paddr = s.paddr := rfl
@[simp] theorem State.setArena_ibuf (s : State) (a : List Node) : (s.setArena a).ibuf = s.ibuf := rfl
@[simp] theorem State.setArena_ctab (s : State) (a : List Node) : (s.setArena a).ctab = s.ctab := rfl
@[simp] theorem State.setArena_arena (s : State) (a : List Node) : (s.setArena a).arena = a := rfl
@[simp] theorem State.setArena_obuf (s : State) (a : List Node) : (s.setArena a).obuf = s.obuf := rfl
@[simp] theorem State.setArena_host (s : State) (a : List Node) : (s.setArena a).host = s.host := rfl
@[simp] theorem State.setArena_bus (s : State) (a : List Node) : (s.setArena a).bus = s.bus := rfl

/-! ### State.setPaddr -/

@[simp] theorem State.setPaddr_cfg (s : State) (x y z : Nat) : (s.setPaddr x y z).cfg = s.cfg := rfl
@[simp] theorem State.setPaddr_err (s : State) (x y z : Nat) : (s.setPaddr x y z).err = s.err := rfl
@[simp] theorem State.setPaddr_lost (s : State) (x y z : Nat) : (s.setPaddr x y z).lost = s.lost := rfl
@[simp] theorem State.setPaddr_pavalid (s : State) (x y z : Nat) : (s.setPaddr x y z).pavalid = true := rfl
@[simp] theorem State.setPaddr_order (s : State) (x y z : Nat) : (s.setPaddr x y z).order = s.order := rfl
@[simp] theorem State.setPaddr_eie (s : State) (x y z : Nat) : (s.setPaddr x y z).eie = s.eie := rfl
@[simp] theorem State.setPaddr_record (s : State) (x y z : Nat) : (s.setPaddr x y z).record = s.record := rfl
@[simp] theorem State.setPaddr_a0 (s : State) (x y z : Nat) : (s.setPaddr x y z).a0 = s.a0 := rfl
@[simp] theorem State.setPaddr_a1 (s : State) (x y z : Nat) : (s.setPaddr x y z).a1 = s.a1 := rfl
@[simp] theorem State.setPaddr_res (s : State) (x y z : Nat) : (s.setPaddr x y z).res = s.res := rfl
@[simp] theorem State.setPaddr_bpos (s : State) (x y z : Nat) : (s.setPaddr x y z).bpos = s.bpos := rfl
@[simp] theorem State.setPaddr_blim (s : State) (x y z : Nat) : (s.setPaddr x y z).blim = s.blim := rfl
@[simp] theorem State.setPaddr_blen (s : State) (x y z : Nat) : (s.setPaddr x y z).blen = s.blen := rfl
@[simp] theorem State.setPaddr_cols (s : State) (x y z : Nat) : (s.setPaddr x y z).cols = s.cols := rfl
@[simp] theorem State.setPaddr_rows (s : State) (x y z : Nat) : (s.setPaddr x y z).rows = s.rows := rfl
@[simp] theorem State.setPaddr_stride (s : State) (x y z : Nat) : (s.setPaddr x y z).stride = s.stride := rfl
@[simp] theorem State.setPaddr_pbase (s : State) (x y z : Nat) : (s.setPaddr x y z).pbase = s.pbase := rfl
@[simp] theorem State.setPaddr_seed (s : State) (x y z : Nat) : (s.setPaddr x y z).seed = s.seed := rfl
@[simp] theorem State.setPaddr_psize (s : State) (x y z : Nat) : (s.setPaddr x y z).psize = s.psize := rfl
@[simp] theorem State.setPaddr_paddr (s : State) (x y z : Nat) : (s.setPaddr x y z).paddr = #v[BitVec.ofNat 32 x, BitVec.ofNat 32 y, BitVec.ofNat 32 z] := rfl
@[simp] theorem State.setPaddr_ibuf (s : State) (x y z : Nat) : (s.setPaddr x y z).ibuf = s.ibuf := rfl
@[simp] theorem State.setPaddr_ctab (s : State) (x y z : Nat) : (s.setPaddr x y z).ctab = s.ctab := rfl
@[simp] theorem State.setPaddr_arena (s : State) (x y z : Nat) : (s.setPaddr x y z).arena = s.arena := rfl
@[simp] theorem State.setPaddr_obuf (s : State) (x y z : Nat) : (s.setPaddr x y z).obuf = s.obuf := rfl
@[simp] theorem State.setPaddr_host (s : State) (x y z : Nat) : (s.setPaddr x y z).host = s.host := rfl
@[simp] theorem State.setPaddr_bus (s : State) (x y z : Nat) : (s.setPaddr x y z).bus = s.bus := rfl

/-! ### State.setObuf -/

@[simp] theorem State.setObuf_cfg (s : State) (m : Memory 8) : (s.setObuf m).cfg = s.cfg := rfl
@[simp] theorem State.setObuf_err (s : State) (m : Memory 8) : (s.setObuf m).err = s.err := rfl
@[simp] theorem State.setObuf_lost (s : State) (m : Memory 8) : (s.setObuf m).lost = s.lost := rfl
@[simp] theorem State.setObuf_pavalid (s : State) (m : Memory 8) : (s.setObuf m).pavalid = s.pavalid := rfl
@[simp] theorem State.setObuf_order (s : State) (m : Memory 8) : (s.setObuf m).order = s.order := rfl
@[simp] theorem State.setObuf_eie (s : State) (m : Memory 8) : (s.setObuf m).eie = s.eie := rfl
@[simp] theorem State.setObuf_record (s : State) (m : Memory 8) : (s.setObuf m).record = s.record := rfl
@[simp] theorem State.setObuf_a0 (s : State) (m : Memory 8) : (s.setObuf m).a0 = s.a0 := rfl
@[simp] theorem State.setObuf_a1 (s : State) (m : Memory 8) : (s.setObuf m).a1 = s.a1 := rfl
@[simp] theorem State.setObuf_res (s : State) (m : Memory 8) : (s.setObuf m).res = s.res := rfl
@[simp] theorem State.setObuf_bpos (s : State) (m : Memory 8) : (s.setObuf m).bpos = s.bpos := rfl
@[simp] theorem State.setObuf_blim (s : State) (m : Memory 8) : (s.setObuf m).blim = s.blim := rfl
@[simp] theorem State.setObuf_blen (s : State) (m : Memory 8) : (s.setObuf m).blen = s.blen := rfl
@[simp] theorem State.setObuf_cols (s : State) (m : Memory 8) : (s.setObuf m).cols = s.cols := rfl
@[simp] theorem State.setObuf_rows (s : State) (m : Memory 8) : (s.setObuf m).rows = s.rows := rfl
@[simp] theorem State.setObuf_stride (s : State) (m : Memory 8) : (s.setObuf m).stride = s.stride := rfl
@[simp] theorem State.setObuf_pbase (s : State) (m : Memory 8) : (s.setObuf m).pbase = s.pbase := rfl
@[simp] theorem State.setObuf_seed (s : State) (m : Memory 8) : (s.setObuf m).seed = s.seed := rfl
@[simp] theorem State.setObuf_psize (s : State) (m : Memory 8) : (s.setObuf m).psize = s.psize := rfl
@[simp] theorem State.setObuf_paddr (s : State) (m : Memory 8) : (s.setObuf m).paddr = s.paddr := rfl
@[simp] theorem State.setObuf_ibuf (s : State) (m : Memory 8) : (s.setObuf m).ibuf = s.ibuf := rfl
@[simp] theorem State.setObuf_ctab (s : State) (m : Memory 8) : (s.setObuf m).ctab = s.ctab := rfl
@[simp] theorem State.setObuf_arena (s : State) (m : Memory 8) : (s.setObuf m).arena = s.arena := rfl
@[simp] theorem State.setObuf_obuf (s : State) (m : Memory 8) : (s.setObuf m).obuf = m := rfl
@[simp] theorem State.setObuf_host (s : State) (m : Memory 8) : (s.setObuf m).host = s.host := rfl
@[simp] theorem State.setObuf_bus (s : State) (m : Memory 8) : (s.setObuf m).bus = s.bus := rfl

/-! ### State.accept -/

@[simp] theorem State.accept_cfg (s : State) (l : List HostAction) : (s.accept l).cfg = s.cfg := rfl
@[simp] theorem State.accept_err (s : State) (l : List HostAction) : (s.accept l).err = s.err := rfl
@[simp] theorem State.accept_lost (s : State) (l : List HostAction) : (s.accept l).lost = s.lost := rfl
@[simp] theorem State.accept_pavalid (s : State) (l : List HostAction) : (s.accept l).pavalid = s.pavalid := rfl
@[simp] theorem State.accept_order (s : State) (l : List HostAction) : (s.accept l).order = s.order := rfl
@[simp] theorem State.accept_eie (s : State) (l : List HostAction) : (s.accept l).eie = s.eie := rfl
@[simp] theorem State.accept_record (s : State) (l : List HostAction) : (s.accept l).record = s.record := rfl
@[simp] theorem State.accept_a0 (s : State) (l : List HostAction) : (s.accept l).a0 = s.a0 := rfl
@[simp] theorem State.accept_a1 (s : State) (l : List HostAction) : (s.accept l).a1 = s.a1 := rfl
@[simp] theorem State.accept_res (s : State) (l : List HostAction) : (s.accept l).res = s.res := rfl
@[simp] theorem State.accept_bpos (s : State) (l : List HostAction) : (s.accept l).bpos = s.bpos := rfl
@[simp] theorem State.accept_blim (s : State) (l : List HostAction) : (s.accept l).blim = s.blim := rfl
@[simp] theorem State.accept_blen (s : State) (l : List HostAction) : (s.accept l).blen = s.blen := rfl
@[simp] theorem State.accept_cols (s : State) (l : List HostAction) : (s.accept l).cols = s.cols := rfl
@[simp] theorem State.accept_rows (s : State) (l : List HostAction) : (s.accept l).rows = s.rows := rfl
@[simp] theorem State.accept_stride (s : State) (l : List HostAction) : (s.accept l).stride = s.stride := rfl
@[simp] theorem State.accept_pbase (s : State) (l : List HostAction) : (s.accept l).pbase = s.pbase := rfl
@[simp] theorem State.accept_seed (s : State) (l : List HostAction) : (s.accept l).seed = s.seed := rfl
@[simp] theorem State.accept_psize (s : State) (l : List HostAction) : (s.accept l).psize = s.psize := rfl
@[simp] theorem State.accept_paddr (s : State) (l : List HostAction) : (s.accept l).paddr = s.paddr := rfl
@[simp] theorem State.accept_ibuf (s : State) (l : List HostAction) : (s.accept l).ibuf = s.ibuf := rfl
@[simp] theorem State.accept_ctab (s : State) (l : List HostAction) : (s.accept l).ctab = s.ctab := rfl
@[simp] theorem State.accept_arena (s : State) (l : List HostAction) : (s.accept l).arena = s.arena := rfl
@[simp] theorem State.accept_obuf (s : State) (l : List HostAction) : (s.accept l).obuf = s.obuf := rfl
@[simp] theorem State.accept_host (s : State) (l : List HostAction) : (s.accept l).host = l := rfl
@[simp] theorem State.accept_bus (s : State) (l : List HostAction) : (s.accept l).bus = .done := rfl

/-! ### State.respond -/

@[simp] theorem State.respond_cfg (s : State) (r : BusResponse) : (s.respond r).cfg = s.cfg := rfl
@[simp] theorem State.respond_err (s : State) (r : BusResponse) : (s.respond r).err = s.err := rfl
@[simp] theorem State.respond_lost (s : State) (r : BusResponse) : (s.respond r).lost = s.lost := rfl
@[simp] theorem State.respond_pavalid (s : State) (r : BusResponse) : (s.respond r).pavalid = s.pavalid := rfl
@[simp] theorem State.respond_order (s : State) (r : BusResponse) : (s.respond r).order = s.order := rfl
@[simp] theorem State.respond_eie (s : State) (r : BusResponse) : (s.respond r).eie = s.eie := rfl
@[simp] theorem State.respond_record (s : State) (r : BusResponse) : (s.respond r).record = s.record := rfl
@[simp] theorem State.respond_a0 (s : State) (r : BusResponse) : (s.respond r).a0 = s.a0 := rfl
@[simp] theorem State.respond_a1 (s : State) (r : BusResponse) : (s.respond r).a1 = s.a1 := rfl
@[simp] theorem State.respond_res (s : State) (r : BusResponse) : (s.respond r).res = s.res := rfl
@[simp] theorem State.respond_bpos (s : State) (r : BusResponse) : (s.respond r).bpos = s.bpos := rfl
@[simp] theorem State.respond_blim (s : State) (r : BusResponse) : (s.respond r).blim = s.blim := rfl
@[simp] theorem State.respond_blen (s : State) (r : BusResponse) : (s.respond r).blen = s.blen := rfl
@[simp] theorem State.respond_cols (s : State) (r : BusResponse) : (s.respond r).cols = s.cols := rfl
@[simp] theorem State.respond_rows (s : State) (r : BusResponse) : (s.respond r).rows = s.rows := rfl
@[simp] theorem State.respond_stride (s : State) (r : BusResponse) : (s.respond r).stride = s.stride := rfl
@[simp] theorem State.respond_pbase (s : State) (r : BusResponse) : (s.respond r).pbase = s.pbase := rfl
@[simp] theorem State.respond_seed (s : State) (r : BusResponse) : (s.respond r).seed = s.seed := rfl
@[simp] theorem State.respond_psize (s : State) (r : BusResponse) : (s.respond r).psize = s.psize := rfl
@[simp] theorem State.respond_paddr (s : State) (r : BusResponse) : (s.respond r).paddr = s.paddr := rfl
@[simp] theorem State.respond_ibuf (s : State) (r : BusResponse) : (s.respond r).ibuf = s.ibuf := rfl
@[simp] theorem State.respond_ctab (s : State) (r : BusResponse) : (s.respond r).ctab = s.ctab := rfl
@[simp] theorem State.respond_arena (s : State) (r : BusResponse) : (s.respond r).arena = s.arena := rfl
@[simp] theorem State.respond_obuf (s : State) (r : BusResponse) : (s.respond r).obuf = s.obuf := rfl
@[simp] theorem State.respond_host (s : State) (r : BusResponse) : (s.respond r).host = s.host := rfl
@[simp] theorem State.respond_bus (s : State) (r : BusResponse) : (s.respond r).bus = r := rfl

/-! ### State.clearPavalid -/

@[simp] theorem State.clearPavalid_cfg (s : State) : (s.clearPavalid).cfg = s.cfg := rfl
@[simp] theorem State.clearPavalid_err (s : State) : (s.clearPavalid).err = s.err := rfl
@[simp] theorem State.clearPavalid_lost (s : State) : (s.clearPavalid).lost = s.lost := rfl
@[simp] theorem State.clearPavalid_pavalid (s : State) : (s.clearPavalid).pavalid = false := rfl
@[simp] theorem State.clearPavalid_order (s : State) : (s.clearPavalid).order = s.order := rfl
@[simp] theorem State.clearPavalid_eie (s : State) : (s.clearPavalid).eie = s.eie := rfl
@[simp] theorem State.clearPavalid_record (s : State) : (s.clearPavalid).record = s.record := rfl
@[simp] theorem State.clearPavalid_a0 (s : State) : (s.clearPavalid).a0 = s.a0 := rfl
@[simp] theorem State.clearPavalid_a1 (s : State) : (s.clearPavalid).a1 = s.a1 := rfl
@[simp] theorem State.clearPavalid_res (s : State) : (s.clearPavalid).res = s.res := rfl
@[simp] theorem State.clearPavalid_bpos (s : State) : (s.clearPavalid).bpos = s.bpos := rfl
@[simp] theorem State.clearPavalid_blim (s : State) : (s.clearPavalid).blim = s.blim := rfl
@[simp] theorem State.clearPavalid_blen (s : State) : (s.clearPavalid).blen = s.blen := rfl
@[simp] theorem State.clearPavalid_cols (s : State) : (s.clearPavalid).cols = s.cols := rfl
@[simp] theorem State.clearPavalid_rows (s : State) : (s.clearPavalid).rows = s.rows := rfl
@[simp] theorem State.clearPavalid_stride (s : State) : (s.clearPavalid).stride = s.stride := rfl
@[simp] theorem State.clearPavalid_pbase (s : State) : (s.clearPavalid).pbase = s.pbase := rfl
@[simp] theorem State.clearPavalid_seed (s : State) : (s.clearPavalid).seed = s.seed := rfl
@[simp] theorem State.clearPavalid_psize (s : State) : (s.clearPavalid).psize = s.psize := rfl
@[simp] theorem State.clearPavalid_paddr (s : State) : (s.clearPavalid).paddr = s.paddr := rfl
@[simp] theorem State.clearPavalid_ibuf (s : State) : (s.clearPavalid).ibuf = s.ibuf := rfl
@[simp] theorem State.clearPavalid_ctab (s : State) : (s.clearPavalid).ctab = s.ctab := rfl
@[simp] theorem State.clearPavalid_arena (s : State) : (s.clearPavalid).arena = s.arena := rfl
@[simp] theorem State.clearPavalid_obuf (s : State) : (s.clearPavalid).obuf = s.obuf := rfl
@[simp] theorem State.clearPavalid_host (s : State) : (s.clearPavalid).host = s.host := rfl
@[simp] theorem State.clearPavalid_bus (s : State) : (s.clearPavalid).bus = s.bus := rfl

/-! ### State.commit -/

@[simp] theorem State.commit_cfg (s : State) (p : Fin 3) (rs : List (List Half)) : (s.commit p rs).cfg = s.cfg := rfl
@[simp] theorem State.commit_err (s : State) (p : Fin 3) (rs : List (List Half)) : (s.commit p rs).err = s.err := rfl
@[simp] theorem State.commit_lost (s : State) (p : Fin 3) (rs : List (List Half)) : (s.commit p rs).lost = s.lost := rfl
@[simp] theorem State.commit_pavalid (s : State) (p : Fin 3) (rs : List (List Half)) : (s.commit p rs).pavalid = s.pavalid := rfl
@[simp] theorem State.commit_order (s : State) (p : Fin 3) (rs : List (List Half)) : (s.commit p rs).order = s.order := rfl
@[simp] theorem State.commit_eie (s : State) (p : Fin 3) (rs : List (List Half)) : (s.commit p rs).eie = s.eie := rfl
@[simp] theorem State.commit_record (s : State) (p : Fin 3) (rs : List (List Half)) : (s.commit p rs).record = s.record := rfl
@[simp] theorem State.commit_a0 (s : State) (p : Fin 3) (rs : List (List Half)) : (s.commit p rs).a0 = s.a0 := rfl
@[simp] theorem State.commit_a1 (s : State) (p : Fin 3) (rs : List (List Half)) : (s.commit p rs).a1 = s.a1 := rfl
@[simp] theorem State.commit_res (s : State) (p : Fin 3) (rs : List (List Half)) : (s.commit p rs).res = s.res := rfl
@[simp] theorem State.commit_bpos (s : State) (p : Fin 3) (rs : List (List Half)) : (s.commit p rs).bpos = s.bpos := rfl
@[simp] theorem State.commit_blim (s : State) (p : Fin 3) (rs : List (List Half)) : (s.commit p rs).blim = s.blim := rfl
@[simp] theorem State.commit_blen (s : State) (p : Fin 3) (rs : List (List Half)) : (s.commit p rs).blen = s.blen := rfl
@[simp] theorem State.commit_cols (s : State) (p : Fin 3) (rs : List (List Half)) : (s.commit p rs).cols = s.cols := rfl
@[simp] theorem State.commit_rows (s : State) (p : Fin 3) (rs : List (List Half)) : (s.commit p rs).rows = s.rows := rfl
@[simp] theorem State.commit_stride (s : State) (p : Fin 3) (rs : List (List Half)) : (s.commit p rs).stride = s.stride := rfl
@[simp] theorem State.commit_pbase (s : State) (p : Fin 3) (rs : List (List Half)) : (s.commit p rs).pbase = s.pbase := rfl
@[simp] theorem State.commit_seed (s : State) (p : Fin 3) (rs : List (List Half)) : (s.commit p rs).seed = s.seed := rfl
@[simp] theorem State.commit_psize (s : State) (p : Fin 3) (rs : List (List Half)) : (s.commit p rs).psize = s.psize := rfl
@[simp] theorem State.commit_paddr (s : State) (p : Fin 3) (rs : List (List Half)) : (s.commit p rs).paddr = s.paddr := rfl
@[simp] theorem State.commit_ibuf (s : State) (p : Fin 3) (rs : List (List Half)) : (s.commit p rs).ibuf = s.ibuf := rfl
@[simp] theorem State.commit_ctab (s : State) (p : Fin 3) (rs : List (List Half)) : (s.commit p rs).ctab = s.ctab := rfl
@[simp] theorem State.commit_arena (s : State) (p : Fin 3) (rs : List (List Half)) : (s.commit p rs).arena = s.arena := rfl
@[simp] theorem State.commit_obuf (s : State) (p : Fin 3) (rs : List (List Half)) : (s.commit p rs).obuf = commitRows s.stride.toNat p 0 rs s.obuf := rfl
@[simp] theorem State.commit_host (s : State) (p : Fin 3) (rs : List (List Half)) : (s.commit p rs).host = s.host := rfl
@[simp] theorem State.commit_bus (s : State) (p : Fin 3) (rs : List (List Half)) : (s.commit p rs).bus = s.bus := rfl

/-! ### State.endPlane -/

@[simp] theorem State.endPlane_cfg (s : State) (p : Fin 3) (out : PlaneOut) : (s.endPlane p out).cfg = s.cfg := rfl
@[simp] theorem State.endPlane_err (s : State) (p : Fin 3) (out : PlaneOut) : (s.endPlane p out).err = s.err := rfl
@[simp] theorem State.endPlane_lost (s : State) (p : Fin 3) (out : PlaneOut) : (s.endPlane p out).lost = s.lost := rfl
@[simp] theorem State.endPlane_pavalid (s : State) (p : Fin 3) (out : PlaneOut) : (s.endPlane p out).pavalid = s.pavalid := rfl
@[simp] theorem State.endPlane_order (s : State) (p : Fin 3) (out : PlaneOut) : (s.endPlane p out).order = .msb := rfl
@[simp] theorem State.endPlane_eie (s : State) (p : Fin 3) (out : PlaneOut) : (s.endPlane p out).eie = s.eie := rfl
@[simp] theorem State.endPlane_record (s : State) (p : Fin 3) (out : PlaneOut) : (s.endPlane p out).record = s.record := rfl
@[simp] theorem State.endPlane_a0 (s : State) (p : Fin 3) (out : PlaneOut) : (s.endPlane p out).a0 = s.a0 := rfl
@[simp] theorem State.endPlane_a1 (s : State) (p : Fin 3) (out : PlaneOut) : (s.endPlane p out).a1 = s.a1 := rfl
@[simp] theorem State.endPlane_res (s : State) (p : Fin 3) (out : PlaneOut) : (s.endPlane p out).res = s.res := rfl
@[simp] theorem State.endPlane_bpos (s : State) (p : Fin 3) (out : PlaneOut) : (s.endPlane p out).bpos = BitVec.ofNat 32 out.pos := rfl
@[simp] theorem State.endPlane_blim (s : State) (p : Fin 3) (out : PlaneOut) : (s.endPlane p out).blim = BitVec.ofNat 32 (s.planeLimit p) := rfl
@[simp] theorem State.endPlane_blen (s : State) (p : Fin 3) (out : PlaneOut) : (s.endPlane p out).blen = s.blen := rfl
@[simp] theorem State.endPlane_cols (s : State) (p : Fin 3) (out : PlaneOut) : (s.endPlane p out).cols = s.cols := rfl
@[simp] theorem State.endPlane_rows (s : State) (p : Fin 3) (out : PlaneOut) : (s.endPlane p out).rows = s.rows := rfl
@[simp] theorem State.endPlane_stride (s : State) (p : Fin 3) (out : PlaneOut) : (s.endPlane p out).stride = s.stride := rfl
@[simp] theorem State.endPlane_pbase (s : State) (p : Fin 3) (out : PlaneOut) : (s.endPlane p out).pbase = s.pbase := rfl
@[simp] theorem State.endPlane_seed (s : State) (p : Fin 3) (out : PlaneOut) : (s.endPlane p out).seed = s.seed := rfl
@[simp] theorem State.endPlane_psize (s : State) (p : Fin 3) (out : PlaneOut) : (s.endPlane p out).psize = s.psize := rfl
@[simp] theorem State.endPlane_paddr (s : State) (p : Fin 3) (out : PlaneOut) : (s.endPlane p out).paddr = s.paddr := rfl
@[simp] theorem State.endPlane_ibuf (s : State) (p : Fin 3) (out : PlaneOut) : (s.endPlane p out).ibuf = s.ibuf := rfl
@[simp] theorem State.endPlane_ctab (s : State) (p : Fin 3) (out : PlaneOut) : (s.endPlane p out).ctab = s.ctab := rfl
@[simp] theorem State.endPlane_arena (s : State) (p : Fin 3) (out : PlaneOut) : (s.endPlane p out).arena = out.arena := rfl
@[simp] theorem State.endPlane_obuf (s : State) (p : Fin 3) (out : PlaneOut) : (s.endPlane p out).obuf = s.obuf := rfl
@[simp] theorem State.endPlane_host (s : State) (p : Fin 3) (out : PlaneOut) : (s.endPlane p out).host = s.host := rfl
@[simp] theorem State.endPlane_bus (s : State) (p : Fin 3) (out : PlaneOut) : (s.endPlane p out).bus = s.bus := rfl

/-! ### State.resetRegisters -/

@[simp] theorem State.resetRegisters_cfg (s : State) : s.resetRegisters.cfg = s.cfg := rfl
@[simp] theorem State.resetRegisters_err (s : State) : s.resetRegisters.err = false := rfl
@[simp] theorem State.resetRegisters_lost (s : State) : s.resetRegisters.lost = false := rfl
@[simp] theorem State.resetRegisters_pavalid (s : State) : s.resetRegisters.pavalid = false := rfl
@[simp] theorem State.resetRegisters_order (s : State) : s.resetRegisters.order = .msb := rfl
@[simp] theorem State.resetRegisters_eie (s : State) : s.resetRegisters.eie = false := rfl
@[simp] theorem State.resetRegisters_record (s : State) : s.resetRegisters.record = ErrorRecord.zero := rfl
@[simp] theorem State.resetRegisters_a0 (s : State) : s.resetRegisters.a0 = 0#32 := rfl
@[simp] theorem State.resetRegisters_a1 (s : State) : s.resetRegisters.a1 = 0#32 := rfl
@[simp] theorem State.resetRegisters_res (s : State) : s.resetRegisters.res = 0#32 := rfl
@[simp] theorem State.resetRegisters_bpos (s : State) : s.resetRegisters.bpos = 0#32 := rfl
@[simp] theorem State.resetRegisters_blim (s : State) : s.resetRegisters.blim = 0#32 := rfl
@[simp] theorem State.resetRegisters_blen (s : State) : s.resetRegisters.blen = 0#32 := rfl
@[simp] theorem State.resetRegisters_cols (s : State) : s.resetRegisters.cols = 0#16 := rfl
@[simp] theorem State.resetRegisters_rows (s : State) : s.resetRegisters.rows = 0#16 := rfl
@[simp] theorem State.resetRegisters_stride (s : State) : s.resetRegisters.stride = 0#32 := rfl
@[simp] theorem State.resetRegisters_pbase (s : State) : s.resetRegisters.pbase = 0#32 := rfl
@[simp] theorem State.resetRegisters_seed (s : State) : s.resetRegisters.seed = #v[0#16, 0#16, 0#16] := rfl
@[simp] theorem State.resetRegisters_psize (s : State) : s.resetRegisters.psize = #v[0#32, 0#32, 0#32] := rfl
@[simp] theorem State.resetRegisters_paddr (s : State) : s.resetRegisters.paddr = #v[0#32, 0#32, 0#32] := rfl
@[simp] theorem State.resetRegisters_ibuf (s : State) : s.resetRegisters.ibuf = s.ibuf := rfl
@[simp] theorem State.resetRegisters_ctab (s : State) : s.resetRegisters.ctab = s.ctab := rfl
@[simp] theorem State.resetRegisters_arena (s : State) : s.resetRegisters.arena = [Node.empty] := rfl
@[simp] theorem State.resetRegisters_obuf (s : State) : s.resetRegisters.obuf = s.obuf := rfl
@[simp] theorem State.resetRegisters_host (s : State) : s.resetRegisters.host = s.host := rfl
@[simp] theorem State.resetRegisters_bus (s : State) : s.resetRegisters.bus = s.bus := rfl

/-! ### The window of a plane does not move when a plane is published -/

@[simp] theorem State.commit_planeStart (s : State) (p q : Fin 3) (rs : List (List Half)) :
    (s.commit p rs).planeStart q = s.planeStart q := rfl
@[simp] theorem State.commit_planeLimit (s : State) (p q : Fin 3) (rs : List (List Half)) :
    (s.commit p rs).planeLimit q = s.planeLimit q := rfl

end Sys2Proof.Machine
end

