-- ==== Sys2Proof/Laws/Result.lean ====
section
/-! SUPPORT. What the result of a helper can be: `Result.bind`, `Result.mapRaise`, and `finish`, the one end of every
command. Proofs take a command apart with these and never unfold them. -/

namespace Sys2Proof.Machine

variable {α β : Type}

@[simp] theorem Result.bind_ok (a : α) (f : α → Result β) : (Result.ok a).bind f = f a := rfl
@[simp] theorem Result.bind_raised (e : Raise) (f : α → Result β) : (Result.raised e).bind f = .raised e := rfl
@[simp] theorem Result.bind_fault (x : Fault) (f : α → Result β) : (Result.fault x : Result α).bind f = .fault x := rfl

@[simp] theorem Result.mapRaise_ok (a : α) (g : Raise → Raise) : (Result.ok a).mapRaise g = .ok a := rfl
@[simp] theorem Result.mapRaise_raised (e : Raise) (g : Raise → Raise) :
    (Result.raised e : Result α).mapRaise g = .raised (g e) := rfl
@[simp] theorem Result.mapRaise_fault (x : Fault) (g : Raise → Raise) :
    (Result.fault x : Result α).mapRaise g = .fault x := rfl

/-- A chain answers a value exactly when both its parts do. -/
theorem Result.bind_eq_ok {r : Result α} {f : α → Result β} {b : β} :
    r.bind f = .ok b ↔ ∃ a, r = .ok a ∧ f a = .ok b := by
  cases r <;> simp

/-- A chain raises exactly when its first part does, or its second part does on the first one's value. -/
theorem Result.bind_eq_raised {r : Result α} {f : α → Result β} {e : Raise} :
    r.bind f = .raised e ↔ r = .raised e ∨ ∃ a, r = .ok a ∧ f a = .raised e := by
  cases r <;> simp

/-- A chain faults exactly when its first part does, or its second part does on the first one's value. -/
theorem Result.bind_eq_fault {r : Result α} {f : α → Result β} {x : Fault} :
    r.bind f = .fault x ↔ r = .fault x ∨ ∃ a, r = .ok a ∧ f a = .fault x := by
  cases r <;> simp

theorem Result.mapRaise_eq_ok {r : Result α} {g : Raise → Raise} {a : α} : r.mapRaise g = .ok a ↔ r = .ok a := by
  cases r <;> simp

theorem Result.mapRaise_eq_raised {r : Result α} {g : Raise → Raise} {e : Raise} :
    r.mapRaise g = .raised e ↔ ∃ e', r = .raised e' ∧ e = g e' := by
  cases r <;> simp [eq_comm]

theorem Result.mapRaise_eq_fault {r : Result α} {g : Raise → Raise} {x : Fault} :
    r.mapRaise g = .fault x ↔ r = .fault x := by
  cases r <;> simp

@[simp] theorem finish_ok (s t : State) : finish s (.ok t) = .next t := rfl
@[simp] theorem finish_raised (s : State) (e : Raise) : finish s (.raised e) = .next (s.takeError e) := rfl
@[simp] theorem finish_fault (s : State) (x : Fault) : finish s (.fault x) = .fault x := rfl

/-- Everything a command that answers a next state can have done: its rule computed it, or it raised (R112, R204). -/
theorem finish_eq_next {s t : State} {r : Result State} :
    finish s r = .next t ↔ r = .ok t ∨ ∃ e, r = .raised e ∧ t = s.takeError e := by
  cases r <;> simp [eq_comm]

theorem finish_eq_fault {s : State} {r : Result State} {x : Fault} : finish s r = .fault x ↔ r = .fault x := by
  cases r <;> simp

theorem finish_ne_refused {s : State} {r : Result State} {q : Refusal} : finish s r ≠ .refused q := by
  cases r <;> simp

end Sys2Proof.Machine
end

