-- ==== Sys2Proof/Laws/Reader.lean ====
section
/-! SUPPORT. What StreamBit and ReadBits can do (R130, R131). -/

namespace Sys2Proof.Machine

variable {cfg : Config} {ibuf : Memory 8} {n pos lim : Nat} {order : BitOrder}

/-! ### The value of a read -/

theorem bitsMsb_succ (ibuf : Memory 8) (pos n : Nat) :
    bitsMsb ibuf pos (n + 1) = 2 * bitsMsb ibuf pos n + (streamBit ibuf (pos + n) .msb).toNat := by
  have h : (streamBit ibuf (pos + n) .msb).toNat < 2 ^ 1 := by cases streamBit ibuf (pos + n) .msb <;> decide
  rw [bitsMsb, ← Nat.shiftLeft_add_eq_or_of_lt h, Nat.shiftLeft_eq]
  omega

theorem bitsLsb_lt (ibuf : Memory 8) (pos n : Nat) : bitsLsb ibuf pos n < 2 ^ n := by
  induction n with
  | zero => simp [bitsLsb]
  | succ n ih =>
    apply Nat.or_lt_two_pow
    · exact Nat.lt_of_lt_of_le ih (Nat.pow_le_pow_right (by decide) (Nat.le_succ n))
    · rw [Nat.shiftLeft_eq, Nat.pow_succ]
      cases streamBit ibuf (pos + n) .lsb <;> simp

theorem bitsLsb_succ (ibuf : Memory 8) (pos n : Nat) :
    bitsLsb ibuf pos (n + 1) = bitsLsb ibuf pos n + (streamBit ibuf (pos + n) .lsb).toNat * 2 ^ n := by
  rw [bitsLsb, Nat.or_comm, ← Nat.shiftLeft_add_eq_or_of_lt (bitsLsb_lt ibuf pos n), Nat.shiftLeft_eq, Nat.add_comm]

theorem bitsMsb_lt (ibuf : Memory 8) (pos n : Nat) : bitsMsb ibuf pos n < 2 ^ n := by
  induction n with
  | zero => simp [bitsMsb]
  | succ n ih =>
    have h := Bool.toNat_le (streamBit ibuf (pos + n) .msb)
    rw [bitsMsb_succ, Nat.pow_succ]
    omega

/-- A read of `n` bits gives a value below 2^n (R131). -/
theorem streamBits_lt : streamBits ibuf n pos order < 2 ^ n := by
  cases order
  · exact bitsMsb_lt ibuf pos n
  · exact bitsLsb_lt ibuf pos n

/-- A read of one bit is that bit, in both orders. -/
theorem streamBits_one : streamBits ibuf 1 pos order = (streamBit ibuf pos order).toNat := by
  cases order <;> simp [streamBits, bitsMsb, bitsLsb]

/-! ### What ReadBits can do -/

/-- If ReadBits answers, the bits lie inside the window and inside IBUF, and it answers their value. -/
theorem readBits_eq_ok {v pos' : Nat} :
    readBits cfg ibuf n pos lim order = .ok (v, pos') ↔
      pos + n ≤ lim ∧ pos + n ≤ 8 * cfg.ibufBytes ∧ v = streamBits ibuf n pos order ∧ pos' = pos + n := by
  unfold readBits
  split
  · simp; omega
  · split
    · simp; omega
    · simp only [Result.ok.injEq, Prod.mk.injEq]
      constructor
      · rintro ⟨rfl, rfl⟩; exact ⟨by omega, by omega, rfl, rfl⟩
      · rintro ⟨-, -, rfl, rfl⟩; exact ⟨rfl, rfl⟩

/-- ReadBits raises only TruncatedStream, when fewer than `n` bits remain (R131). -/
theorem readBits_eq_raised {e : Raise} :
    readBits cfg ibuf n pos lim order = .raised e ↔
      lim < pos + n ∧ e = { cause := .truncatedStream, pos := pos, exp := n, fnd := lim - pos } := by
  unfold readBits
  split
  · simp_all [eq_comm]
  · split <;> simp_all

/-- ReadBits faults only where a bit of the window lies outside IBUF. -/
theorem readBits_eq_fault {x : Fault} :
    readBits cfg ibuf n pos lim order = .fault x ↔
      pos + n ≤ lim ∧ 8 * cfg.ibufBytes < pos + n ∧ x = .ibufOutOfRange := by
  unfold readBits
  split
  · simp; omega
  · split
    · simp_all [eq_comm]
    · simp; omega

/-- Inside the window and IBUF, ReadBits answers. -/
theorem readBits_inside (h : pos + n ≤ lim) (hi : pos + n ≤ 8 * cfg.ibufBytes) :
    readBits cfg ibuf n pos lim order = .ok (streamBits ibuf n pos order, pos + n) :=
  readBits_eq_ok.2 ⟨h, hi, rfl, rfl⟩

/-- Past the window, ReadBits raises. -/
theorem readBits_past (h : lim < pos + n) :
    readBits cfg ibuf n pos lim order =
      .raised { cause := .truncatedStream, pos := pos, exp := n, fnd := lim - pos } :=
  readBits_eq_raised.2 ⟨h, rfl⟩

/-! ### Lists of stream bits -/

@[simp] theorem streamList_length : (streamList ibuf order pos n).length = n := by simp [streamList]

@[simp] theorem streamList_zero : streamList ibuf order pos 0 = [] := rfl

theorem streamList_succ :
    streamList ibuf order pos (n + 1) = streamBit ibuf pos order :: streamList ibuf order (pos + 1) n := by
  simp only [streamList, List.range_succ_eq_map, List.map_cons, List.map_map, Nat.add_zero]
  congr 1
  apply List.map_congr_left
  intro i _
  simp only [Function.comp_apply, Nat.succ_eq_add_one]
  congr 1
  omega

@[simp] theorem codeBits_length (n : Nat) (code : Word) : (codeBits n code).length = n := by
  induction n with
  | zero => rfl
  | succ n ih => simp [codeBits, ih]

end Sys2Proof.Machine
end

