-- ==== Sys2Proof/Laws/Tree.lean ====
section
/-! SUPPORT. Nodes and paths (R59, R61): child words, `walk`, and what a well-formed arena says of them. -/

namespace Sys2Proof.Machine

variable {cfg : Config} {arena : List Node}

/-! ### Nodes -/

@[simp] theorem Node.child_empty (b : Bool) : Node.empty.child b = nil32 := by cases b <;> rfl
@[simp] theorem Node.leaf_empty : Node.empty.leaf = undefinedLeaf := rfl
@[simp] theorem Node.childless_empty : Node.empty.childless = true := by decide

@[simp] theorem Node.child_setChild_self (nd : Node) (b : Bool) (m : Word) : (nd.setChild b m).child b = m := by
  cases b <;> rfl

theorem Node.child_setChild_ne {nd : Node} {b c : Bool} {m : Word} (h : c ≠ b) :
    (nd.setChild b m).child c = nd.child c := by
  cases b <;> cases c <;> first | rfl | exact absurd rfl h

@[simp] theorem Node.leaf_setChild (nd : Node) (b : Bool) (m : Word) : (nd.setChild b m).leaf = nd.leaf := by
  cases b <;> rfl

@[simp] theorem Node.child_withLeaf (nd : Node) (b : Bool) (w : Word) : Node.child { nd with leaf := w } b = nd.child b := by
  cases b <;> rfl

/-- A node is childless exactly when both its children are NIL. -/
theorem Node.childless_iff {nd : Node} : nd.childless = true ↔ ∀ b, nd.child b = nil32 := by
  simp [Node.childless, Node.child]

/-- A node with a child is not childless. -/
theorem Node.not_childless {nd : Node} {b : Bool} (h : nd.child b ≠ nil32) : nd.childless = false := by
  cases hc : nd.childless with
  | false => rfl
  | true => exact absurd (Node.childless_iff.1 hc b) h

theorem Node.childless_or {nd : Node} : (nd.c0 ≠ nil32 ∨ nd.c1 ≠ nil32) ↔ nd.childless = false := by
  simp [Node.childless]
  tauto

@[simp] theorem Node.childless_withLeaf (nd : Node) (w : Word) : Node.childless { nd with leaf := w } = nd.childless := rfl

/-- A node index of a well-formed arena is never NIL. -/
theorem index_ne_nil {m : Nat} (h : m < 2 ^ 32 - 1) : BitVec.ofNat 32 m ≠ nil32 := by
  intro he
  have := congrArg BitVec.toNat he
  rw [BitVec.toNat_ofNat, Nat.mod_eq_of_lt (by omega)] at this
  have h2 : nil32.toNat = 2 ^ 32 - 1 := by decide
  omega

theorem nil32_toNat : nil32.toNat = 2 ^ 32 - 1 := by decide

/-! ### Paths -/

@[simp] theorem walk_nil (arena : List Node) (k : Nat) : walk arena [] k = some k := rfl

/-- A path goes on exactly when the child on its first bit exists. -/
theorem walk_cons {b : Bool} {bs : List Bool} {k k' : Nat} :
    walk arena (b :: bs) k = some k' ↔
      ∃ nd, arena[k]? = some nd ∧ nd.child b ≠ nil32 ∧ walk arena bs (nd.child b).toNat = some k' := by
  simp only [walk]
  cases h : arena[k]? with
  | none => simp
  | some nd =>
    by_cases hb : nd.child b = nil32 <;> simp [hb]

/-- Two paths one after the other. -/
theorem walk_append {as bs : List Bool} {k k' : Nat} :
    walk arena (as ++ bs) k = some k' ↔ ∃ m, walk arena as k = some m ∧ walk arena bs m = some k' := by
  induction as generalizing k with
  | nil => simp
  | cons a as ih =>
    simp only [List.cons_append, walk_cons, ih]
    constructor
    · rintro ⟨nd, h1, h2, m, h3, h4⟩; exact ⟨m, ⟨nd, h1, h2, h3⟩, h4⟩
    · rintro ⟨m, ⟨nd, h1, h2, h3⟩, h4⟩; exact ⟨nd, h1, h2, m, h3, h4⟩

/-- In a well-formed arena a path of `n` edges climbs at least `n` node indices and stays inside the arena. -/
theorem ArenaWf.walk_range (h : ArenaWf cfg arena) {bs : List Bool} {k k' : Nat} (hk : k < arena.length)
    (hw : walk arena bs k = some k') : k + bs.length ≤ k' ∧ k' < arena.length := by
  induction bs generalizing k with
  | nil => simp only [walk_nil, Option.some.injEq] at hw; subst hw; exact ⟨by simp, hk⟩
  | cons b bs ih =>
    obtain ⟨nd, hnd, hb, hw⟩ := walk_cons.1 hw
    obtain ⟨h1, h2⟩ := h.childRange k nd b hnd hb
    obtain ⟨h3, h4⟩ := ih h2 hw
    exact ⟨by simp only [List.length_cons]; omega, h4⟩

/-- The empty tree is well formed (R70, R151). -/
theorem ArenaWf.empty (h : 1 ≤ cfg.nodeMax) : ArenaWf cfg [Node.empty] where
  nonempty := by simp
  fits := by simpa using h
  childRange := by
    intro k nd b hk hb
    rcases k with _ | k
    · simp only [List.getElem?_cons_zero, Option.some.injEq] at hk; subst hk; simp at hb
    · simp at hk
  oneParent := by intro m h1 h2; simp only [List.length_singleton] at h2; omega
  innerNoSymbol := by
    intro k nd hk hc
    rcases k with _ | k
    · simp only [List.getElem?_cons_zero, Option.some.injEq] at hk; subst hk; simp at hc
    · simp at hk
  symbolRange := by
    intro k nd hk
    rcases k with _ | k
    · simp only [List.getElem?_cons_zero, Option.some.injEq] at hk; subst hk; simp
    · simp at hk
  leafSymbol := by
    intro k nd h1 hk
    rcases k with _ | k
    · omega
    · simp at hk

end Sys2Proof.Machine
end

