-- ==== Sys2Proof/Laws/Descend.lean ====
section
/-! SUPPORT. What Descend can do (R154). -/

namespace Sys2Proof.Machine

variable {cfg : Config} {ibuf : Memory 8} {arena : List Node} {lim : Nat} {order : BitOrder}

/-- One turn of the loop of Descend at a childless node. -/
theorem descendFrom_leaf {fuel k pos : Nat} {nd : Node} (hk : arena[k]? = some nd) (hc : nd.childless = true) :
    descendFrom cfg ibuf arena lim order fuel k pos =
      if nd.leaf = undefinedLeaf then .raised { cause := .undefinedLeaf, pos := pos, exp := 0, fnd := k }
      else .ok (nd.leaf, pos) := by
  cases fuel <;> simp [descendFrom, hk, hc]

/-- One turn of the loop of Descend at a node with a child, with a bit left in the window. -/
theorem descendFrom_edge {fuel k pos : Nat} {nd : Node} (hk : arena[k]? = some nd) (hc : nd.childless = false)
    (hl : pos + 1 ≤ lim) (hi : pos + 1 ≤ 8 * cfg.ibufBytes) :
    descendFrom cfg ibuf arena lim order (fuel + 1) k pos =
      if nd.child (streamBit ibuf pos order) = nil32 then
        .raised { cause := .absentBranch, pos := pos, exp := (streamBit ibuf pos order).toNat, fnd := k }
      else descendFrom cfg ibuf arena lim order fuel (nd.child (streamBit ibuf pos order)).toNat (pos + 1) := by
  rw [descendFrom]
  simp only [hk, hc, Bool.false_eq_true, if_false, readBits_inside hl hi, Result.bind_ok, streamBits_one]
  cases streamBit ibuf pos order <;> simp

/-- One turn of the loop of Descend at a node with a child, at the end of the window. -/
theorem descendFrom_end {fuel k pos : Nat} {nd : Node} (hk : arena[k]? = some nd) (hc : nd.childless = false)
    (hl : lim < pos + 1) :
    descendFrom cfg ibuf arena lim order (fuel + 1) k pos =
      .raised { cause := .truncatedStream, pos := pos, exp := 1, fnd := lim - pos } := by
  rw [descendFrom]
  simp only [hk, hc, Bool.false_eq_true, if_false, readBits_past hl, Result.bind_raised]

/-- If Descend answers a symbol from node `k`, the stream's bits lead from `k` to a childless node that carries it. -/
theorem descendFrom_ok {fuel k pos : Nat} {sym : Word} {pos' : Nat}
    (h : descendFrom cfg ibuf arena lim order fuel k pos = .ok (sym, pos')) :
    ∃ n k' nd, n ≤ fuel ∧ pos' = pos + n ∧ (n = 0 ∨ pos' ≤ lim ∧ pos' ≤ 8 * cfg.ibufBytes) ∧
      walk arena (streamList ibuf order pos n) k = some k' ∧
      arena[k']? = some nd ∧ nd.childless = true ∧ nd.leaf = sym ∧ sym ≠ undefinedLeaf := by
  induction fuel generalizing k pos with
  | zero =>
    cases hk : arena[k]? with
    | none => simp [descendFrom, hk] at h
    | some nd =>
      cases hc : nd.childless with
      | false => simp [descendFrom, hk, hc] at h
      | true =>
        rw [descendFrom_leaf hk hc] at h
        split at h
        · simp at h
        · next hu =>
          simp only [Result.ok.injEq, Prod.mk.injEq] at h
          obtain ⟨rfl, rfl⟩ := h
          exact ⟨0, k, nd, Nat.le_refl _, rfl, .inl rfl, rfl, hk, hc, rfl, hu⟩
  | succ fuel ih =>
    cases hk : arena[k]? with
    | none => simp [descendFrom, hk] at h
    | some nd =>
      cases hc : nd.childless with
      | true =>
        rw [descendFrom_leaf hk hc] at h
        split at h
        · simp at h
        · next hu =>
          simp only [Result.ok.injEq, Prod.mk.injEq] at h
          obtain ⟨rfl, rfl⟩ := h
          exact ⟨0, k, nd, by omega, rfl, .inl rfl, rfl, hk, hc, rfl, hu⟩
      | false =>
        rcases Nat.lt_or_ge lim (pos + 1) with hl | hl
        · rw [descendFrom_end hk hc hl] at h; simp at h
        · rcases Nat.lt_or_ge (8 * cfg.ibufBytes) (pos + 1) with hi | hi
          · rw [descendFrom] at h
            have := readBits_eq_fault (cfg := cfg) (ibuf := ibuf) (order := order) (x := .ibufOutOfRange)|>.2 ⟨hl, hi, rfl⟩
            simp [hk, hc, this] at h
          · rw [descendFrom_edge hk hc hl hi] at h
            split at h
            · simp at h
            · next hb =>
              obtain ⟨n, k', nd', h1, h2, h3, h4, h5⟩ := ih h
              refine ⟨n + 1, k', nd', by omega, by omega, .inr ?_, ?_, h5⟩
              · rcases h3 with h3 | h3 <;> omega
              · rw [streamList_succ, walk_cons]
                exact ⟨nd, hk, hb, h4⟩

/-- Where the stream's next bits lead from `k` to a childless node that carries a symbol, Descend answers it. -/
theorem descendFrom_walk {n fuel k pos k' : Nat} {nd : Node} (hn : n ≤ fuel) (hl : pos + n ≤ lim)
    (hi : pos + n ≤ 8 * cfg.ibufBytes) (hw : walk arena (streamList ibuf order pos n) k = some k')
    (hk : arena[k']? = some nd) (hc : nd.childless = true) (hu : nd.leaf ≠ undefinedLeaf) :
    descendFrom cfg ibuf arena lim order fuel k pos = .ok (nd.leaf, pos + n) := by
  induction n generalizing fuel k pos with
  | zero =>
    simp only [streamList_zero, walk_nil, Option.some.injEq] at hw
    subst hw
    rw [descendFrom_leaf hk hc, if_neg hu, Nat.add_zero]
  | succ n ih =>
    rw [streamList_succ] at hw
    obtain ⟨nk, hnk, hb, hw⟩ := walk_cons.1 hw
    obtain ⟨fuel, rfl⟩ : ∃ f, fuel = f + 1 := ⟨fuel - 1, by omega⟩
    rw [descendFrom_edge hnk (Node.not_childless hb) (by omega) (by omega), if_neg hb,
      ih (by omega) (by omega) (by omega) hw]
    congr 2
    omega

/-- In a well-formed arena, from a node in use, with fuel for every node above it and the window inside IBUF, Descend
never faults. -/
theorem descendFrom_no_fault (h : ArenaWf cfg arena) (hi : lim ≤ 8 * cfg.ibufBytes) {fuel k pos : Nat}
    (hk : k < arena.length) (hf : arena.length ≤ k + 1 + fuel) {x : Fault} :
    descendFrom cfg ibuf arena lim order fuel k pos ≠ .fault x := by
  induction fuel generalizing k pos with
  | zero =>
    have hnd : arena[k]? = some arena[k] := List.getElem?_eq_getElem hk
    cases hc : (arena[k]).childless with
    | true => rw [descendFrom_leaf hnd hc]; split <;> simp
    | false =>
      exfalso
      obtain ⟨b, hb⟩ : ∃ b, (arena[k]).child b ≠ nil32 := by
        by_contra hb
        push Not at hb
        rw [Node.childless_iff.2 hb] at hc
        cases hc
      have := h.childRange k _ b hnd hb
      omega
  | succ fuel ih =>
    have hnd : arena[k]? = some arena[k] := List.getElem?_eq_getElem hk
    cases hc : (arena[k]).childless with
    | true => rw [descendFrom_leaf hnd hc]; split <;> simp
    | false =>
      rcases Nat.lt_or_ge lim (pos + 1) with hl | hl
      · rw [descendFrom_end hnd hc hl]; simp
      · rw [descendFrom_edge hnd hc hl (by omega)]
        split
        · simp
        · next hb =>
          have := h.childRange k _ _ hnd hb
          exact ih this.2 (by omega)

/-- The three errors Descend can raise (R154, R217). -/
theorem descendFrom_raised {fuel k pos : Nat} {e : Raise}
    (h : descendFrom cfg ibuf arena lim order fuel k pos = .raised e) :
    (e.cause = .truncatedStream ∨ e.cause = .undefinedLeaf ∨ e.cause = .absentBranch) ∧
      e.plane = none ∧ e.sample = none := by
  induction fuel generalizing k pos with
  | zero =>
    cases hk : arena[k]? with
    | none => simp [descendFrom, hk] at h
    | some nd =>
      cases hc : nd.childless with
      | false => simp [descendFrom, hk, hc] at h
      | true => rw [descendFrom_leaf hk hc] at h; split at h <;> simp at h; subst h; simp
  | succ fuel ih =>
    cases hk : arena[k]? with
    | none => simp [descendFrom, hk] at h
    | some nd =>
      cases hc : nd.childless with
      | true => rw [descendFrom_leaf hk hc] at h; split at h <;> simp at h; subst h; simp
      | false =>
        rw [descendFrom] at h
        simp only [hk, hc, Bool.false_eq_true, if_false] at h
        rcases Result.bind_eq_raised.1 h with h | ⟨⟨b, p⟩, -, h⟩
        · obtain ⟨-, rfl⟩ := readBits_eq_raised.1 h; simp
        · simp only at h
          split at h
          · simp only [Result.raised.injEq] at h; subst h; simp
          · exact ih h

/-- If Descend answers, the next bits of the stream lead from the root to the symbol. -/
theorem descend_ok {pos pos' : Nat} {sym : Word} (h : descend cfg ibuf arena pos lim order = .ok (sym, pos')) :
    ∃ n, n ≤ arena.length ∧ pos' = pos + n ∧ (n = 0 ∨ pos' ≤ lim ∧ pos' ≤ 8 * cfg.ibufBytes) ∧
      leadsTo arena (streamList ibuf order pos n) sym := by
  obtain ⟨n, k, nd, h1, h2, h3, h4, h5, h6, h7, h8⟩ := descendFrom_ok h
  exact ⟨n, h1, h2, h3, k, nd, h4, h5, h6, h7, h8⟩

/-- In a well-formed arena, where the next `n` bits of the stream lead to a symbol, Descend answers it. -/
theorem descend_leadsTo (h : ArenaWf cfg arena) {n pos : Nat} {sym : Word} (hl : pos + n ≤ lim)
    (hi : pos + n ≤ 8 * cfg.ibufBytes) (hs : leadsTo arena (streamList ibuf order pos n) sym) :
    descend cfg ibuf arena pos lim order = .ok (sym, pos + n) := by
  obtain ⟨k, nd, hw, hk, hc, rfl, hu⟩ := hs
  have := h.walk_range h.nonempty hw
  rw [streamList_length] at this
  exact descendFrom_walk (by omega) hl hi hw hk hc hu

/-- In a well-formed arena, with the window inside IBUF, Descend never faults. -/
theorem descend_no_fault (h : ArenaWf cfg arena) (hi : lim ≤ 8 * cfg.ibufBytes) {pos : Nat} {x : Fault} :
    descend cfg ibuf arena pos lim order ≠ .fault x :=
  descendFrom_no_fault h hi h.nonempty (by omega)

end Sys2Proof.Machine
end

