-- ==== Sys2Proof/Laws/Insert.lean ====
section
/-! SUPPORT. What Insert can do (R152): it extends the tree by one code's path, keeps every other path, and keeps the
arena well formed (R61). -/

namespace Sys2Proof.Machine

variable {cfg : Config} {sym len code : Word}

/-! ### Extending an arena -/

/-- `a'` is `a` with more nodes and more children: nodes keep their leaf word and their children, nodes with a symbol
are unchanged, and a child that was not there is a new node. -/
structure Extends (a a' : List Node) : Prop where
  length : a.length ≤ a'.length
  keep : ∀ (k : Nat) (nd : Node), a[k]? = some nd → ∃ nd', a'[k]? = some nd' ∧ nd'.leaf = nd.leaf ∧
    (∀ b, nd.child b ≠ nil32 → nd'.child b = nd.child b) ∧ (nd.leaf ≠ undefinedLeaf → nd' = nd)
  fresh : ∀ (k : Nat) (nd nd' : Node) (b : Bool), a[k]? = some nd → a'[k]? = some nd' →
    nd'.child b = nd.child b ∨ a.length ≤ (nd'.child b).toNat

theorem Extends.refl (a : List Node) : Extends a a where
  length := Nat.le_refl _
  keep := fun _ nd h => ⟨nd, h, rfl, fun _ _ => rfl, fun _ => rfl⟩
  fresh := fun k nd nd' b h h' => .inl (by rw [h] at h'; cases h'; rfl)

theorem Extends.trans {a a' a'' : List Node} (h : Extends a a') (h' : Extends a' a'') : Extends a a'' where
  length := Nat.le_trans h.length h'.length
  keep := by
    intro k nd hk
    obtain ⟨nd', hk', hl, hb, hs⟩ := h.keep k nd hk
    obtain ⟨nd'', hk'', hl', hb', hs'⟩ := h'.keep k nd' hk'
    refine ⟨nd'', hk'', hl'.trans hl, ?_, ?_⟩
    · intro b hn
      rw [hb' b (by rw [hb b hn]; exact hn), hb b hn]
    · intro hn
      rw [hs' (by rw [hl]; exact hn), hs hn]
  fresh := by
    intro k nd nd'' b hk hk''
    obtain ⟨nd', hk', -⟩ := h.keep k nd hk
    rcases h'.fresh k nd' nd'' b hk' hk'' with h1 | h1
    · rcases h.fresh k nd nd' b hk hk' with h2 | h2
      · exact .inl (h1.trans h2)
      · exact .inr (by rw [h1]; exact h2)
    · exact .inr (Nat.le_trans h.length h1)

/-- A path stays a path. -/
theorem Extends.walk {a a' : List Node} (h : Extends a a') {bs : List Bool} {k k' : Nat}
    (hw : walk a bs k = some k') : walk a' bs k = some k' := by
  induction bs generalizing k with
  | nil => exact hw
  | cons b bs ih =>
    obtain ⟨nd, hk, hb, hw⟩ := walk_cons.1 hw
    obtain ⟨nd', hk', -, hc, -⟩ := h.keep k nd hk
    exact walk_cons.2 ⟨nd', hk', by rw [hc b hb]; exact hb, by rw [hc b hb]; exact ih hw⟩

/-- A code stays decodable. -/
theorem Extends.leadsTo {a a' : List Node} (h : Extends a a') {bs : List Bool} {w : Word}
    (hl : leadsTo a bs w) : leadsTo a' bs w := by
  obtain ⟨k, nd, hw, hk, hc, rfl, hu⟩ := hl
  obtain ⟨nd', hk', -, -, hs⟩ := h.keep k nd hk
  have := hs hu
  subst this
  exact ⟨k, nd', h.walk hw, hk', hc, rfl, hu⟩

/-- A path that ends at an old node was a path before. -/
theorem Extends.walk_back {a a' : List Node} (h : Extends a a')
    (hr : ∀ (k : Nat) (nd : Node) (b : Bool), a'[k]? = some nd → nd.child b ≠ nil32 → k < (nd.child b).toNat)
    {bs : List Bool} {k k' : Nat} (hk : k < a.length) (hw : Machine.walk a' bs k = some k') (hk' : k' < a.length) :
    Machine.walk a bs k = some k' := by
  have mono : ∀ (bs : List Bool) (k : Nat), Machine.walk a' bs k = some k' → k ≤ k' := by
    intro bs
    induction bs with
    | nil => intro k hw; simp only [walk_nil, Option.some.injEq] at hw; omega
    | cons b bs ih =>
      intro k hw
      obtain ⟨nd, hnd, hb, hw⟩ := walk_cons.1 hw
      have := hr k nd b hnd hb
      have := ih _ hw
      omega
  induction bs generalizing k with
  | nil => exact hw
  | cons b bs ih =>
    obtain ⟨nd', hnd', hb, hw⟩ := walk_cons.1 hw
    obtain ⟨nd, hnd⟩ : ∃ nd, a[k]? = some nd := ⟨a[k], List.getElem?_eq_getElem hk⟩
    have hle := mono bs _ hw
    rcases h.fresh k nd nd' b hnd hnd' with h1 | h1
    · exact walk_cons.2 ⟨nd, hnd, by rw [← h1]; exact hb, by rw [← h1]; exact ih (by omega) hw⟩
    · omega

/-! ### The arena while Insert walks -/

/-- Well formed but for node `k`, which may still be childless without a symbol. -/
structure PreWf (cfg : Config) (arena : List Node) (k : Nat) : Prop where
  params : cfg.nodeMax ≤ 2 ^ 32 - 1
  inUse : k < arena.length
  fits : arena.length ≤ cfg.nodeMax
  childRange : ∀ (k : Nat) (nd : Node) (b : Bool), arena[k]? = some nd → nd.child b ≠ nil32 →
    k < (nd.child b).toNat ∧ (nd.child b).toNat < arena.length
  oneParent : ∀ m, 1 ≤ m → m < arena.length →
    ∃ k b, isChild arena m k b ∧ ∀ k' b', isChild arena m k' b' → k' = k ∧ b' = b
  innerNoSymbol : ∀ (k : Nat) (nd : Node), arena[k]? = some nd → nd.childless = false → nd.leaf = undefinedLeaf
  symbolRange : ∀ (k : Nat) (nd : Node), arena[k]? = some nd → nd.leaf = undefinedLeaf ∨ nd.leaf.toNat < cfg.tabEntries
  leafSymbol : ∀ (j : Nat) (nd : Node), 1 ≤ j → j ≠ k → arena[j]? = some nd → nd.childless = true →
    nd.leaf ≠ undefinedLeaf

theorem ArenaWf.preWf {arena : List Node} (h : ArenaWf cfg arena) (hp : cfg.nodeMax ≤ 2 ^ 32 - 1) : PreWf cfg arena 0 where
  params := hp
  inUse := h.nonempty
  fits := h.fits
  childRange := h.childRange
  oneParent := h.oneParent
  innerNoSymbol := h.innerNoSymbol
  symbolRange := h.symbolRange
  leafSymbol := fun j nd h1 _ => h.leafSymbol j nd h1

/-- Going down to an existing child. -/
theorem PreWf.down {arena : List Node} {k : Nat} (h : PreWf cfg arena k) {nd : Node} {b : Bool} (hk : arena[k]? = some nd)
    (hb : nd.child b ≠ nil32) : PreWf cfg arena (nd.child b).toNat where
  params := h.params
  inUse := (h.childRange k nd b hk hb).2
  fits := h.fits
  childRange := h.childRange
  oneParent := h.oneParent
  innerNoSymbol := h.innerNoSymbol
  symbolRange := h.symbolRange
  leafSymbol := by
    intro j nj h1 _ hj hc
    by_cases hjk : j = k
    · subst hjk
      rw [hk] at hj
      cases hj
      rw [Node.not_childless hb] at hc
      cases hc
    · exact h.leafSymbol j nj h1 hjk hj hc

/-- The arena after a node is allocated as child `b` of node `k` (R152). -/
def allocate (arena : List Node) (k : Nat) (nd : Node) (b : Bool) : List Node :=
  arena.set k (nd.setChild b (BitVec.ofNat 32 arena.length)) ++ [Node.empty]

@[simp] theorem allocate_length (arena : List Node) (k : Nat) (nd : Node) (b : Bool) :
    (allocate arena k nd b).length = arena.length + 1 := by simp [allocate]

theorem allocate_new (arena : List Node) (k : Nat) (nd : Node) (b : Bool) :
    (allocate arena k nd b)[arena.length]? = some Node.empty := by
  simp [allocate]

theorem allocate_self {arena : List Node} {k : Nat} (hk : k < arena.length) (nd : Node) (b : Bool) :
    (allocate arena k nd b)[k]? = some (nd.setChild b (BitVec.ofNat 32 arena.length)) := by
  rw [allocate, List.getElem?_append_left (by simpa using hk)]
  simp [hk]

theorem allocate_old {arena : List Node} {k j : Nat} (hj : j < arena.length) (hjk : j ≠ k) (nd : Node) (b : Bool) :
    (allocate arena k nd b)[j]? = arena[j]? := by
  rw [allocate, List.getElem?_append_left (by simpa using hj), List.getElem?_set_ne (by omega)]

theorem allocate_beyond {arena : List Node} {k j : Nat} (hj : arena.length < j) (nd : Node) (b : Bool) :
    (allocate arena k nd b)[j]? = none :=
  List.getElem?_eq_none (by simp; omega)

/-- Every node of the arena after an allocation. -/
theorem allocate_cases {arena : List Node} {k j : Nat} {nd nj : Node} {b : Bool} (hk : k < arena.length)
    (h : (allocate arena k nd b)[j]? = some nj) :
    (j = k ∧ nj = nd.setChild b (BitVec.ofNat 32 arena.length)) ∨ (j ≠ k ∧ j < arena.length ∧ arena[j]? = some nj) ∨
      (j = arena.length ∧ nj = Node.empty) := by
  rcases Nat.lt_trichotomy j arena.length with hj | hj | hj
  · by_cases hjk : j = k
    · subst hjk
      rw [allocate_self hk] at h
      cases h
      exact .inl ⟨rfl, rfl⟩
    · rw [allocate_old hj hjk] at h
      exact .inr (.inl ⟨hjk, hj, h⟩)
  · subst hj
    rw [allocate_new] at h
    cases h
    exact .inr (.inr ⟨rfl, rfl⟩)
  · rw [allocate_beyond hj] at h
    cases h

/-- Allocating a child keeps the arena well formed but for the new node. -/
theorem PreWf.allocate {arena : List Node} {k : Nat} (h : PreWf cfg arena k) {nd : Node} {b : Bool}
    (hk : arena[k]? = some nd) (hl : nd.leaf = undefinedLeaf) (hb : nd.child b = nil32) (hf : arena.length ≠ cfg.nodeMax) :
    PreWf cfg (allocate arena k nd b) arena.length := by
  have hp := h.params
  have hfit := h.fits
  have hlen : arena.length < 2 ^ 32 - 1 := by omega
  have hm : (BitVec.ofNat 32 arena.length).toNat = arena.length := by
    rw [BitVec.toNat_ofNat, Nat.mod_eq_of_lt (by omega)]
  have hne := index_ne_nil hlen
  refine ⟨h.params, by simp, by simp; omega, ?_, ?_, ?_, ?_, ?_⟩
  · intro j nj c hj hc
    rw [allocate_length]
    rcases allocate_cases h.inUse hj with ⟨rfl, rfl⟩ | ⟨-, -, hj⟩ | ⟨rfl, rfl⟩
    · by_cases hcb : c = b
      · subst hcb
        rw [Node.child_setChild_self, hm]
        have := h.inUse
        omega
      · rw [Node.child_setChild_ne hcb] at hc ⊢
        have := h.childRange j nd c hk hc
        omega
    · have := h.childRange j nj c hj hc
      omega
    · simp at hc
  · intro m h1 h2
    rw [allocate_length] at h2
    rcases Nat.lt_or_ge m arena.length with hlt | hge
    · obtain ⟨k0, b0, hc0, hu0⟩ := h.oneParent m h1 hlt
      refine ⟨k0, b0, ?_, ?_⟩
      · obtain ⟨n0, hn0, hm0⟩ := hc0
        by_cases h0 : k0 = k
        · subst h0
          rw [hk] at hn0
          cases hn0
          refine ⟨_, allocate_self h.inUse nd b, ?_⟩
          have : b0 ≠ b := by
            rintro rfl
            rw [hb, nil32_toNat] at hm0
            omega
          rw [Node.child_setChild_ne this]
          exact hm0
        · have hlt0 : k0 < arena.length := by
            by_contra hge0
            rw [List.getElem?_eq_none (by omega)] at hn0
            cases hn0
          exact ⟨n0, by rw [allocate_old hlt0 h0]; exact hn0, hm0⟩
      · rintro k' b' ⟨n', hn', hm'⟩
        apply hu0
        rcases allocate_cases h.inUse hn' with ⟨rfl, rfl⟩ | ⟨-, -, hj⟩ | ⟨rfl, rfl⟩
        · by_cases hcb : b' = b
          · subst hcb
            rw [Node.child_setChild_self, hm] at hm'
            omega
          · rw [Node.child_setChild_ne hcb] at hm'
            exact ⟨nd, hk, hm'⟩
        · exact ⟨n', hj, hm'⟩
        · rw [Node.child_empty, nil32_toNat] at hm'
          omega
    · obtain rfl : m = arena.length := by omega
      refine ⟨k, b, ⟨_, allocate_self h.inUse nd b, by rw [Node.child_setChild_self, hm]⟩, ?_⟩
      have old : ∀ (j : Nat) (nj : Node) (c : Bool), arena[j]? = some nj → (nj.child c).toNat ≠ arena.length := by
        intro j nj c hj he
        by_cases hn : nj.child c = nil32
        · rw [hn, nil32_toNat] at he
          omega
        · have := h.childRange j nj c hj hn
          omega
      rintro k' b' ⟨n', hn', hm'⟩
      rcases allocate_cases h.inUse hn' with ⟨rfl, rfl⟩ | ⟨-, -, hj⟩ | ⟨rfl, rfl⟩
      · by_cases hcb : b' = b
        · exact ⟨rfl, hcb⟩
        · rw [Node.child_setChild_ne hcb] at hm'
          exact absurd hm' (old _ _ _ hk)
      · exact absurd hm' (old _ _ _ hj)
      · rw [Node.child_empty, nil32_toNat] at hm'
        omega
  · intro j nj hj hc
    rcases allocate_cases h.inUse hj with ⟨rfl, rfl⟩ | ⟨-, -, hj⟩ | ⟨rfl, rfl⟩
    · rw [Node.leaf_setChild]
      exact hl
    · exact h.innerNoSymbol j nj hj hc
    · rfl
  · intro j nj hj
    rcases allocate_cases h.inUse hj with ⟨rfl, rfl⟩ | ⟨-, -, hj⟩ | ⟨rfl, rfl⟩
    · rw [Node.leaf_setChild]
      exact h.symbolRange j nd hk
    · exact h.symbolRange j nj hj
    · exact .inl rfl
  · intro j nj h1 hjm hj hc
    rcases allocate_cases h.inUse hj with ⟨rfl, rfl⟩ | ⟨hjk, -, hj⟩ | ⟨rfl, rfl⟩
    · have hnc : (nd.setChild b (BitVec.ofNat 32 arena.length)).child b ≠ nil32 := by
        rw [Node.child_setChild_self]
        exact hne
      rw [Node.not_childless hnc] at hc
      cases hc
    · exact h.leafSymbol j nj h1 hjk hj hc
    · exact absurd rfl hjm

/-- Allocating a child extends the arena. -/
theorem Extends.allocate {arena : List Node} {k : Nat} {nd : Node} {b : Bool} (hk : arena[k]? = some nd)
    (hl : nd.leaf = undefinedLeaf) (hb : nd.child b = nil32) (hlen : arena.length < 2 ^ 32 - 1) :
    Extends arena (allocate arena k nd b) := by
  have hlt : k < arena.length := by
    by_contra hge
    rw [List.getElem?_eq_none (by omega)] at hk
    cases hk
  refine ⟨by simp, ?_, ?_⟩
  · intro j nj hj
    have hjl : j < arena.length := by
      by_contra hge
      rw [List.getElem?_eq_none (by omega)] at hj
      cases hj
    by_cases hjk : j = k
    · subst hjk
      rw [hk] at hj
      cases hj
      refine ⟨_, allocate_self hlt nd b, Node.leaf_setChild _ _ _, ?_, fun hn => absurd hl hn⟩
      intro c hc
      exact Node.child_setChild_ne (by rintro rfl; exact hc hb)
    · exact ⟨nj, by rw [allocate_old hjl hjk]; exact hj, rfl, fun _ _ => rfl, fun _ => rfl⟩
  · intro j nj nj' c hj hj'
    rcases allocate_cases hlt hj' with ⟨rfl, rfl⟩ | ⟨-, -, hj'⟩ | ⟨rfl, -⟩
    · rw [hk] at hj
      cases hj
      by_cases hcb : c = b
      · subst hcb
        rw [Node.child_setChild_self, BitVec.toNat_ofNat, Nat.mod_eq_of_lt (by omega)]
        exact .inr (Nat.le_refl _)
      · exact .inl (Node.child_setChild_ne hcb)
    · rw [hj] at hj'
      cases hj'
      exact .inl rfl
    · rw [List.getElem?_eq_none (Nat.le_refl _)] at hj
      cases hj

/-! ### The walk of Insert -/

/-- One turn of the walk at a node that carries a symbol. -/
theorem insertWalk_leaf {i k : Nat} {a : List Node} {nd : Node} (hk : a[k]? = some nd) (hl : nd.leaf ≠ undefinedLeaf) :
    insertWalk cfg.nodeMax sym len code (i + 1) a k =
      .raised { cause := .leafOnPath, pos := sym.toNat, exp := len.toNat, fnd := code.toNat } := by
  simp [insertWalk, hk, hl]

/-- One turn of the walk to a child that exists. -/
theorem insertWalk_down {i k : Nat} {a : List Node} {nd : Node} (hk : a[k]? = some nd) (hl : nd.leaf = undefinedLeaf)
    (hb : nd.child (code.getLsbD i) ≠ nil32) :
    insertWalk cfg.nodeMax sym len code (i + 1) a k =
      insertWalk cfg.nodeMax sym len code i a (nd.child (code.getLsbD i)).toNat := by
  simp [insertWalk, hk, hl, hb]

/-- One turn of the walk to a child that does not exist. -/
theorem insertWalk_alloc {i k : Nat} {a : List Node} {nd : Node} (hk : a[k]? = some nd) (hl : nd.leaf = undefinedLeaf)
    (hb : nd.child (code.getLsbD i) = nil32) :
    insertWalk cfg.nodeMax sym len code (i + 1) a k =
      if a.length = cfg.nodeMax then
        .raised { cause := .arenaFull, pos := sym.toNat, exp := len.toNat, fnd := code.toNat }
      else insertWalk cfg.nodeMax sym len code i (allocate a k nd (code.getLsbD i)) a.length := by
  simp [insertWalk, hk, hl, hb, allocate]

/-- Everything the walk can have done when it answers: the new arena is well formed but for the node reached, extends
the old one by at most one node per bit, holds the code's path, and holds no symbol that the old one did not hold. -/
theorem insertWalk_ok {n k k' : Nat} {a a' : List Node} (h : PreWf cfg a k)
    (hw : insertWalk cfg.nodeMax sym len code n a k = .ok (a', k')) :
    PreWf cfg a' k' ∧ Extends a a' ∧ walk a' (codeBits n code) k = some k' ∧ a'.length ≤ a.length + n ∧
      (∀ (j : Nat) (nd : Node), a'[j]? = some nd → nd.leaf ≠ undefinedLeaf → a[j]? = some nd) := by
  induction n generalizing a k with
  | zero =>
    simp only [insertWalk, Result.ok.injEq, Prod.mk.injEq] at hw
    obtain ⟨rfl, rfl⟩ := hw
    exact ⟨h, .refl a, rfl, by omega, fun _ _ hj _ => hj⟩
  | succ n ih =>
    obtain ⟨nk, hk⟩ : ∃ nk, a[k]? = some nk := ⟨_, List.getElem?_eq_getElem h.inUse⟩
    by_cases hl : nk.leaf = undefinedLeaf
    · by_cases hb : nk.child (code.getLsbD n) = nil32
      · rw [insertWalk_alloc hk hl hb] at hw
        split at hw
        · cases hw
        · next hf =>
          have hlen : a.length < 2 ^ 32 - 1 := by have := h.params; have := h.fits; omega
          obtain ⟨h1, h2, h3, h4, h5⟩ := ih (h.allocate hk hl hb hf) hw
          have hE := Extends.allocate hk hl hb hlen
          obtain ⟨nk', hnk, -, hck, -⟩ := h2.keep k _ (allocate_self h.inUse nk (code.getLsbD n))
          have hm : (BitVec.ofNat 32 a.length).toNat = a.length := by
            rw [BitVec.toNat_ofNat, Nat.mod_eq_of_lt (by omega)]
          have hc := hck (code.getLsbD n) (by rw [Node.child_setChild_self]; exact index_ne_nil hlen)
          rw [Node.child_setChild_self] at hc
          refine ⟨h1, hE.trans h2, ?_, ?_, ?_⟩
          · rw [codeBits, walk_cons]
            exact ⟨nk', hnk, by rw [hc]; exact index_ne_nil hlen, by rw [hc, hm]; exact h3⟩
          · rw [allocate_length] at h4
            omega
          · intro j nd hj hn
            rcases allocate_cases h.inUse (h5 j nd hj hn) with ⟨rfl, rfl⟩ | ⟨-, -, hj⟩ | ⟨rfl, rfl⟩
            · rw [Node.leaf_setChild] at hn
              exact absurd hl hn
            · exact hj
            · exact absurd rfl hn
      · rw [insertWalk_down hk hl hb] at hw
        obtain ⟨h1, h2, h3, h4, h5⟩ := ih (h.down hk hb) hw
        obtain ⟨nk', hnk, -, hck, -⟩ := h2.keep k _ hk
        refine ⟨h1, h2, ?_, by omega, h5⟩
        rw [codeBits, walk_cons]
        exact ⟨nk', hnk, by rw [hck _ hb]; exact hb, by rw [hck _ hb]; exact h3⟩
    · rw [insertWalk_leaf hk hl] at hw
      cases hw

/-- The walk never faults from a node in use of a well-formed arena. -/
theorem insertWalk_no_fault {n k : Nat} {a : List Node} {x : Fault} (h : PreWf cfg a k) :
    insertWalk cfg.nodeMax sym len code n a k ≠ .fault x := by
  induction n generalizing a k with
  | zero => simp [insertWalk]
  | succ n ih =>
    obtain ⟨nk, hk⟩ : ∃ nk, a[k]? = some nk := ⟨_, List.getElem?_eq_getElem h.inUse⟩
    by_cases hl : nk.leaf = undefinedLeaf
    · by_cases hb : nk.child (code.getLsbD n) = nil32
      · rw [insertWalk_alloc hk hl hb]
        split
        · simp
        · next hf => exact ih (h.allocate hk hl hb hf)
      · rw [insertWalk_down hk hl hb]
        exact ih (h.down hk hb)
    · rw [insertWalk_leaf hk hl]
      simp

/-- The errors the walk can raise (R152). -/
theorem insertWalk_raised {n k : Nat} {a : List Node} {e : Raise}
    (h : insertWalk cfg.nodeMax sym len code n a k = .raised e) :
    (e.cause = .leafOnPath ∨ e.cause = .arenaFull) ∧ e.pos = sym.toNat ∧ e.exp = len.toNat ∧ e.fnd = code.toNat ∧
      e.plane = none ∧ e.sample = none := by
  induction n generalizing a k with
  | zero => simp [insertWalk] at h
  | succ n ih =>
    cases hk : a[k]? with
    | none => simp [insertWalk, hk] at h
    | some nd =>
      by_cases hl : nd.leaf = undefinedLeaf
      · by_cases hb : nd.child (code.getLsbD n) = nil32
        · rw [insertWalk_alloc hk hl hb] at h
          split at h
          · simp only [Result.raised.injEq] at h; subst h; simp
          · exact ih h
        · rw [insertWalk_down hk hl hb] at h
          exact ih h
      · rw [insertWalk_leaf hk hl] at h
        simp only [Result.raised.injEq] at h
        subst h
        simp

/-- Where no node on the way carries a symbol and the path exists, the walk ends at its node and changes nothing. -/
theorem insertWalk_existing {n k k' : Nat} {a : List Node}
    (hp : ∀ j, j < n → ∀ m nd, walk a ((codeBits n code).take j) k = some m → a[m]? = some nd → nd.leaf = undefinedLeaf)
    (hw : walk a (codeBits n code) k = some k') : insertWalk cfg.nodeMax sym len code n a k = .ok (a, k') := by
  induction n generalizing k with
  | zero =>
    simp only [codeBits, walk_nil, Option.some.injEq] at hw
    subst hw
    rfl
  | succ n ih =>
    rw [codeBits] at hw
    obtain ⟨nd, hk, hb, hw⟩ := walk_cons.1 hw
    have hl := hp 0 (by omega) k nd rfl hk
    rw [insertWalk_down hk hl hb]
    refine ih ?_ hw
    intro j hj m nm hm
    refine hp (j + 1) (by omega) m nm ?_
    rw [codeBits, List.take_succ_cons, walk_cons]
    exact ⟨nd, hk, hb, hm⟩

/-- Where no node on the way carries a symbol, the path does not exist and there is room for its missing nodes, the walk
ends at a new empty node. -/
theorem insertWalk_new {n k : Nat} {a : List Node} (h : PreWf cfg a k)
    (hr : ∀ d m, d < n → walk a ((codeBits n code).take d) k = some m →
      walk a ((codeBits n code).take (d + 1)) k = none → a.length + (n - d) ≤ cfg.nodeMax)
    (hp : ∀ j, j < n → ∀ m nd, walk a ((codeBits n code).take j) k = some m → a[m]? = some nd → nd.leaf = undefinedLeaf)
    (hw : walk a (codeBits n code) k = none) :
    ∃ a' k', insertWalk cfg.nodeMax sym len code n a k = .ok (a', k') ∧ a'[k']? = some Node.empty := by
  induction n generalizing a k with
  | zero => simp [codeBits] at hw
  | succ n ih =>
    obtain ⟨nk, hk⟩ : ∃ nk, a[k]? = some nk := ⟨_, List.getElem?_eq_getElem h.inUse⟩
    have hl := hp 0 (by omega) k _ rfl hk
    by_cases hb : nk.child (code.getLsbD n) = nil32
    · have hroom := hr 0 k (by omega) rfl (by simp [codeBits, walk, hk, hb])
      rw [insertWalk_alloc hk hl hb, if_neg (by omega)]
      have hP := h.allocate hk hl hb (by omega)
      have hnew := allocate_new a k nk (code.getLsbD n)
      have stop : ∀ (bs : List Bool) (m : Nat), bs ≠ [] →
          walk (allocate a k nk (code.getLsbD n)) bs a.length = some m → False := by
        intro bs m hbs hm
        cases bs with
        | nil => exact hbs rfl
        | cons c cs =>
          obtain ⟨nd, hnd, hc, -⟩ := walk_cons.1 hm
          rw [hnew] at hnd
          cases hnd
          simp at hc
      cases n with
      | zero => exact ⟨_, _, rfl, hnew⟩
      | succ n =>
        apply ih hP (by intro d m _ _ _; rw [allocate_length]; omega)
        · intro j hj m nd hm hmn
          cases j with
          | zero =>
            simp only [List.take_zero, walk_nil, Option.some.injEq] at hm
            subst hm
            rw [hnew] at hmn
            cases hmn
            rfl
          | succ j =>
            exact (stop _ m (by simp [codeBits]) hm).elim
        · cases hx : walk (allocate a k nk (code.getLsbD (n + 1))) (codeBits (n + 1) code) a.length with
          | none => rfl
          | some m => exact (stop _ m (by simp [codeBits]) hx).elim
    · rw [insertWalk_down hk hl hb]
      apply ih (h.down hk hb)
      · intro d m hd hm hn
        have hroom := hr (d + 1) m (by omega) (by rw [codeBits, List.take_succ_cons, walk_cons]; exact ⟨nk, hk, hb, hm⟩)
          (by rw [codeBits, List.take_succ_cons]; simp [walk, hk, hb, hn])
        omega
      · intro j hj m nm hm
        refine hp (j + 1) (by omega) m nm ?_
        rw [codeBits, List.take_succ_cons, walk_cons]
        exact ⟨_, hk, hb, hm⟩
      · cases hx : walk a (codeBits n code) (nk.child (code.getLsbD n)).toNat with
        | none => rfl
        | some m =>
          exfalso
          have : walk a (codeBits (n + 1) code) k = some m := by
            rw [codeBits, walk_cons]
            exact ⟨_, hk, hb, hx⟩
          rw [hw] at this
          cases this

end Sys2Proof.Machine
end

