-- ==== Sys2Proof/Laws/Build.lean ====
section
/-! SUPPORT. What Insert and Build can do, said of the codes the tree decodes (R152, R153, R159). -/

namespace Sys2Proof.Machine

variable {cfg : Config} {arena : List Node} {sym len code : Word}

/-! ### Paths and symbols of a well-formed arena -/

theorem walk_snoc {bs : List Bool} {b : Bool} {k k' : Nat} :
    walk arena (bs ++ [b]) k = some k' ↔
      ∃ m nd, walk arena bs k = some m ∧ arena[m]? = some nd ∧ nd.child b ≠ nil32 ∧ k' = (nd.child b).toNat := by
  rw [walk_append]
  constructor
  · rintro ⟨m, hm, hw⟩
    obtain ⟨nd, h1, h2, h3⟩ := walk_cons.1 hw
    simp only [walk_nil, Option.some.injEq] at h3
    exact ⟨m, nd, hm, h1, h2, h3.symm⟩
  · rintro ⟨m, nd, hm, h1, h2, rfl⟩
    exact ⟨m, hm, walk_cons.2 ⟨nd, h1, h2, rfl⟩⟩

/-- Two paths from the root to one node are the same path (R61 (c)). -/
theorem ArenaWf.walk_inj (h : ArenaWf cfg arena) {as bs : List Bool} {k : Nat} (ha : walk arena as 0 = some k)
    (hb : walk arena bs 0 = some k) : as = bs := by
  induction as using List.reverseRecOn generalizing bs k with
  | nil =>
    simp only [walk_nil, Option.some.injEq] at ha
    subst ha
    have := (h.walk_range h.nonempty hb).1
    cases bs with
    | nil => rfl
    | cons b bs => simp at this
  | append_singleton as a ih =>
    obtain ⟨m, nd, h1, h2, h3, h4⟩ := walk_snoc.1 ha
    have hr := h.walk_range h.nonempty ha
    rw [List.length_append, List.length_singleton] at hr
    rcases List.eq_nil_or_concat bs with rfl | ⟨bs, b, rfl⟩
    · simp only [walk_nil, Option.some.injEq] at hb
      omega
    · rw [List.concat_eq_append] at hb ⊢
      obtain ⟨m', nd', h1', h2', h3', h4'⟩ := walk_snoc.1 hb
      obtain ⟨k0, b0, -, hu⟩ := h.oneParent k (by omega) hr.2
      obtain ⟨rfl, rfl⟩ := hu m a ⟨nd, h2, h4.symm⟩
      obtain ⟨rfl, rfl⟩ := hu m' b ⟨nd', h2', h4'.symm⟩
      rw [ih h1 h1']

/-- A path that leads to a symbol goes no further. -/
theorem leadsTo_stop {as bs : List Bool} {w : Word} {k : Nat} (h : leadsTo arena as w)
    (hw : walk arena (as ++ bs) 0 = some k) : bs = [] := by
  obtain ⟨m, nd, hm, hn, hc, -, -⟩ := h
  obtain ⟨m', hm', hw⟩ := walk_append.1 hw
  rw [hm] at hm'
  cases hm'
  cases bs with
  | nil => rfl
  | cons b bs =>
    obtain ⟨nd', hn', hb, -⟩ := walk_cons.1 hw
    rw [hn] at hn'
    cases hn'
    exact absurd (Node.childless_iff.1 hc b) hb

/-- A code that leads to a symbol determines it. -/
theorem leadsTo_unique {bs : List Bool} {w w' : Word} (h : leadsTo arena bs w) (h' : leadsTo arena bs w') : w = w' := by
  obtain ⟨k, nd, hk, hn, -, rfl, -⟩ := h
  obtain ⟨k', nd', hk', hn', -, rfl, -⟩ := h'
  rw [hk] at hk'
  cases hk'
  rw [hn] at hn'
  cases hn'
  rfl

/-- The codes of a tree are prefix-free. -/
theorem leadsTo_prefix {as bs : List Bool} {w w' : Word} (h : leadsTo arena as w) (h' : leadsTo arena bs w')
    (hp : as <+: bs) : as = bs ∧ w = w' := by
  obtain ⟨cs, rfl⟩ := hp
  have hcs : cs = [] := by
    obtain ⟨k, -, hw, -⟩ := h'
    exact leadsTo_stop h hw
  subst hcs
  rw [List.append_nil] at h' ⊢
  exact ⟨rfl, leadsTo_unique h h'⟩

/-- In a well-formed arena a node that carries a symbol is childless (R61 (d)). -/
theorem ArenaWf.symbol_childless (h : ArenaWf cfg arena) {k : Nat} {nd : Node} (hk : arena[k]? = some nd)
    (hl : nd.leaf ≠ undefinedLeaf) : nd.childless = true := by
  cases hc : nd.childless with
  | true => rfl
  | false => exact absurd (h.innerNoSymbol k nd hk hc) hl

/-- From every node but the root of the empty tree some path leads to a symbol (R61 (b), (g)). -/
theorem ArenaWf.reaches_symbol (h : ArenaWf cfg arena) (k : Nat) (h1 : 1 ≤ k) (hk : k < arena.length) :
    ∃ bs k' nd, walk arena bs k = some k' ∧ arena[k']? = some nd ∧ nd.childless = true ∧ nd.leaf ≠ undefinedLeaf := by
  obtain ⟨n, hn⟩ : ∃ n, arena.length - k = n := ⟨_, rfl⟩
  induction n using Nat.strongRecOn generalizing k with
  | _ n ih =>
    obtain ⟨nd, hnd⟩ : ∃ nd, arena[k]? = some nd := ⟨_, List.getElem?_eq_getElem hk⟩
    by_cases hc : nd.childless = true
    · exact ⟨[], k, nd, rfl, hnd, hc, h.leafSymbol k nd h1 hnd hc⟩
    · obtain ⟨b, hb⟩ : ∃ b, nd.child b ≠ nil32 := by
        by_contra hall
        push Not at hall
        exact hc (Node.childless_iff.2 hall)
      have hr := h.childRange k nd b hnd hb
      obtain ⟨bs, k', nd', hw, h2⟩ := ih (arena.length - (nd.child b).toNat) (by omega) _ (by omega) hr.2 rfl
      exact ⟨b :: bs, k', nd', walk_cons.2 ⟨nd, hnd, hb, hw⟩, h2⟩

/-! ### Storing the symbol -/

/-- Giving a node a symbol changes no path. -/
theorem walk_set_leaf {k : Nat} {nd : Node} (hk : arena[k]? = some nd) (w : Word) (bs : List Bool) (j : Nat) :
    walk (arena.set k { nd with leaf := w }) bs j = walk arena bs j := by
  have hlt : k < arena.length := by
    by_contra hge
    rw [List.getElem?_eq_none (by omega)] at hk
    cases hk
  induction bs generalizing j with
  | nil => rfl
  | cons b bs ih =>
    simp only [walk]
    by_cases hjk : k = j
    · subst hjk
      rw [List.getElem?_set_self hlt, hk]
      simp only [Node.child_withLeaf, ih]
    · rw [List.getElem?_set_ne hjk]
      simp only [ih]

/-- If the symbol is stored, the node was childless and carried none. -/
theorem storeLeaf_ok {k : Nat} {a' : List Node} (h : storeLeaf sym len code arena k = .ok a') :
    ∃ nd, arena[k]? = some nd ∧ nd.childless = true ∧ nd.leaf = undefinedLeaf ∧ a' = arena.set k { nd with leaf := sym } := by
  unfold storeLeaf at h
  split at h
  · cases h
  · next nd hk =>
    split at h
    · cases h
    · next hc =>
      rw [Node.childless_or, Bool.not_eq_false] at hc
      split at h
      · cases h
      · next hl =>
        simp only [Result.ok.injEq] at h
        exact ⟨nd, hk, hc, by simpa using hl, h.symm⟩

theorem storeLeaf_raised {k : Nat} {e : Raise} (h : storeLeaf sym len code arena k = .raised e) :
    (e.cause = .internalAtLeaf ∨ e.cause = .duplicateCode) ∧ e.pos = sym.toNat ∧ e.exp = len.toNat ∧
      e.fnd = code.toNat ∧ e.plane = none ∧ e.sample = none := by
  unfold storeLeaf at h
  split at h
  · cases h
  · split at h
    · simp only [Result.raised.injEq] at h; subst h; simp
    · split at h
      · simp only [Result.raised.injEq] at h; subst h; simp
      · cases h

/-! ### Insert -/

/-- Everything Insert can have done when it answers: the length was legal, the arena is well formed still, the code
leads to the symbol, and the codes the tree decodes are the old ones and this one. -/
structure InsertSpec (cfg : Config) (sym : Word) (bits : List Bool) (a a' : List Node) : Prop where
  wf : ArenaWf cfg a'
  new : leadsTo a' bits sym
  old : ∀ bs w, leadsTo a bs w → leadsTo a' bs w
  only : ∀ bs w, leadsTo a' bs w → leadsTo a bs w ∨ (bs = bits ∧ w = sym)
  grows : a.length ≤ a'.length
  growsBy : a'.length ≤ a.length + bits.length
  symbols : ∀ (j : Nat) (nd : Node), a'[j]? = some nd → nd.leaf ≠ undefinedLeaf →
    a[j]? = some nd ∨ walk a' bits 0 = some j ∧ nd.leaf = sym

/-- A symbol below TAB_ENTRIES is not UNDEFINED_LEAF (R15). -/
theorem symbol_ne_undefined (ht : cfg.tabEntries ≤ 65536) (hs : sym.toNat < cfg.tabEntries) : sym ≠ undefinedLeaf := by
  rintro rfl
  have : undefinedLeaf.toNat = 2 ^ 32 - 1 := by decide
  omega

theorem insert_ok {a a' : List Node} (h : ArenaWf cfg a) (hp : cfg.nodeMax ≤ 2 ^ 32 - 1) (ht : cfg.tabEntries ≤ 65536)
    (hs : sym.toNat < cfg.tabEntries) (hi : insert cfg sym len code a = .ok a') :
    (1 ≤ len.toNat ∧ len.toNat ≤ 32) ∧ InsertSpec cfg sym (codeBits len.toNat code) a a' := by
  unfold insert at hi
  split at hi
  · cases hi
  · next hlen =>
    rw [not_or, Nat.not_lt, Nat.not_lt] at hlen
    refine ⟨hlen, ?_⟩
    obtain ⟨⟨a1, k⟩, hw, hst⟩ := Result.bind_eq_ok.1 hi
    obtain ⟨hP, hE, hwalk, hgrow, hsym⟩ := insertWalk_ok (h.preWf hp) hw
    obtain ⟨nd, hk, hc, hl, rfl⟩ := storeLeaf_ok hst
    have hne := symbol_ne_undefined ht hs
    have hk1 : 1 ≤ k := by
      by_contra h0
      obtain rfl : k = 0 := by omega
      have mono : ∀ (bs : List Bool) (j : Nat), walk a1 bs j = some 0 → bs.length + j = 0 := by
        intro bs
        induction bs with
        | nil => intro j hj; simp only [walk_nil, Option.some.injEq] at hj; simp [hj]
        | cons b bs ih =>
          intro j hj
          obtain ⟨n1, g1, g2, g3⟩ := walk_cons.1 hj
          have := ih _ g3
          have := hP.childRange j n1 b g1 g2
          omega
      have := mono _ _ hwalk
      rw [codeBits_length] at this
      omega
    have hget : ∀ (j : Nat) (nj : Node), (a1.set k { nd with leaf := sym })[j]? = some nj →
        (j = k ∧ nj = { nd with leaf := sym }) ∨ (j ≠ k ∧ a1[j]? = some nj) := by
      intro j nj hj
      by_cases hjk : k = j
      · subst hjk
        rw [List.getElem?_set_self hP.inUse] at hj
        cases hj
        exact .inl ⟨rfl, rfl⟩
      · rw [List.getElem?_set_ne hjk] at hj
        exact .inr ⟨fun e => hjk e.symm, hj⟩
    have hwf : ArenaWf cfg (a1.set k { nd with leaf := sym }) := by
      refine ⟨?_, ?_, ?_, ?_, ?_, ?_, ?_⟩
      · have := hP.inUse; rw [List.length_set]; omega
      · rw [List.length_set]; exact hP.fits
      · intro j nj b hj hb
        rw [List.length_set]
        rcases hget j nj hj with ⟨rfl, rfl⟩ | ⟨-, hj⟩
        · rw [Node.child_withLeaf] at hb ⊢
          exact hP.childRange j nd b hk hb
        · exact hP.childRange j nj b hj hb
      · intro m h1 h2
        rw [List.length_set] at h2
        obtain ⟨k0, b0, ⟨n0, hn0, hm0⟩, hu⟩ := hP.oneParent m h1 h2
        refine ⟨k0, b0, ?_, ?_⟩
        · by_cases hkk : k = k0
          · subst hkk
            rw [hk] at hn0
            cases hn0
            exact ⟨_, List.getElem?_set_self hP.inUse, by rw [Node.child_withLeaf]; exact hm0⟩
          · exact ⟨n0, by rw [List.getElem?_set_ne hkk]; exact hn0, hm0⟩
        · rintro k' b' ⟨n', hn', hm'⟩
          rcases hget k' n' hn' with ⟨rfl, rfl⟩ | ⟨-, hj⟩
          · exact hu _ _ ⟨nd, hk, by rw [Node.child_withLeaf] at hm'; exact hm'⟩
          · exact hu _ _ ⟨n', hj, hm'⟩
      · intro j nj hj hcj
        rcases hget j nj hj with ⟨rfl, rfl⟩ | ⟨-, hj⟩
        · rw [Node.childless_withLeaf, hc] at hcj
          cases hcj
        · exact hP.innerNoSymbol j nj hj hcj
      · intro j nj hj
        rcases hget j nj hj with ⟨rfl, rfl⟩ | ⟨-, hj⟩
        · exact .inr hs
        · exact hP.symbolRange j nj hj
      · intro j nj h1 hj hcj
        rcases hget j nj hj with ⟨rfl, rfl⟩ | ⟨hjk, hj⟩
        · exact hne
        · exact hP.leafSymbol j nj h1 hjk hj hcj
    have hnew : leadsTo (a1.set k { nd with leaf := sym }) (codeBits len.toNat code) sym :=
      ⟨k, _, by rw [walk_set_leaf hk]; exact hwalk, List.getElem?_set_self hP.inUse, hc, rfl, hne⟩
    refine ⟨hwf, hnew, ?_, ?_, ?_, ?_, ?_⟩
    · intro bs w hb
      obtain ⟨m, nm, g1, g2, g3, g4, g5⟩ := hE.leadsTo hb
      have hmk : k ≠ m := by
        rintro rfl
        rw [hk] at g2
        cases g2
        rw [hl] at g4
        exact g5 g4.symm
      exact ⟨m, nm, by rw [walk_set_leaf hk]; exact g1, by rw [List.getElem?_set_ne hmk]; exact g2, g3, g4, g5⟩
    · rintro bs w ⟨m, nm, g1, g2, g3, rfl, g5⟩
      rcases hget m nm g2 with ⟨rfl, rfl⟩ | ⟨hmk, g2⟩
      · obtain ⟨m', nm', g1', -⟩ := hnew
        have hw2 : walk (a1.set m { nd with leaf := sym }) (codeBits len.toNat code) 0 = some m := by
          rw [walk_set_leaf hk]; exact hwalk
        exact .inr ⟨hwf.walk_inj g1 hw2, rfl⟩
      · have hold := hsym m nm g2 g5
        have hml : m < a.length := by
          by_contra hge
          rw [List.getElem?_eq_none (by omega)] at hold
          cases hold
        rw [walk_set_leaf hk] at g1
        exact .inl ⟨m, nm, hE.walk_back (fun j nj b hj hb => (hP.childRange j nj b hj hb).1) h.nonempty g1 hml,
          hold, g3, rfl, g5⟩
    · rw [List.length_set]; exact hE.length
    · rw [List.length_set, codeBits_length]; exact hgrow
    · intro j nj hj hn
      rcases hget j nj hj with ⟨rfl, rfl⟩ | ⟨-, hj⟩
      · exact .inr ⟨by rw [walk_set_leaf hk]; exact hwalk, rfl⟩
      · exact .inl (hsym j nj hj hn)

/-- Insert completes where the length is legal, there is room for the path's missing nodes, no node on the way carries a
symbol, and the path does not exist yet. -/
theorem insert_completes {a : List Node} (h : ArenaWf cfg a) (hp : cfg.nodeMax ≤ 2 ^ 32 - 1)
    (hl : 1 ≤ len.toNat ∧ len.toNat ≤ 32)
    (hr : ∀ d m, d < len.toNat → walk a ((codeBits len.toNat code).take d) 0 = some m →
      walk a ((codeBits len.toNat code).take (d + 1)) 0 = none → a.length + (len.toNat - d) ≤ cfg.nodeMax)
    (hf : ∀ j, j < len.toNat → ∀ w, ¬ leadsTo a ((codeBits len.toNat code).take j) w)
    (hn : walk a (codeBits len.toNat code) 0 = none) : ∃ a', insert cfg sym len code a = .ok a' := by
  obtain ⟨a1, k, hw, hk⟩ := insertWalk_new (sym := sym) (len := len) (h.preWf hp) hr (by
    intro j hj m nd hm hnd
    by_contra hu
    exact hf j hj nd.leaf ⟨m, nd, hm, hnd, h.symbol_childless hnd hu, rfl, hu⟩) hn
  refine ⟨a1.set k { Node.empty with leaf := sym }, ?_⟩
  unfold insert
  rw [if_neg (by unfold maxBits; omega), hw]
  have e0 : Node.empty.c0 = nil32 := rfl
  have e1 : Node.empty.c1 = nil32 := rfl
  simp [storeLeaf, hk, e0, e1]

/-- Insert never faults on a well-formed arena. -/
theorem insert_no_fault {a : List Node} {x : Fault} (h : ArenaWf cfg a) (hp : cfg.nodeMax ≤ 2 ^ 32 - 1) :
    insert cfg sym len code a ≠ .fault x := by
  intro hx
  unfold insert at hx
  split at hx
  · cases hx
  · rcases Result.bind_eq_fault.1 hx with hx | ⟨⟨a1, k⟩, hw, hx⟩
    · exact insertWalk_no_fault (h.preWf hp) hx
    · obtain ⟨hP, -⟩ := insertWalk_ok (h.preWf hp) hw
      have hk := List.getElem?_eq_getElem hP.inUse
      simp only [storeLeaf, hk] at hx
      split at hx
      · cases hx
      · split at hx <;> cases hx

/-- The errors Insert can raise (R152, R217). -/
theorem insert_raised {a : List Node} {e : Raise} (h : insert cfg sym len code a = .raised e) :
    (e.cause = .badLength ∨ e.cause = .leafOnPath ∨ e.cause = .arenaFull ∨ e.cause = .internalAtLeaf ∨
      e.cause = .duplicateCode) ∧ e.pos = sym.toNat ∧ e.exp = len.toNat ∧ e.fnd = code.toNat ∧
      e.plane = none ∧ e.sample = none := by
  unfold insert at h
  split at h
  · simp only [Result.raised.injEq] at h; subst h; simp
  · rcases Result.bind_eq_raised.1 h with h | ⟨⟨a1, k⟩, -, h⟩
    · obtain ⟨h1, h2⟩ := insertWalk_raised h
      exact ⟨by tauto, h2⟩
    · obtain ⟨h1, h2⟩ := storeLeaf_raised h
      exact ⟨by tauto, h2⟩

/-! ### Build -/

variable {ctab : Memory 32} {t : Fin 3}

/-- A table entry inside the table is its two words. -/
theorem tableEntry_inside {i : Nat} (h : i < cfg.tabEntries) :
    tableEntry cfg ctab t i =
      .ok (ctab.read (8 * (t.val * cfg.tabEntries + i)), ctab.read (8 * (t.val * cfg.tabEntries + i) + 4)) := by
  simp [tableEntry, h, ctabOffset]

theorem ofNat_toNat_of_entry {i : Nat} (ht : cfg.tabEntries ≤ 65536) (hi : i < cfg.tabEntries) :
    (BitVec.ofNat 32 i).toNat = i := by
  rw [BitVec.toNat_ofNat, Nat.mod_eq_of_lt (by omega)]

/-- What a tree holds after the entries below `i` of table `t` were inserted in an empty one. -/
structure BuiltTo (cfg : Config) (ctab : Memory 32) (t : Fin 3) (i : Nat) (a : List Node) : Prop where
  wf : ArenaWf cfg a
  lengths : ∀ j, j < i → 1 ≤ entryLen cfg ctab t j ∧ entryLen cfg ctab t j ≤ 32
  codes : ∀ j, j < i → leadsTo a (entryBits cfg ctab t j) (BitVec.ofNat 32 j)
  only : ∀ bs w, leadsTo a bs w → ∃ j, j < i ∧ bs = entryBits cfg ctab t j ∧ w = BitVec.ofNat 32 j
  size : a.length ≤ 1 + 32 * i
  symbols : ∀ (k : Nat) (nd : Node), a[k]? = some nd → nd.leaf ≠ undefinedLeaf →
    ∃ j, j < i ∧ nd.leaf = BitVec.ofNat 32 j ∧ walk a (entryBits cfg ctab t j) 0 = some k

theorem BuiltTo.start (h : 1 ≤ cfg.nodeMax) : BuiltTo cfg ctab t 0 [Node.empty] where
  wf := .empty h
  lengths := fun j hj => absurd hj (Nat.not_lt_zero j)
  codes := fun j hj => absurd hj (Nat.not_lt_zero j)
  only := by
    rintro bs w ⟨k, nd, -, hk, -, rfl, hu⟩
    rcases k with _ | k
    · simp only [List.getElem?_cons_zero, Option.some.injEq] at hk; subst hk; exact absurd rfl hu
    · simp at hk
  size := by simp
  symbols := by
    intro k nd hk hu
    rcases k with _ | k
    · simp only [List.getElem?_cons_zero, Option.some.injEq] at hk; subst hk; exact absurd rfl hu
    · simp at hk

/-- One turn of the loop of Build keeps the description. -/
theorem BuiltTo.next {i : Nat} {a a' : List Node} (h : BuiltTo cfg ctab t i a) (hc : cfg.wf) (hi : i < cfg.tabEntries)
    (hx : insert cfg (BitVec.ofNat 32 i) (ctab.read (8 * (t.val * cfg.tabEntries + i)))
      (ctab.read (8 * (t.val * cfg.tabEntries + i) + 4)) a = .ok a') : BuiltTo cfg ctab t (i + 1) a' := by
  have hs : (BitVec.ofNat 32 i).toNat = i := ofNat_toNat_of_entry hc.2.2.1.2 hi
  obtain ⟨hl, hI⟩ := insert_ok h.wf hc.2.2.2.2 hc.2.2.1.2 (by rw [hs]; exact hi) hx
  have hb : codeBits (ctab.read (8 * (t.val * cfg.tabEntries + i))).toNat (ctab.read (8 * (t.val * cfg.tabEntries + i) + 4))
      = entryBits cfg ctab t i := rfl
  rw [hb] at hI
  refine ⟨hI.wf, ?_, ?_, ?_, ?_, ?_⟩
  · intro j hj
    rcases Nat.lt_succ_iff_lt_or_eq.1 hj with hj | rfl
    · exact h.lengths j hj
    · exact hl
  · intro j hj
    rcases Nat.lt_succ_iff_lt_or_eq.1 hj with hj | rfl
    · exact hI.old _ _ (h.codes j hj)
    · exact hI.new
  · intro bs w hw
    rcases hI.only bs w hw with hw | ⟨rfl, rfl⟩
    · obtain ⟨j, h1, h2⟩ := h.only bs w hw
      exact ⟨j, by omega, h2⟩
    · exact ⟨i, by omega, rfl, rfl⟩
  · have := hI.growsBy
    have := h.size
    have : (entryBits cfg ctab t i).length ≤ 32 := by simp only [entryBits, codeBits_length]; exact hl.2
    omega
  · intro k nd hk hu
    rcases hI.symbols k nd hk hu with hk' | ⟨hw, hn⟩
    · obtain ⟨j, h1, h2, h3⟩ := h.symbols k nd hk' hu
      refine ⟨j, by omega, h2, ?_⟩
      obtain ⟨k2, nd2, hw2, -⟩ := hI.old _ _ (h.codes j h1)
      have hlead : leadsTo a (entryBits cfg ctab t j) nd.leaf := by rw [h2]; exact h.codes j h1
      obtain ⟨k3, nd3, g1, g2, g3, g4, g5⟩ := hI.old _ _ hlead
      by_cases hkk : k3 = k
      · subst hkk; exact g1
      · exfalso
        rcases hI.symbols k3 nd3 g2 (by rw [g4]; exact hu) with q | ⟨q1, q2⟩
        · obtain ⟨j', q3, q4, q5⟩ := h.symbols k3 nd3 q (by rw [g4]; exact hu)
          have hjj : j' = j := by
            have e : BitVec.ofNat 32 j' = BitVec.ofNat 32 j := by rw [← q4, g4, h2]
            have e := congrArg BitVec.toNat e
            rw [ofNat_toNat_of_entry hc.2.2.1.2 (by omega), ofNat_toNat_of_entry hc.2.2.1.2 (by omega)] at e
            exact e
          subst hjj
          rw [h3] at q5
          exact hkk (Option.some.inj q5).symm
        · have e : BitVec.ofNat 32 i = BitVec.ofNat 32 j := by rw [← q2, g4, h2]
          have e := congrArg BitVec.toNat e
          rw [ofNat_toNat_of_entry hc.2.2.1.2 (by omega), ofNat_toNat_of_entry hc.2.2.1.2 (by omega)] at e
          omega
    · exact ⟨i, by omega, hn, hw⟩

/-- One turn of the loop of Build. -/
theorem buildLoop_succ {fuel i : Nat} {a : List Node} (hi : i < cfg.tabEntries) :
    buildLoop cfg ctab t (fuel + 1) i a =
      if ctab.read (8 * (t.val * cfg.tabEntries + i)) = 0#32 then .ok (a, i)
      else (insert cfg (BitVec.ofNat 32 i) (ctab.read (8 * (t.val * cfg.tabEntries + i)))
        (ctab.read (8 * (t.val * cfg.tabEntries + i) + 4)) a).bind fun a' => buildLoop cfg ctab t fuel (i + 1) a' := by
  rw [buildLoop, tableEntry_inside hi, Result.bind_ok]

theorem entryLen_eq_zero {i : Nat} :
    entryLen cfg ctab t i = 0 ↔ ctab.read (8 * (t.val * cfg.tabEntries + i)) = 0#32 := by
  unfold entryLen
  constructor
  · intro h; exact BitVec.eq_of_toNat_eq h
  · intro h; rw [h]; rfl

theorem buildLoop_ok {fuel i n : Nat} {a a' : List Node} (hc : cfg.wf) (hf : fuel + i = cfg.tabEntries)
    (h : BuiltTo cfg ctab t i a) (hb : buildLoop cfg ctab t fuel i a = .ok (a', n)) :
    BuiltTo cfg ctab t n a' ∧ n < cfg.tabEntries ∧ entryLen cfg ctab t n = 0 := by
  induction fuel generalizing i a with
  | zero => simp [buildLoop] at hb
  | succ fuel ih =>
    rw [buildLoop_succ (by omega)] at hb
    split at hb
    · next hz =>
      simp only [Result.ok.injEq, Prod.mk.injEq] at hb
      obtain ⟨rfl, rfl⟩ := hb
      exact ⟨h, by omega, entryLen_eq_zero.2 hz⟩
    · obtain ⟨a1, hx, hb⟩ := Result.bind_eq_ok.1 hb
      exact ih (by omega) (h.next hc (by omega) hx) hb

/-- If Build answers `n` codes, the table is a prefix code of `n` symbols, and the tree decodes exactly its codes. -/
theorem build_ok {n : Nat} {a : List Node} (hc : cfg.wf) (h : build cfg ctab t = .ok (a, n)) :
    BuiltTo cfg ctab t n a ∧ PrefixTable cfg ctab t n := by
  obtain ⟨hB, hn, hz⟩ := buildLoop_ok hc (by omega) (BuiltTo.start hc.2.2.2.1) h
  refine ⟨hB, hn, hB.lengths, hz, ?_⟩
  intro i j hi hj hij hp
  have := (leadsTo_prefix (hB.codes i hi) (hB.codes j hj) hp).2
  have := congrArg BitVec.toNat this
  rw [ofNat_toNat_of_entry hc.2.2.1.2 (by omega), ofNat_toNat_of_entry hc.2.2.1.2 (by omega)] at this
  exact hij this

/-! ### The number of nodes -/

theorem entryBits_length (i : Nat) : (entryBits cfg ctab t i).length = entryLen cfg ctab t i := codeBits_length _ _

theorem mem_codePaths {n : Nat} {bs : List Bool} :
    bs ∈ codePaths cfg ctab t n ↔ bs = [] ∨ ∃ i, i < n ∧ bs <+: entryBits cfg ctab t i := by
  simp [codePaths]

theorem nodesNeeded_eq_card (n : Nat) : nodesNeeded cfg ctab t n = (codePaths cfg ctab t n).toFinset.card := by
  rw [nodesNeeded, List.card_toFinset]

theorem nodesNeeded_mono {m n : Nat} (h : m ≤ n) : nodesNeeded cfg ctab t m ≤ nodesNeeded cfg ctab t n := by
  rw [nodesNeeded_eq_card, nodesNeeded_eq_card]
  refine Finset.card_le_card fun bs hb => ?_
  rw [List.mem_toFinset, mem_codePaths] at hb ⊢
  rcases hb with hb | ⟨i, hi, hb⟩
  · exact .inl hb
  · exact .inr ⟨i, by omega, hb⟩

/-- An entry whose first `d` bits are a path of the entries before it, and whose first `d + 1` bits are not, needs one
node more for each of its other bits. -/
theorem nodesNeeded_succ {n d : Nat} (hd : d < (entryBits cfg ctab t n).length)
    (h : (entryBits cfg ctab t n).take d ∈ codePaths cfg ctab t n)
    (h' : (entryBits cfg ctab t n).take (d + 1) ∉ codePaths cfg ctab t n) :
    nodesNeeded cfg ctab t (n + 1) = nodesNeeded cfg ctab t n + ((entryBits cfg ctab t n).length - d) := by
  have closed : ∀ {as bs : List Bool}, as <+: bs → bs ∈ codePaths cfg ctab t n → as ∈ codePaths cfg ctab t n := by
    intro as bs hp hb
    rw [mem_codePaths] at hb ⊢
    rcases hb with rfl | ⟨i, hi, hb⟩
    · exact .inl (List.prefix_nil.1 hp)
    · exact .inr ⟨i, hi, hp.trans hb⟩
  have hnew : ((List.range ((entryBits cfg ctab t n).length - d)).map
      fun j => (entryBits cfg ctab t n).take (d + 1 + j)).Nodup := by
    refine List.Nodup.map_on (fun x hx y hy e => ?_) List.nodup_range
    rw [List.mem_range] at hx hy
    have e := congrArg List.length e
    rw [List.length_take, List.length_take] at e
    omega
  rw [nodesNeeded_eq_card, nodesNeeded_eq_card, show (codePaths cfg ctab t (n + 1)).toFinset =
    (codePaths cfg ctab t n).toFinset ∪ ((List.range ((entryBits cfg ctab t n).length - d)).map
      fun j => (entryBits cfg ctab t n).take (d + 1 + j)).toFinset from ?_, Finset.card_union_of_disjoint,
    List.toFinset_card_of_nodup hnew, List.length_map, List.length_range]
  · rw [Finset.disjoint_left]
    intro bs hb hm
    simp only [List.mem_toFinset, List.mem_map, List.mem_range] at hb hm
    obtain ⟨j, hj, rfl⟩ := hm
    exact h' (closed (List.take_prefix_take_left (by omega)) hb)
  · ext bs
    simp only [Finset.mem_union, List.mem_toFinset, List.mem_map, List.mem_range]
    constructor
    · intro hmem
      rcases mem_codePaths.1 hmem with rfl | ⟨i, hi, hb⟩
      · exact .inl (mem_codePaths.2 (.inl rfl))
      · rcases Nat.lt_succ_iff_lt_or_eq.1 hi with hi | rfl
        · exact .inl (mem_codePaths.2 (.inr ⟨i, hi, hb⟩))
        · have hlen := hb.length_le
          rw [List.prefix_iff_eq_take] at hb
          by_cases hle : bs.length ≤ d
          · rw [hb]
            exact .inl (closed (List.take_prefix_take_left hle) h)
          · exact .inr ⟨bs.length - d - 1, by omega, by rw [show d + 1 + (bs.length - d - 1) = bs.length by omega, ← hb]⟩
    · rintro (hb | ⟨j, hj, rfl⟩)
      · rw [mem_codePaths] at hb ⊢
        rcases hb with hb | ⟨i, hi, hb⟩
        · exact .inl hb
        · exact .inr ⟨i, by omega, hb⟩
      · exact mem_codePaths.2 (.inr ⟨n, by omega, List.take_prefix _ _⟩)

/-- Every node of a well-formed arena is reached from the root (R61 (b), (c)). -/
theorem ArenaWf.reached (h : ArenaWf cfg arena) (hp : cfg.nodeMax ≤ 2 ^ 32 - 1) (k : Nat) (hk : k < arena.length) :
    ∃ bs, walk arena bs 0 = some k := by
  induction k using Nat.strongRecOn with
  | _ k ih =>
    by_cases h0 : k = 0
    · exact ⟨[], by rw [walk_nil, h0]⟩
    · obtain ⟨k0, b, ⟨nd, hn, hm⟩, -⟩ := h.oneParent k (by omega) hk
      have hb : nd.child b ≠ nil32 := by
        intro e
        have hnil : nil32.toNat = 2 ^ 32 - 1 := rfl
        have := h.fits
        rw [e] at hm
        omega
      have hr := h.childRange k0 nd b hn hb
      obtain ⟨bs, hw⟩ := ih k0 (by omega) (by omega)
      exact ⟨bs ++ [b], walk_snoc.2 ⟨k0, nd, hw, hn, hb, hm.symm⟩⟩

/-- The paths of the tree of the first `i` entries are the prefixes of their codes. -/
theorem BuiltTo.path_iff {i : Nat} {a : List Node} (h : BuiltTo cfg ctab t i a) {bs : List Bool} :
    (∃ k, walk a bs 0 = some k) ↔ bs ∈ codePaths cfg ctab t i := by
  rw [mem_codePaths]
  constructor
  · rintro ⟨k, hw⟩
    have hr := h.wf.walk_range h.wf.nonempty hw
    by_cases h1 : 1 ≤ k
    · obtain ⟨cs, k', nd, hw', hk', hc, hu⟩ := h.wf.reaches_symbol k h1 hr.2
      obtain ⟨j, hj, hbits, -⟩ := h.only _ _ ⟨k', nd, walk_append.2 ⟨k, hw, hw'⟩, hk', hc, rfl, hu⟩
      exact .inr ⟨j, hj, cs, hbits⟩
    · exact .inl (List.eq_nil_of_length_eq_zero (by omega))
  · rintro (rfl | ⟨j, hj, cs, hbits⟩)
    · exact ⟨0, rfl⟩
    · obtain ⟨k, -, hw, -⟩ := h.codes j hj
      rw [← hbits] at hw
      obtain ⟨m, hm, -⟩ := walk_append.1 hw
      exact ⟨m, hm⟩

/-- The tree of the first `i` entries has exactly the nodes they need. -/
theorem BuiltTo.length_eq {i : Nat} {a : List Node} (h : BuiltTo cfg ctab t i a) (hp : cfg.nodeMax ≤ 2 ^ 32 - 1) :
    a.length = nodesNeeded cfg ctab t i := by
  rw [nodesNeeded_eq_card, ← Finset.card_range a.length]
  refine (Finset.card_nbij (fun bs => (walk a bs 0).getD 0) ?_ ?_ ?_).symm
  · intro bs hb
    rw [Finset.mem_coe, List.mem_toFinset, ← h.path_iff] at hb
    obtain ⟨k, hw⟩ := hb
    simpa [hw] using (h.wf.walk_range h.wf.nonempty hw).2
  · intro as ha bs hb e
    rw [Finset.mem_coe, List.mem_toFinset, ← h.path_iff] at ha hb
    obtain ⟨k, ha⟩ := ha
    obtain ⟨k', hb⟩ := hb
    simp only [ha, hb, Option.getD_some] at e
    subst e
    exact h.wf.walk_inj ha hb
  · intro k hk
    rw [Finset.mem_coe, Finset.mem_range] at hk
    obtain ⟨bs, hw⟩ := h.wf.reached hp k hk
    exact ⟨bs, by rw [Finset.mem_coe, List.mem_toFinset, ← h.path_iff]; exact ⟨k, hw⟩, by simp [hw]⟩

/-- Where the next entry's code leaves the tree after `d` bits, the tree and the missing nodes are what the entries up to
it need. -/
theorem BuiltTo.length_next {i d m : Nat} {a : List Node} (h : BuiltTo cfg ctab t i a) (hp : cfg.nodeMax ≤ 2 ^ 32 - 1)
    (hd : d < entryLen cfg ctab t i) (hw : walk a ((entryBits cfg ctab t i).take d) 0 = some m)
    (hn : walk a ((entryBits cfg ctab t i).take (d + 1)) 0 = none) :
    a.length + (entryLen cfg ctab t i - d) = nodesNeeded cfg ctab t (i + 1) := by
  have hl := entryBits_length (cfg := cfg) (ctab := ctab) (t := t) i
  rw [nodesNeeded_succ (d := d) (by omega) (h.path_iff.1 ⟨m, hw⟩) (by rw [← h.path_iff, hn]; simp), h.length_eq hp, hl]

/-- Insert of entry `i` completes in the tree of the entries before it, where its length is legal, neither its code nor
one of theirs is a prefix of the other, and the nodes needed fit the arena. -/
theorem BuiltTo.insert_completes {i : Nat} {a : List Node} (hB : BuiltTo cfg ctab t i a) (hc : cfg.wf)
    (hl : 1 ≤ entryLen cfg ctab t i ∧ entryLen cfg ctab t i ≤ 32)
    (hf : ∀ j, j < i → ¬ entryBits cfg ctab t j <+: entryBits cfg ctab t i ∧
      ¬ entryBits cfg ctab t i <+: entryBits cfg ctab t j)
    (hr : nodesNeeded cfg ctab t (i + 1) ≤ cfg.nodeMax) :
    ∃ a', insert cfg (BitVec.ofNat 32 i) (ctab.read (8 * (t.val * cfg.tabEntries + i)))
      (ctab.read (8 * (t.val * cfg.tabEntries + i) + 4)) a = .ok a' := by
  refine Machine.insert_completes hB.wf hc.2.2.2.2 hl ?_ ?_ ?_
  · intro d m hd hw hn
    exact (hB.length_next hc.2.2.2.2 hd hw hn).trans_le hr
  · intro j _ w hw
    obtain ⟨j', hj', hbits, -⟩ := hB.only _ _ hw
    exact (hf j' hj').1 (hbits ▸ List.take_prefix _ _)
  · cases hw : walk a (entryBits cfg ctab t i) 0 with
    | none => exact hw
    | some k =>
      rcases mem_codePaths.1 (hB.path_iff.1 ⟨k, hw⟩) with h0 | ⟨j, hj, hp⟩
      · have := congrArg List.length h0
        rw [entryBits_length, List.length_nil] at this
        omega
      · exact absurd hp (hf j hj).2

/-- Build reaches entry `n` with the tree of the entries before it, where those are a prefix code whose nodes fit the
arena. -/
theorem build_reaches {n : Nat} (hc : cfg.wf) (hn : n ≤ cfg.tabEntries)
    (hl : ∀ i, i < n → 1 ≤ entryLen cfg ctab t i ∧ entryLen cfg ctab t i ≤ 32)
    (hf : ∀ i j, i < n → j < n → i ≠ j → ¬ entryBits cfg ctab t i <+: entryBits cfg ctab t j)
    (hr : nodesNeeded cfg ctab t n ≤ cfg.nodeMax) :
    ∃ a, BuiltTo cfg ctab t n a ∧ build cfg ctab t = buildLoop cfg ctab t (cfg.tabEntries - n) n a := by
  induction n with
  | zero => exact ⟨_, BuiltTo.start hc.2.2.2.1, rfl⟩
  | succ n ih =>
    obtain ⟨a, hB, hb⟩ := ih (by omega) (fun i hi => hl i (by omega)) (fun i j hi hj => hf i j (by omega) (by omega))
      ((nodesNeeded_mono (Nat.le_succ n)).trans hr)
    have hln := hl n (Nat.lt_succ_self n)
    obtain ⟨a', hx⟩ := hB.insert_completes hc hln
      (fun j hj => ⟨hf j n (by omega) (by omega) (by omega), hf n j (by omega) (by omega) (by omega)⟩) hr
    refine ⟨a', hB.next hc (by omega) hx, ?_⟩
    rw [hb, show cfg.tabEntries - n = cfg.tabEntries - (n + 1) + 1 by omega, buildLoop_succ (by omega),
      if_neg (by rw [← entryLen_eq_zero]; omega), hx, Result.bind_ok]

/-- Build completes on a prefix code whose nodes fit the arena. -/
theorem build_completes {n : Nat} (hc : cfg.wf) (h : PrefixTable cfg ctab t n) (hr : nodesNeeded cfg ctab t n ≤ cfg.nodeMax) :
    ∃ a, build cfg ctab t = .ok (a, n) := by
  have hroom := h.room
  obtain ⟨a, -, hb⟩ := build_reaches hc (Nat.le_of_lt hroom) h.lengths h.free hr
  refine ⟨a, ?_⟩
  rw [hb, show cfg.tabEntries - n = cfg.tabEntries - n - 1 + 1 by omega, buildLoop_succ hroom,
    if_pos (entryLen_eq_zero.1 h.sentinel)]

/-- Build never faults. -/
theorem build_no_fault {x : Fault} (hc : cfg.wf) : build cfg ctab t ≠ .fault x := by
  suffices H : ∀ fuel i a, fuel + i = cfg.tabEntries → BuiltTo cfg ctab t i a →
      buildLoop cfg ctab t fuel i a ≠ .fault x from
    H cfg.tabEntries 0 _ (by omega) (BuiltTo.start hc.2.2.2.1)
  intro fuel
  induction fuel with
  | zero => intro i a _ _; simp [buildLoop]
  | succ fuel ih =>
    intro i a hf hB hx
    rw [buildLoop_succ (by omega)] at hx
    split at hx
    · cases hx
    · rcases Result.bind_eq_fault.1 hx with hx | ⟨a1, ha, hx⟩
      · exact insert_no_fault hB.wf hc.2.2.2.2 hx
      · exact ih (i + 1) a1 (by omega) (hB.next hc (by omega) ha) hx

/-- The errors Build can raise are those of CorruptTable (R153, R217). -/
theorem build_raised {e : Raise} (h : build cfg ctab t = .raised e) :
    e.cause ∈ mayRaise (.htBuild t) ∧ e.cause.code = 4#8 ∧ e.plane = none ∧ e.sample = none := by
  suffices H : ∀ fuel i a, fuel + i = cfg.tabEntries → buildLoop cfg ctab t fuel i a = .raised e →
      e.cause ∈ mayRaise (.htBuild t) ∧ e.cause.code = 4#8 ∧ e.plane = none ∧ e.sample = none from
    H _ _ _ (Nat.add_zero _) h
  intro fuel
  induction fuel with
  | zero => intro i a _ h; simp only [buildLoop, Result.raised.injEq] at h; subst h; simp [Cause.code, mayRaise]
  | succ fuel ih =>
    intro i a hf h
    rw [buildLoop_succ (by omega)] at h
    split at h
    · cases h
    · rcases Result.bind_eq_raised.1 h with h | ⟨a1, -, h⟩
      · obtain ⟨h1, -, -, -, h2⟩ := insert_raised h
        refine ⟨?_, ?_, h2⟩ <;> rcases h1 with h1 | h1 | h1 | h1 | h1 <;> rw [h1] <;> simp [mayRaise, Cause.code]
      · exact ih (i + 1) a1 (by omega) h

end Sys2Proof.Machine
end

