-- ==== Sys2Proof/Laws/Memory.lean ====
section
/-! SUPPORT. The laws of a memory: what a read after a write gives, and that every memory operation keeps the canonical
form and the address range. -/

namespace Sys2Proof.Machine

variable {w : Nat}

@[simp] theorem Memory.read_nil (a : Nat) : Memory.read ([] : Memory w) a = unlisted w := rfl

/-- A read of any other address gives what it gave before the write. -/
theorem Memory.read_write_ne {m : Memory w} {a b : Nat} {v : BitVec w} (h : b ≠ a) :
    (m.write a v).read b = m.read b := by
  induction m with
  | nil => simp only [Memory.write]; split <;> simp [Memory.read, h]
  | cons c m ih =>
    obtain ⟨c, x⟩ := c
    simp only [Memory.write]
    split
    · split <;> simp [Memory.read, h]
    · split
      · next hac => subst hac; split <;> simp [Memory.read, h]
      · simp [Memory.read, ih]

theorem Memory.above_mono {m : Memory w} {a b : Nat} (h : Memory.above b m = true) (hab : a ≤ b) :
    Memory.above a m = true := by
  induction m with
  | nil => rfl
  | cons c m ih =>
    simp only [Memory.above, Bool.and_eq_true, decide_eq_true_eq] at h ⊢
    exact ⟨by omega, ih h.2⟩

/-- An address below every listed one reads as unlisted. -/
theorem Memory.read_above {m : Memory w} {a : Nat} (h : Memory.above a m = true) : m.read a = unlisted w := by
  induction m with
  | nil => rfl
  | cons c m ih =>
    obtain ⟨c, x⟩ := c
    simp only [Memory.above, Bool.and_eq_true, decide_eq_true_eq] at h
    simp only [Memory.read]
    rw [if_neg (by omega), ih h.2]

/-- A read of the address just written gives the value written. -/
theorem Memory.read_write_self {m : Memory w} {a : Nat} {v : BitVec w} (hm : m.wf = true) :
    (m.write a v).read a = v := by
  induction m with
  | nil => simp only [Memory.write]; split <;> simp_all [Memory.read]
  | cons c m ih =>
    obtain ⟨c, x⟩ := c
    simp only [Memory.wf, Bool.and_eq_true, decide_eq_true_eq] at hm
    obtain ⟨⟨hab, hx⟩, hm⟩ := hm
    simp only [Memory.write]
    split
    · next hac =>
      split
      · next hv =>
        have : Memory.above a ((c, x) :: m) = true := by
          simp [Memory.above, hac, Memory.above_mono hab (Nat.le_of_lt hac)]
        rw [Memory.read_above this, hv]
      · simp [Memory.read]
    · split
      · next hac =>
        subst hac
        split
        · next hv => rw [Memory.read_above hab, hv]
        · simp [Memory.read]
      · next hac => simp [Memory.read, hac, ih hm]

theorem Memory.above_write {m : Memory w} {a b : Nat} {v : BitVec w} (h : Memory.above b m = true) (hab : b < a) :
    Memory.above b (m.write a v) = true := by
  induction m with
  | nil => simp only [Memory.write]; split <;> simp [Memory.above, hab]
  | cons c m ih =>
    obtain ⟨c, x⟩ := c
    simp only [Memory.above, Bool.and_eq_true, decide_eq_true_eq] at h
    simp only [Memory.write]
    split
    · split <;> simp [Memory.above, hab, h]
    · split
      · split <;> simp [Memory.above, hab, h]
      · simp [Memory.above, h, ih h.2]

/-- A write keeps the canonical form. -/
theorem Memory.wf_write {m : Memory w} {a : Nat} {v : BitVec w} (hm : m.wf = true) : (m.write a v).wf = true := by
  induction m with
  | nil => simp only [Memory.write]; split <;> simp_all [Memory.wf, Memory.above]
  | cons c m ih =>
    obtain ⟨c, x⟩ := c
    simp only [Memory.wf, Bool.and_eq_true, decide_eq_true_eq] at hm
    obtain ⟨⟨hab, hx⟩, hm⟩ := hm
    simp only [Memory.write]
    split
    · next hac =>
      split
      · simp [Memory.wf, hab, hx, hm]
      · next hv => simp [Memory.wf, Memory.above, hac, Memory.above_mono hab (Nat.le_of_lt hac), hv, hab, hx, hm]
    · split
      · next hac =>
        subst hac
        split
        · exact hm
        · next hv => simp [Memory.wf, hab, hv, hm]
      · next h1 h2 => simp [Memory.wf, Memory.above_write hab (by omega : c < a), hx, ih hm]

/-- A write lists no address but the one written and those listed before. -/
theorem Memory.mem_write {m : Memory w} {a : Nat} {v : BitVec w} {c : Nat × BitVec w} (h : c ∈ m.write a v) :
    c.1 = a ∨ c ∈ m := by
  induction m with
  | nil => simp only [Memory.write] at h; split at h <;> simp_all
  | cons d m ih =>
    obtain ⟨d, x⟩ := d
    simp only [Memory.write] at h
    split at h
    · split at h
      · exact .inr h
      · rcases List.mem_cons.1 h with rfl | h
        · exact .inl rfl
        · exact .inr h
    · split at h
      · split at h
        · exact .inr (List.mem_cons_of_mem _ h)
        · rcases List.mem_cons.1 h with rfl | h
          · exact .inl rfl
          · exact .inr (List.mem_cons_of_mem _ h)
      · rcases List.mem_cons.1 h with rfl | h
        · exact .inr List.mem_cons_self
        · rcases ih h with h | h
          · exact .inl h
          · exact .inr (List.mem_cons_of_mem _ h)

/-- Equal contents in canonical form are equal lists: memories compare as what they hold. -/
theorem Memory.ext_wf {m n : Memory w} (hm : m.wf = true) (hn : n.wf = true) (h : ∀ a, m.read a = n.read a) :
    m = n := by
  induction m generalizing n with
  | nil =>
    cases n with
    | nil => rfl
    | cons d n =>
      obtain ⟨d, y⟩ := d
      have := h d
      simp_all [Memory.wf, Memory.read]
  | cons c m ih =>
    obtain ⟨c, x⟩ := c
    simp only [Memory.wf, Bool.and_eq_true, decide_eq_true_eq] at hm
    cases n with
    | nil =>
      have := h c
      simp_all [Memory.read]
    | cons d n =>
      obtain ⟨d, y⟩ := d
      simp only [Memory.wf, Bool.and_eq_true, decide_eq_true_eq] at hn
      have hcd : c = d := by
        rcases Nat.lt_trichotomy c d with hlt | heq | hlt
        · have hc := h c
          simp only [Memory.read, if_true] at hc
          rw [if_neg (by omega), Memory.read_above (Memory.above_mono hn.1.1 (Nat.le_of_lt hlt))] at hc
          exact absurd hc hm.1.2
        · exact heq
        · have hd := h d
          simp only [Memory.read, if_true] at hd
          rw [if_neg (by omega), Memory.read_above (Memory.above_mono hm.1.1 (Nat.le_of_lt hlt))] at hd
          exact absurd hd.symm hn.1.2
      subst hcd
      have hxy : x = y := by simpa [Memory.read] using h c
      subst hxy
      congr 1
      apply ih hm.2 hn.2
      intro a
      by_cases ha : a = c
      · subst ha; rw [Memory.read_above hm.1.1, Memory.read_above hn.1.1]
      · simpa [Memory.read, ha] using h a

/-! ### Several bytes -/

theorem Memory.wf_writeBytes {m : Memory 8} {a : Nat} {v : Word} (hm : m.wf = true) (n : Nat) :
    (m.writeBytes a v n).wf = true := by
  induction n with
  | zero => exact hm
  | succ n ih => exact Memory.wf_write ih

/-- A write of `n` bytes touches the addresses `a` to `a + n − 1` only. -/
theorem Memory.read_writeBytes_out {m : Memory 8} {a b : Nat} {v : Word} (n : Nat) (h : b < a ∨ a + n ≤ b) :
    (m.writeBytes a v n).read b = m.read b := by
  induction n with
  | zero => rfl
  | succ n ih =>
    simp only [Memory.writeBytes]
    rw [Memory.read_write_ne (by omega), ih (by omega)]

/-- Byte `i` of the value lies at address `a + i` (R81). -/
theorem Memory.read_writeBytes_in {m : Memory 8} {a i : Nat} {v : Word} (hm : m.wf = true) (n : Nat) (h : i < n) :
    (m.writeBytes a v n).read (a + i) = v.extractLsb' (8 * i) 8 := by
  induction n with
  | zero => omega
  | succ n ih =>
    simp only [Memory.writeBytes]
    by_cases hi : i = n
    · subst hi; exact Memory.read_write_self (Memory.wf_writeBytes hm i)
    · rw [Memory.read_write_ne (by omega), ih (by omega)]

theorem Memory.mem_writeBytes {m : Memory 8} {a : Nat} {v : Word} {c : Nat × BitVec 8} (n : Nat)
    (h : c ∈ m.writeBytes a v n) : (a ≤ c.1 ∧ c.1 < a + n) ∨ c ∈ m := by
  induction n with
  | zero => exact .inr h
  | succ n ih =>
    rcases Memory.mem_write h with h | h
    · exact .inl ⟨by omega, by omega⟩
    · rcases ih h with h | h
      · exact .inl ⟨h.1, by omega⟩
      · exact .inr h

/-! ### Samples (R178) -/

theorem Memory.wf_writeHalf {m : Memory 8} {a : Nat} {v : Half} (hm : m.wf = true) : (m.writeHalf a v).wf = true :=
  Memory.wf_write (Memory.wf_write hm)

theorem Memory.read_writeHalf_low {m : Memory 8} {a : Nat} {v : Half} (hm : m.wf = true) :
    (m.writeHalf a v).read a = v.extractLsb' 0 8 := by
  unfold Memory.writeHalf
  rw [Memory.read_write_ne (by omega), Memory.read_write_self hm]

theorem Memory.read_writeHalf_high {m : Memory 8} {a : Nat} {v : Half} (hm : m.wf = true) :
    (m.writeHalf a v).read (a + 1) = v.extractLsb' 8 8 :=
  Memory.read_write_self (Memory.wf_write hm)

theorem Memory.read_writeHalf_out {m : Memory 8} {a b : Nat} {v : Half} (h0 : b ≠ a) (h1 : b ≠ a + 1) :
    (m.writeHalf a v).read b = m.read b := by
  unfold Memory.writeHalf
  rw [Memory.read_write_ne h1, Memory.read_write_ne h0]

theorem Memory.mem_writeHalf {m : Memory 8} {a : Nat} {v : Half} {c : Nat × BitVec 8} (h : c ∈ m.writeHalf a v) :
    c.1 = a ∨ c.1 = a + 1 ∨ c ∈ m := by
  rcases Memory.mem_write h with h | h
  · exact .inr (.inl h)
  · rcases Memory.mem_write h with h | h
    · exact .inl h
    · exact .inr (.inr h)

end Sys2Proof.Machine
end

