-- ==== Sys2Proof/Laws/Plane.lean ====
section
/-! SUPPORT. What Resid, PlaneChecks, PlaneBody and Commit can do (R171, R175, R176, R178). -/

namespace Sys2Proof.Machine

/-! ### Residuals -/

theorem residualOf_zero (v : Nat) : residualOf 0 v = 0 := rfl

/-- A residual of size category `s` lies between −(2^s − 1) and 2^s − 1 (R171). -/
theorem residualOf_range {s v : Nat} (h : v < 2 ^ s) : -(2 ^ s - 1 : Int) ≤ residualOf s v ∧ residualOf s v ≤ 2 ^ s - 1 := by
  have h2 : (v : Int) < 2 ^ s := by exact_mod_cast h
  unfold residualOf
  split
  · next hs => subst hs; simp
  · split <;> omega

variable {cfg : Config} {ibuf : Memory 8} {arena : List Node} {lim : Nat} {order : BitOrder}

/-- If Resid answers, a code of size category at most 16 was decoded and its further bits were read. -/
theorem resid_eq_ok {pos pos' : Nat} {d : Int} :
    resid cfg ibuf arena lim order pos = .ok (d, pos') ↔
      ∃ sym pos1, descend cfg ibuf arena pos lim order = .ok (sym, pos1) ∧ sym.toNat ≤ 16 ∧
        (sym.toNat = 0 ∨ pos1 + sym.toNat ≤ lim ∧ pos1 + sym.toNat ≤ 8 * cfg.ibufBytes) ∧
        d = residualOf sym.toNat (streamBits ibuf sym.toNat pos1 order) ∧ pos' = pos1 + sym.toNat := by
  unfold resid
  rw [Result.bind_eq_ok]
  constructor
  · rintro ⟨⟨sym, pos1⟩, hd, h⟩
    refine ⟨sym, pos1, hd, ?_⟩
    simp only [residMaxBits] at h
    split at h
    · cases h
    · next hs =>
      split at h
      · next h0 =>
        simp only [Result.ok.injEq, Prod.mk.injEq] at h
        obtain ⟨rfl, rfl⟩ := h
        exact ⟨by omega, .inl h0, by rw [h0]; rfl, by omega⟩
      · next h0 =>
        obtain ⟨⟨v, pos2⟩, hr, h⟩ := Result.bind_eq_ok.1 h
        obtain ⟨h1, h2, rfl, rfl⟩ := readBits_eq_ok.1 hr
        simp only [Result.ok.injEq, Prod.mk.injEq] at h
        obtain ⟨rfl, rfl⟩ := h
        exact ⟨by omega, .inr ⟨h1, h2⟩, rfl, rfl⟩
  · rintro ⟨sym, pos1, hd, hs, hw, rfl, rfl⟩
    refine ⟨(sym, pos1), hd, ?_⟩
    simp only [residMaxBits]
    rw [if_neg (by omega)]
    split
    · next h0 => rw [h0]; rfl
    · next h0 =>
      rcases hw with hw | ⟨h1, h2⟩
      · exact absurd hw h0
      · rw [readBits_inside h1 h2, Result.bind_ok]

/-- In a well-formed arena, with the window inside IBUF, Resid never faults. -/
theorem resid_no_fault (h : ArenaWf cfg arena) (hi : lim ≤ 8 * cfg.ibufBytes) {pos : Nat} {x : Fault} :
    resid cfg ibuf arena lim order pos ≠ .fault x := by
  intro hx
  rcases Result.bind_eq_fault.1 hx with hx | ⟨⟨sym, pos1⟩, -, hx⟩
  · exact descend_no_fault h hi hx
  · simp only [residMaxBits] at hx
    split at hx
    · cases hx
    · split at hx
      · cases hx
      · rcases Result.bind_eq_fault.1 hx with hx | ⟨⟨v, pos2⟩, -, hx⟩
        · have := readBits_eq_fault.1 hx
          omega
        · cases hx

/-- The errors Resid can raise (R217). -/
theorem resid_raised {pos : Nat} {e : Raise} (h : resid cfg ibuf arena lim order pos = .raised e) :
    (e.cause = .truncatedStream ∨ e.cause = .undefinedLeaf ∨ e.cause = .absentBranch ∨ e.cause = .badSizeSymbol) ∧
      e.plane = none ∧ e.sample = none := by
  rcases Result.bind_eq_raised.1 h with h | ⟨⟨sym, pos1⟩, -, h⟩
  · obtain ⟨h1, h2⟩ := descendFrom_raised h
    exact ⟨by tauto, h2⟩
  · simp only at h
    split at h
    · simp only [Result.raised.injEq] at h; subst h; simp
    · split at h
      · cases h
      · rcases Result.bind_eq_raised.1 h with h | ⟨⟨v, pos2⟩, -, h⟩
        · obtain ⟨-, rfl⟩ := readBits_eq_raised.1 h; simp
        · cases h

/-! ### Samples -/

/-- A sample is decoded exactly when its residual is and the sum fits 16 bits (R176). -/
theorem decodeSample_eq_ok {residAt : Nat → Result (Int × Nat)} {seed col left pos v pos' : Nat} :
    decodeSample residAt seed col left pos = .ok (v, pos') ↔
      ∃ d, residAt pos = .ok (d, pos') ∧ (v : Int) = ((if col < 2 then seed else left : Nat) : Int) + d ∧ v ≤ 65535 := by
  unfold decodeSample
  rw [Result.bind_eq_ok]
  constructor
  · rintro ⟨⟨d, p1⟩, hr, h⟩
    refine ⟨d, ?_⟩
    have hsm : (sampleMax : Int) = 65535 := rfl
    simp only at h
    generalize (if col < 2 then seed else left) = q at h ⊢
    by_cases hv : (q : Int) + d < 0 ∨ (sampleMax : Int) < q + d
    · rw [if_pos hv] at h; cases h
    · rw [if_neg hv] at h
      simp only [Result.ok.injEq, Prod.mk.injEq] at h
      obtain ⟨rfl, rfl⟩ := h
      exact ⟨hr, by omega, by omega⟩
  · rintro ⟨d, hr, hv, hm⟩
    refine ⟨(d, pos'), hr, ?_⟩
    have hsm : (sampleMax : Int) = 65535 := rfl
    simp only
    generalize (if col < 2 then seed else left) = q at hv ⊢
    rw [if_neg (by omega), ← hv]
    simp

/-- What a sample raises: what its residual raises, or SAMPLE_OVERFLOW. -/
theorem decodeSample_raised {residAt : Nat → Result (Int × Nat)} {seed col left pos : Nat} {e : Raise}
    (h : decodeSample residAt seed col left pos = .raised e) :
    residAt pos = .raised e ∨ e.cause = .sampleOverflow ∧ e.plane = none := by
  rcases Result.bind_eq_raised.1 h with h | ⟨⟨d, p1⟩, -, h⟩
  · exact .inl h
  · simp only at h
    generalize (if col < 2 then seed else left) = q at h
    split at h
    · simp only [Result.raised.injEq] at h
      subst h
      exact .inr ⟨rfl, rfl⟩
    · cases h

theorem decodeSample_no_fault {residAt : Nat → Result (Int × Nat)} {seed col left pos : Nat} {x : Fault}
    (hf : ∀ p, residAt p ≠ .fault x) : decodeSample residAt seed col left pos ≠ .fault x := by
  intro h
  rcases Result.bind_eq_fault.1 h with h | ⟨⟨d, p1⟩, -, h⟩
  · exact hf _ h
  · simp only at h
    generalize (if col < 2 then seed else left) = q at h
    split at h <;> cases h

/-- The column loop of PlaneBody answers exactly when every sample of the row decodes; `pos` and `v` list where the
samples start and what they are (R176). -/
theorem decodeRow_eq_ok {residAt : Nat → Result (Int × Nat)} {seed row n col left pos0 pos' : Nat} {vs : List Half} :
    decodeRow residAt seed row n col left pos0 = .ok (vs, pos') ↔
      ∃ (pos : Nat → Nat) (v : Nat → Nat), pos 0 = pos0 ∧ pos n = pos' ∧
        vs = (List.range n).map (fun j => BitVec.ofNat 16 (v j)) ∧
        ∀ j, j < n → decodeSample residAt seed (col + j) (if j = 0 then left else v (j - 1)) (pos j) = .ok (v j, pos (j + 1)) := by
  induction n generalizing col left pos0 vs with
  | zero =>
    simp only [decodeRow, Result.ok.injEq, Prod.mk.injEq, List.range_zero, List.map_nil, Nat.not_lt_zero, false_implies,
      implies_true, and_true]
    constructor
    · rintro ⟨rfl, rfl⟩; exact ⟨fun _ => pos0, fun _ => 0, rfl, rfl, rfl⟩
    · rintro ⟨pos, v, rfl, rfl, rfl⟩; exact ⟨rfl, rfl⟩
  | succ n ih =>
    simp only [decodeRow, Result.bind_eq_ok, Result.mapRaise_eq_ok, Prod.exists, Result.ok.injEq, Prod.mk.injEq]
    constructor
    · rintro ⟨v0, p1, hs, ws, p2, hr, rfl, rfl⟩
      obtain ⟨pos, v, rfl, rfl, rfl, hall⟩ := ih.1 hr
      refine ⟨fun j => if j = 0 then pos0 else pos (j - 1), fun j => if j = 0 then v0 else v (j - 1), rfl, by simp, ?_, ?_⟩
      · rw [List.range_succ_eq_map]
        simp [Function.comp_def]
      · intro j hj
        cases j with
        | zero => simpa using hs
        | succ j =>
          have := hall j (by omega)
          simp only [Nat.add_one_ne_zero, if_false, Nat.add_sub_cancel]
          rw [show col + (j + 1) = col + 1 + j by omega]
          exact this
    · rintro ⟨pos, v, rfl, rfl, rfl, hall⟩
      refine ⟨v 0, pos 1, by simpa using hall 0 (by omega), (List.range n).map (fun j => BitVec.ofNat 16 (v (j + 1))),
        pos (n + 1), ih.2 ⟨fun j => pos (j + 1), fun j => v (j + 1), rfl, rfl, rfl, ?_⟩, ?_, rfl⟩
      · intro j hj
        have := hall (j + 1) (by omega)
        simp only [Nat.add_one_ne_zero, if_false, Nat.add_sub_cancel] at this
        rw [show col + 1 + j = col + (j + 1) by omega]
        cases j with
        | zero => simpa using this
        | succ j => simpa using this
      · rw [List.range_succ_eq_map]
        simp [Function.comp_def]

/-- The length of a decoded row. -/
theorem decodeRow_length {residAt : Nat → Result (Int × Nat)} {seed row n col left pos pos' : Nat} {vs : List Half}
    (h : decodeRow residAt seed row n col left pos = .ok (vs, pos')) : vs.length = n := by
  obtain ⟨_, v, -, -, rfl, -⟩ := decodeRow_eq_ok.1 h
  simp

/-- The shape of what the row loop answers: `n` rows of `cols` samples. -/
theorem decodeRows_shape {residAt : Nat → Result (Int × Nat)} {seed cols n row pos pos' : Nat} {rs : List (List Half)}
    (h : decodeRows residAt seed cols n row pos = .ok (rs, pos')) : rs.length = n ∧ ∀ r ∈ rs, r.length = cols := by
  induction n generalizing row pos rs with
  | zero =>
    simp only [decodeRows, Result.ok.injEq, Prod.mk.injEq] at h
    obtain ⟨rfl, rfl⟩ := h
    simp
  | succ n ih =>
    simp only [decodeRows, Result.bind_eq_ok, Prod.exists, Result.ok.injEq, Prod.mk.injEq] at h
    obtain ⟨r, p1, hr, rs', p2, hrs, rfl, rfl⟩ := h
    obtain ⟨h1, h2⟩ := ih hrs
    refine ⟨by simp [h1], ?_⟩
    intro r' hr'
    rcases List.mem_cons.1 hr' with rfl | hr'
    · exact decodeRow_length hr
    · exact h2 r' hr'

/-- A residual that moves the position forward and stays in the window does so over a whole row. -/
theorem decodeRow_pos {residAt : Nat → Result (Int × Nat)} {seed row n col left pos pos' lim : Nat} {vs : List Half}
    (hf : ∀ p d p', p ≤ lim → residAt p = .ok (d, p') → p' ≤ lim) (hp : pos ≤ lim)
    (h : decodeRow residAt seed row n col left pos = .ok (vs, pos')) : pos' ≤ lim := by
  induction n generalizing col left pos vs with
  | zero => simp only [decodeRow, Result.ok.injEq, Prod.mk.injEq] at h; omega
  | succ n ih =>
    simp only [decodeRow, Result.bind_eq_ok, Result.mapRaise_eq_ok, Prod.exists, Result.ok.injEq, Prod.mk.injEq] at h
    obtain ⟨v0, p1, hs, ws, p2, hr, rfl, rfl⟩ := h
    obtain ⟨d, hd, -⟩ := decodeSample_eq_ok.1 hs
    exact ih (hf _ _ _ hp hd) hr

theorem decodeRows_pos {residAt : Nat → Result (Int × Nat)} {seed cols n row pos pos' lim : Nat} {rs : List (List Half)}
    (hf : ∀ p d p', p ≤ lim → residAt p = .ok (d, p') → p' ≤ lim) (hp : pos ≤ lim)
    (h : decodeRows residAt seed cols n row pos = .ok (rs, pos')) : pos' ≤ lim := by
  induction n generalizing row pos rs with
  | zero => simp only [decodeRows, Result.ok.injEq, Prod.mk.injEq] at h; omega
  | succ n ih =>
    simp only [decodeRows, Result.bind_eq_ok, Prod.exists, Result.ok.injEq, Prod.mk.injEq] at h
    obtain ⟨r, p1, hr, rs', p2, hrs, rfl, rfl⟩ := h
    exact ih (decodeRow_pos hf hp hr) hrs

/-- The loops fault only where a residual does. -/
theorem decodeRow_no_fault {residAt : Nat → Result (Int × Nat)} {seed row n col left pos : Nat} {x : Fault}
    (hf : ∀ p, residAt p ≠ .fault x) : decodeRow residAt seed row n col left pos ≠ .fault x := by
  induction n generalizing col left pos with
  | zero => simp [decodeRow]
  | succ n ih =>
    intro h
    simp only [decodeRow] at h
    rcases Result.bind_eq_fault.1 h with h | ⟨⟨v, p1⟩, -, h⟩
    · exact decodeSample_no_fault hf (Result.mapRaise_eq_fault.1 h)
    · rcases Result.bind_eq_fault.1 h with h | ⟨⟨vs, p2⟩, -, h⟩
      · exact ih h
      · cases h

theorem decodeRows_no_fault {residAt : Nat → Result (Int × Nat)} {seed cols n row pos : Nat} {x : Fault}
    (hf : ∀ p, residAt p ≠ .fault x) : decodeRows residAt seed cols n row pos ≠ .fault x := by
  induction n generalizing row pos with
  | zero => simp [decodeRows]
  | succ n ih =>
    intro h
    simp only [decodeRows] at h
    rcases Result.bind_eq_fault.1 h with h | ⟨⟨v, p1⟩, -, h⟩
    · exact decodeRow_no_fault hf h
    · rcases Result.bind_eq_fault.1 h with h | ⟨⟨vs, p2⟩, -, h⟩
      · exact ih h
      · cases h

/-- What the column loop raises: SAMPLE_OVERFLOW or what the residual raises, at a column of the row. -/
theorem decodeRow_raised {residAt : Nat → Result (Int × Nat)} {seed row n col left pos : Nat} {e : Raise}
    (h : decodeRow residAt seed row n col left pos = .raised e) :
    ∃ c, col ≤ c ∧ c < col + n ∧ e.sample = some (row, c) ∧
      (e.cause = .sampleOverflow ∧ e.plane = none ∨
        ∃ p e', residAt p = .raised e' ∧ e.cause = e'.cause ∧ e.plane = e'.plane) := by
  induction n generalizing col left pos with
  | zero => simp [decodeRow] at h
  | succ n ih =>
    simp only [decodeRow] at h
    rcases Result.bind_eq_raised.1 h with h | ⟨⟨v, p1⟩, -, h⟩
    · obtain ⟨e', h, rfl⟩ := Result.mapRaise_eq_raised.1 h
      refine ⟨col, Nat.le_refl _, by omega, rfl, ?_⟩
      rcases decodeSample_raised ‹decodeSample _ _ _ _ _ = _› with h | ⟨h1, h2⟩
      · exact .inr ⟨pos, e', h, rfl, rfl⟩
      · exact .inl ⟨h1, h2⟩
    · rcases Result.bind_eq_raised.1 h with h | ⟨⟨vs, p2⟩, -, h⟩
      · obtain ⟨c, h1, h2, h3⟩ := ih h
        exact ⟨c, by omega, by omega, h3⟩
      · cases h

theorem decodeRows_raised {residAt : Nat → Result (Int × Nat)} {seed cols n row pos : Nat} {e : Raise}
    (h : decodeRows residAt seed cols n row pos = .raised e) :
    ∃ r c, row ≤ r ∧ r < row + n ∧ c < cols ∧ e.sample = some (r, c) ∧
      (e.cause = .sampleOverflow ∧ e.plane = none ∨
        ∃ p e', residAt p = .raised e' ∧ e.cause = e'.cause ∧ e.plane = e'.plane) := by
  induction n generalizing row pos with
  | zero => simp [decodeRows] at h
  | succ n ih =>
    simp only [decodeRows] at h
    rcases Result.bind_eq_raised.1 h with h | ⟨⟨v, p1⟩, -, h⟩
    · obtain ⟨c, -, h2, h3, h4⟩ := decodeRow_raised h
      exact ⟨row, c, Nat.le_refl _, by omega, by omega, h3, h4⟩
    · rcases Result.bind_eq_raised.1 h with h | ⟨⟨vs, p2⟩, -, h⟩
      · obtain ⟨r, c, h1, h2, h3⟩ := ih h
        exact ⟨r, c, by omega, by omega, h3⟩
      · cases h

/-- In columns 0 and 1 the sample to the left does not matter (R176). -/
theorem decodeSample_left {residAt : Nat → Result (Int × Nat)} {seed col left pos : Nat} (h : col < 2) (left' : Nat) :
    decodeSample residAt seed col left pos = decodeSample residAt seed col left' pos := by
  simp only [decodeSample, if_pos h]

/-- Where the column loop raises: the samples before sample `j` of the row decode, and sample `j` raises. -/
theorem decodeRow_raised_at {residAt : Nat → Result (Int × Nat)} {seed row n col left pos0 : Nat} {e : Raise}
    (h : decodeRow residAt seed row n col left pos0 = .raised e) :
    ∃ (j : Nat) (pos v : Nat → Nat), j < n ∧ pos 0 = pos0 ∧
      (∀ i, i < j → decodeSample residAt seed (col + i) (if i = 0 then left else v (i - 1)) (pos i) = .ok (v i, pos (i + 1))) ∧
      ∃ e', decodeSample residAt seed (col + j) (if j = 0 then left else v (j - 1)) (pos j) = .raised e' ∧
        e = e'.atSample row (col + j) := by
  induction n generalizing col left pos0 with
  | zero => simp [decodeRow] at h
  | succ n ih =>
    simp only [decodeRow] at h
    rcases Result.bind_eq_raised.1 h with h1 | ⟨⟨v0, p1⟩, h0, h1⟩
    · obtain ⟨e', hr, rfl⟩ := Result.mapRaise_eq_raised.1 h1
      exact ⟨0, fun _ => pos0, fun _ => 0, by omega, rfl, fun i hi => by omega, e', hr, rfl⟩
    · rcases Result.bind_eq_raised.1 h1 with h2 | ⟨⟨vs, p2⟩, -, h2⟩
      · obtain ⟨j, pos, v, hj, rfl, hok, e', hr, rfl⟩ := ih h2
        rw [Result.mapRaise_eq_ok] at h0
        refine ⟨j + 1, fun i => if i = 0 then pos0 else pos (i - 1), fun i => if i = 0 then v0 else v (i - 1), by omega, rfl,
          fun i hi => ?_, e', ?_, by rw [show col + (j + 1) = col + 1 + j by omega]⟩
        · cases i with
          | zero => simpa using h0
          | succ i =>
            rw [show col + (i + 1) = col + 1 + i by omega]
            simpa using hok i (by omega)
        · rw [show col + (j + 1) = col + 1 + j by omega]
          simpa using hr
      · cases h2

/-- Where the row loop raises: in row-major order the samples before sample `j` decode, sample `j` raises, and the error
has the context of its row and column (R204, R206 (c)). -/
theorem decodeRows_raised_at {residAt : Nat → Result (Int × Nat)} {seed cols n row pos0 : Nat} {e : Raise}
    (h : decodeRows residAt seed cols n row pos0 = .raised e) :
    ∃ (j : Nat) (pos v : Nat → Nat), j < n * cols ∧ pos 0 = pos0 ∧
      (∀ i, i < j → decodeSample residAt seed (i % cols) (v (i - 1)) (pos i) = .ok (v i, pos (i + 1))) ∧
      ∃ e', decodeSample residAt seed (j % cols) (v (j - 1)) (pos j) = .raised e' ∧
        e = e'.atSample (row + j / cols) (j % cols) := by
  induction n generalizing row pos0 with
  | zero => simp [decodeRows] at h
  | succ n ih =>
    have left0 : ∀ (v : Nat → Nat) (i p : Nat),
        decodeSample residAt seed (0 + i) (if i = 0 then 0 else v (i - 1)) p = decodeSample residAt seed i (v (i - 1)) p := by
      intro v i p
      rw [Nat.zero_add]
      split
      · exact decodeSample_left (by omega) _
      · rfl
    simp only [decodeRows] at h
    rcases Result.bind_eq_raised.1 h with h1 | ⟨⟨vs, p1⟩, h0, h1⟩
    · obtain ⟨j, pos, v, hj, rfl, hok, e', hr, rfl⟩ := decodeRow_raised_at h1
      have hle : cols ≤ (n + 1) * cols := Nat.le_mul_of_pos_left _ (by omega)
      refine ⟨j, pos, v, by omega, rfl, fun i hi => ?_, e', ?_, ?_⟩
      · rw [Nat.mod_eq_of_lt (by omega), ← left0]
        exact hok i hi
      · rw [Nat.mod_eq_of_lt hj, ← left0]
        exact hr
      · rw [Nat.mod_eq_of_lt hj, Nat.div_eq_of_lt hj, Nat.zero_add, Nat.add_zero]
    · rcases Result.bind_eq_raised.1 h1 with h2 | ⟨⟨rs, p2⟩, -, h2⟩
      · obtain ⟨pos1, v1, rfl, hend, -, hok1⟩ := decodeRow_eq_ok.1 h0
        obtain ⟨j, pos, v, hj, hpos, hok, e', hr, rfl⟩ := ih h2
        have hc : 0 < cols := Nat.pos_of_ne_zero (by rintro rfl; simp at hj)
        have hmod : ∀ i, (cols + i) % cols = i % cols := fun i => by rw [Nat.add_mod_left]
        have hat : ∀ (i p : Nat), decodeSample residAt seed ((cols + i) % cols)
            (if cols + i - 1 < cols then v1 (cols + i - 1) else v (cols + i - 1 - cols)) p =
              decodeSample residAt seed (i % cols) (v (i - 1)) p := by
          intro i p
          rw [hmod]
          by_cases hi : i = 0
          · subst hi
            exact decodeSample_left (by simp) _
          · rw [if_neg (by omega), show cols + i - 1 - cols = i - 1 by omega]
        have hP : ∀ i, (if cols + i < cols then pos1 (cols + i) else pos (cols + i - cols)) = pos i := by
          intro i
          rw [if_neg (by omega), Nat.add_sub_cancel_left]
        refine ⟨cols + j, fun i => if i < cols then pos1 i else pos (i - cols), fun i => if i < cols then v1 i else v (i - cols),
          by rw [Nat.succ_mul]; omega, by simp [hc], fun i hi => ?_, e', ?_, ?_⟩
        · by_cases hic : i < cols
          · have := hok1 i hic
            rw [left0] at this
            simp only [if_pos hic, Nat.mod_eq_of_lt hic, if_pos (show i - 1 < cols by omega)]
            rw [this]
            split
            · rfl
            · rw [show i + 1 = cols by omega, hend, Nat.sub_self, hpos]
          · obtain ⟨k, rfl⟩ : ∃ k, i = cols + k := ⟨i - cols, by omega⟩
            simp only [hat, hP, Nat.add_assoc cols k 1]
            rw [hok k (by omega), if_neg (by omega), Nat.add_sub_cancel_left]
        · simp only [hat, hP]
          exact hr
        · rw [hmod, Nat.add_div_left _ hc]
          congr 1
          omega
      · cases h2

/-! ### PlaneChecks and PlaneBody -/

/-- PlaneChecks passes exactly in a state that is ready (R175). -/
theorem planeChecks_eq_ok {s : State} {u : Unit} : planeChecks s = .ok u ↔ planeReady s := by
  unfold planeChecks planeReady
  split
  · simp_all
  · split
    · simp; omega
    · split
      · simp; omega
      · simp; refine ⟨by simp_all, by omega, by omega⟩

theorem planeChecks_no_fault {s : State} {x : Fault} : planeChecks s ≠ .fault x := by
  unfold planeChecks
  split
  · simp
  · split
    · simp
    · split <;> simp

theorem planeChecks_raised {s : State} {e : Raise} (h : planeChecks s = .raised e) :
    (e.cause = .planesNotAddressed ∨ e.cause = .strideTooSmall ∨ e.cause = .obufOverflow) ∧
      e.plane = none ∧ e.sample = none := by
  unfold planeChecks at h
  split at h
  · simp only [Result.raised.injEq] at h; subst h; simp
  · split at h
    · simp only [Result.raised.injEq] at h; subst h; simp
    · split at h
      · simp only [Result.raised.injEq] at h; subst h; simp
      · cases h

/-- If PlaneBody answers, the seed is 512, Build made the tree of the plane's table, and the rows decoded with it. -/
theorem planeBody_eq_ok {s : State} {p : Fin 3} {out : PlaneOut} :
    planeBody s p = .ok out ↔
      s.seed[p].toNat = 512 ∧ ∃ count, build s.cfg s.ctab p = .ok (out.arena, count) ∧
        decodeRows (resid s.cfg s.ibuf out.arena (s.planeLimit p) .msb) 512 s.cols.toNat s.rows.toNat 0 (s.planeStart p)
          = .ok (out.samples, out.pos) := by
  unfold planeBody
  rw [Result.mapRaise_eq_ok]
  simp only [seedRequired]
  by_cases hs : s.seed[p].toNat = 512
  · rw [if_neg (fun h => h hs)]
    simp only [hs, Result.bind_eq_ok, Prod.exists, Result.ok.injEq, true_and]
    constructor
    · rintro ⟨a, c, hb, sm, ps, hr, rfl⟩; exact ⟨c, hb, hr⟩
    · rintro ⟨c, hb, hr⟩; exact ⟨out.arena, c, hb, out.samples, out.pos, hr, rfl⟩
  · rw [if_pos hs]
    exact Iff.intro (fun h => nomatch h) (fun h => absurd h.1 hs)

/-- PlaneBody never faults where its window lies inside IBUF. -/
theorem planeBody_no_fault {s : State} {p : Fin 3} {x : Fault} (hc : s.cfg.wf) (hl : s.planeLimit p ≤ 8 * s.cfg.ibufBytes) :
    planeBody s p ≠ .fault x := by
  intro h
  unfold planeBody at h
  rw [Result.mapRaise_eq_fault] at h
  split at h
  · cases h
  · rcases Result.bind_eq_fault.1 h with h | ⟨⟨a, c⟩, hb, h⟩
    · exact build_no_fault hc h
    · rcases Result.bind_eq_fault.1 h with h | ⟨⟨sm, ps⟩, -, h⟩
      · exact decodeRows_no_fault (fun _ => resid_no_fault (build_ok hc hb).1.wf hl) h
      · cases h

/-- What PlaneBody raises has the plane context, and the sample context exactly inside the loops (R204, R217). -/
theorem planeBody_raised {s : State} {p : Fin 3} {e : Raise} (h : planeBody s p = .raised e) :
    e.plane = some p ∧ e.cause ∈ mayRaise (.plDecode p) ∧ (e.cause.code = 3#8 ∨ e.cause.code = 4#8 ∨ e.cause.code = 5#8) ∧
      (e.sample = none ∨ ∃ r c, r < s.rows.toNat ∧ c < s.cols.toNat ∧ e.sample = some (r, c)) := by
  unfold planeBody at h
  rw [Result.mapRaise_eq_raised] at h
  obtain ⟨e', h, rfl⟩ := h
  refine ⟨rfl, ?_⟩
  show e'.cause ∈ mayRaise (.plDecode p) ∧ (e'.cause.code = 3#8 ∨ e'.cause.code = 4#8 ∨ e'.cause.code = 5#8) ∧
    (e'.sample = none ∨ ∃ r c, r < s.rows.toNat ∧ c < s.cols.toNat ∧ e'.sample = some (r, c))
  split at h
  · simp only [Result.raised.injEq] at h; subst h; simp [Cause.code, mayRaise, mayRaise.planeCauses]
  · rcases Result.bind_eq_raised.1 h with h | ⟨⟨a, c⟩, -, h⟩
    · obtain ⟨h0, h1, -, h3⟩ := build_raised h
      refine ⟨?_, .inr (.inl h1), .inl h3⟩
      simp only [mayRaise, List.mem_cons, List.not_mem_nil, or_false] at h0
      rcases h0 with h0 | h0 | h0 | h0 | h0 | h0 <;> rw [h0] <;> simp [mayRaise, mayRaise.planeCauses]
    · rcases Result.bind_eq_raised.1 h with h | ⟨⟨sm, ps⟩, -, h⟩
      · obtain ⟨r, c, -, h2, h3, h4, h5⟩ := decodeRows_raised h
        suffices H : e'.cause ∈ mayRaise (.plDecode p) ∧ (e'.cause.code = 3#8 ∨ e'.cause.code = 4#8 ∨ e'.cause.code = 5#8) from
          ⟨H.1, H.2, .inr ⟨r, c, by omega, h3, h4⟩⟩
        rcases h5 with ⟨h5, -⟩ | ⟨q, e'', h5, h6, -⟩
        · rw [h5]; simp [Cause.code, mayRaise, mayRaise.planeCauses]
        · obtain ⟨h7, -⟩ := resid_raised h5
          rw [h6]
          rcases h7 with h7 | h7 | h7 | h7 <;> rw [h7] <;> simp [Cause.code, mayRaise, mayRaise.planeCauses]
      · cases h

/-! ### Commit -/

variable {stride row col : Nat} {p : Fin 3}

theorem commitRow_wf {vs : List Half} {obuf : Memory 8} (h : obuf.wf = true) : (commitRow stride p row col vs obuf).wf = true := by
  induction vs generalizing col obuf with
  | nil => exact h
  | cons v vs ih => exact ih (Memory.wf_writeHalf h)

/-- A byte of no sample of the row keeps its value. -/
theorem commitRow_out {vs : List Half} {obuf : Memory 8} {b : Nat}
    (h : ∀ j, j < vs.length → b ≠ sampleAddr stride p row (col + j) ∧ b ≠ sampleAddr stride p row (col + j) + 1) :
    (commitRow stride p row col vs obuf).read b = obuf.read b := by
  induction vs generalizing col obuf with
  | nil => rfl
  | cons v vs ih =>
    have h0 := h 0 (by simp)
    rw [Nat.add_zero] at h0
    rw [commitRow, ih, Memory.read_writeHalf_out h0.1 h0.2]
    intro j hj
    have := h (j + 1) (by simpa using hj)
    rwa [show col + (j + 1) = col + 1 + j by omega] at this

/-- Sample addresses of one row. -/
theorem sampleAddr_col {c c' : Nat} (h : c ≠ c') :
    sampleAddr stride p row c ≠ sampleAddr stride p row c' ∧ sampleAddr stride p row c ≠ sampleAddr stride p row c' + 1 := by
  unfold sampleAddr
  omega

/-- A sample of the row lies at its address, little-endian. -/
theorem commitRow_in {vs : List Half} {obuf : Memory 8} {j : Nat} {v : Half} (hw : obuf.wf = true) (h : vs[j]? = some v) :
    (commitRow stride p row col vs obuf).read (sampleAddr stride p row (col + j)) = v.extractLsb' 0 8 ∧
    (commitRow stride p row col vs obuf).read (sampleAddr stride p row (col + j) + 1) = v.extractLsb' 8 8 := by
  induction vs generalizing col obuf j with
  | nil => simp at h
  | cons u vs ih =>
    rw [commitRow]
    cases j with
    | zero =>
      simp only [List.getElem?_cons_zero, Option.some.injEq] at h
      subst h
      have out : ∀ i, i < vs.length → sampleAddr stride p row (col + 1 + i) ≠ sampleAddr stride p row col ∧
          sampleAddr stride p row col ≠ sampleAddr stride p row (col + 1 + i) + 1 ∧
          sampleAddr stride p row col + 1 ≠ sampleAddr stride p row (col + 1 + i) ∧
          sampleAddr stride p row col + 1 ≠ sampleAddr stride p row (col + 1 + i) + 1 := by
        intro i _
        unfold sampleAddr
        omega
      simp only [Nat.add_zero]
      refine ⟨?_, ?_⟩
      · rw [commitRow_out (fun i hi => ⟨(out i hi).1.symm, (out i hi).2.1⟩), Memory.read_writeHalf_low hw]
      · rw [commitRow_out (fun i hi => ⟨(out i hi).2.2.1, (out i hi).2.2.2⟩), Memory.read_writeHalf_high hw]
    | succ j =>
      have := ih (col := col + 1) (j := j) (obuf := obuf.writeHalf (sampleAddr stride p row col) u)
        (Memory.wf_writeHalf hw) (by simpa using h)
      rwa [show col + 1 + j = col + (j + 1) by omega] at this

theorem commitRows_wf {rs : List (List Half)} {obuf : Memory 8} (h : obuf.wf = true) :
    (commitRows stride p row rs obuf).wf = true := by
  induction rs generalizing row obuf with
  | nil => exact h
  | cons r rs ih => exact ih (commitRow_wf h)

/-- A byte of no sample of the plane keeps its value (R178, R253). -/
theorem commitRows_out {rs : List (List Half)} {obuf : Memory 8} {b cols : Nat} (hc : ∀ r ∈ rs, r.length = cols)
    (h : ∀ i c, i < rs.length → c < cols → b ≠ sampleAddr stride p (row + i) c ∧ b ≠ sampleAddr stride p (row + i) c + 1) :
    (commitRows stride p row rs obuf).read b = obuf.read b := by
  induction rs generalizing row obuf with
  | nil => rfl
  | cons r rs ih =>
    rw [commitRows, ih (fun r' hr' => hc r' (List.mem_cons_of_mem _ hr')), commitRow_out]
    · intro j hj
      rw [hc r List.mem_cons_self] at hj
      have := h 0 j (by simp) hj
      simpa using this
    · intro i c hi hcc
      have := h (i + 1) c (by simpa using hi) hcc
      rwa [show row + (i + 1) = row + 1 + i by omega] at this

/-- Samples of different rows share no byte when STRIDE ≥ 6 × COLS (R175). -/
theorem sampleAddr_row {cols r r' c c' : Nat} (hs : 6 * cols ≤ stride) (hr : r < r') (hc : c < cols) :
    sampleAddr stride p r c + 1 < sampleAddr stride p r' c' := by
  have hp := p.isLt
  have h1 : (r + 1) * stride ≤ r' * stride := Nat.mul_le_mul_right _ hr
  rw [Nat.succ_mul] at h1
  unfold sampleAddr
  omega

/-- A sample of the plane lies at its address, little-endian (R178). -/
theorem commitRows_in {rs : List (List Half)} {obuf : Memory 8} {cols i j : Nat} {r : List Half} {v : Half}
    (hw : obuf.wf = true) (hs : 6 * cols ≤ stride) (hc : ∀ r ∈ rs, r.length = cols) (hi : rs[i]? = some r) (hj : r[j]? = some v) :
    (commitRows stride p row rs obuf).read (sampleAddr stride p (row + i) j) = v.extractLsb' 0 8 ∧
    (commitRows stride p row rs obuf).read (sampleAddr stride p (row + i) j + 1) = v.extractLsb' 8 8 := by
  induction rs generalizing row obuf i with
  | nil => simp at hi
  | cons r0 rs ih =>
    rw [commitRows]
    cases i with
    | zero =>
      simp only [List.getElem?_cons_zero, Option.some.injEq] at hi
      subst hi
      have hlen := hc r0 List.mem_cons_self
      have hjl : j < cols := by
        rw [← hlen]
        by_contra hge
        rw [List.getElem?_eq_none (by omega)] at hj
        cases hj
      have out : ∀ i c, i < rs.length → c < cols →
          sampleAddr stride p row j + 1 < sampleAddr stride p (row + 1 + i) c :=
        fun i c _ _ => sampleAddr_row hs (by omega) hjl
      have hin := commitRow_in (stride := stride) (p := p) (row := row) (col := 0) (obuf := obuf) hw hj
      rw [Nat.zero_add] at hin
      simp only [Nat.add_zero]
      rw [commitRows_out (fun r' hr' => hc r' (List.mem_cons_of_mem _ hr')),
        commitRows_out (fun r' hr' => hc r' (List.mem_cons_of_mem _ hr'))]
      · exact hin
      · intro i c h1 h2
        have := out i c h1 h2
        omega
      · intro i c h1 h2
        have := out i c h1 h2
        omega
    | succ i =>
      have := ih (row := row + 1) (i := i) (obuf := commitRow stride p row 0 r0 obuf) (commitRow_wf hw)
        (fun r' hr' => hc r' (List.mem_cons_of_mem _ hr')) (by simpa using hi)
      rwa [show row + 1 + i = row + (i + 1) by omega] at this

/-- Every address Commit lists was listed before or is a byte of a sample (R178). -/
theorem mem_commitRow {vs : List Half} {obuf : Memory 8} {x : Nat × BitVec 8} (h : x ∈ commitRow stride p row col vs obuf) :
    x ∈ obuf ∨ ∃ j, j < vs.length ∧ (x.1 = sampleAddr stride p row (col + j) ∨ x.1 = sampleAddr stride p row (col + j) + 1) := by
  induction vs generalizing col obuf with
  | nil => exact .inl h
  | cons v vs ih =>
    rcases ih h with h | ⟨j, hj, h⟩
    · rcases Memory.mem_writeHalf h with h | h | h
      · exact .inr ⟨0, by simp, .inl (by simpa using h)⟩
      · exact .inr ⟨0, by simp, .inr (by simpa using h)⟩
      · exact .inl h
    · refine .inr ⟨j + 1, by simpa using hj, ?_⟩
      rwa [show col + (j + 1) = col + 1 + j by omega]

theorem mem_commitRows {rs : List (List Half)} {obuf : Memory 8} {x : Nat × BitVec 8} {cols : Nat}
    (hc : ∀ r ∈ rs, r.length = cols) (h : x ∈ commitRows stride p row rs obuf) :
    x ∈ obuf ∨ ∃ i j, i < rs.length ∧ j < cols ∧
      (x.1 = sampleAddr stride p (row + i) j ∨ x.1 = sampleAddr stride p (row + i) j + 1) := by
  induction rs generalizing row obuf with
  | nil => exact .inl h
  | cons r rs ih =>
    rcases ih (fun r' hr' => hc r' (List.mem_cons_of_mem _ hr')) h with h | ⟨i, j, hi, hj, h⟩
    · rcases mem_commitRow h with h | ⟨j, hj, h⟩
      · exact .inl h
      · refine .inr ⟨0, j, by simp, by rw [hc r List.mem_cons_self] at hj; exact hj, ?_⟩
        simpa using h
    · refine .inr ⟨i + 1, j, by simpa using hi, hj, ?_⟩
      rwa [show row + (i + 1) = row + 1 + i by omega]

end Sys2Proof.Machine
end

