-- ==== Sys2Proof/Laws/Commands.lean ====
section
/-! SUPPORT. What one command can do, said once for all of them: it completes with the effect of its rule, or it raises
an error of its own (R112 step 3, R204, R217). Later proofs cite `exec_next` and never unfold a meaning. -/

namespace Sys2Proof.Machine

variable {s t : State}

/-- Command `i` completes from `s` in `t`: the conditions under which it does and the state it leaves. -/
def Completes (s t : State) : Instr → Prop
  | .nop => t = s
  | .errAck => t = s.ackError
  | .reset => t = s.resetRegisters
  | .bsOpen o => s.blen.toNat ≤ s.cfg.ibufBytes ∧ s.a0.toNat + s.a1.toNat ≤ s.blen.toNat ∧
      t = s.setWindow o (8 * s.a0.toNat) (8 * (s.a0.toNat + s.a1.toNat))
  | .bsSeek => 8 * s.a0.toNat ≤ s.blim.toNat ∧ t = s.setBpos (8 * s.a0.toNat)
  | .bsRead nm1 => s.bpos.toNat + bitCount nm1 ≤ s.blim.toNat ∧ s.bpos.toNat + bitCount nm1 ≤ 8 * s.cfg.ibufBytes ∧
      t = (s.setRes (BitVec.ofNat 32 (streamBits s.ibuf (bitCount nm1) s.bpos.toNat s.order))).setBpos
        (s.bpos.toNat + bitCount nm1)
  | .bsPeek nm1 => s.bpos.toNat + bitCount nm1 ≤ s.blim.toNat ∧ s.bpos.toNat + bitCount nm1 ≤ 8 * s.cfg.ibufBytes ∧
      t = s.setRes (BitVec.ofNat 32 (streamBits s.ibuf (bitCount nm1) s.bpos.toNat s.order))
  | .bsAtEnd => t = s.setRes (if s.bpos = s.blim then 1#32 else 0#32)
  | .htClear => t = s.setArena [Node.empty]
  | .htInsert k idx => idx.toNat < s.cfg.tabEntries ∧
      ∃ a, insert s.cfg (idx.setWidth 32) (s.ctab.read (8 * (k.val * s.cfg.tabEntries + idx.toNat)))
        (s.ctab.read (8 * (k.val * s.cfg.tabEntries + idx.toNat) + 4)) s.arena = .ok a ∧ t = s.setArena a
  | .htBuild k => ∃ a n, build s.cfg s.ctab k = .ok (a, n) ∧ t = (s.setArena a).setRes (BitVec.ofNat 32 n)
  | .htDecode => ∃ sym pos', descend s.cfg s.ibuf s.arena s.bpos.toNat s.blim.toNat s.order = .ok (sym, pos') ∧
      t = (s.setRes sym).setBpos pos'
  | .plAddr => s.blen.toNat ≤ s.cfg.ibufBytes ∧
      s.pbase.toNat + s.psize[0].toNat + s.psize[1].toNat + s.psize[2].toNat ≤ s.blen.toNat ∧
      t = s.setPaddr s.pbase.toNat (s.pbase.toNat + s.psize[0].toNat)
        (s.pbase.toNat + s.psize[0].toNat + s.psize[1].toNat)
  | .plResid => ∃ d pos', resid s.cfg s.ibuf s.arena s.blim.toNat s.order s.bpos.toNat = .ok (d, pos') ∧
      t = (s.setRes (u32 d)).setBpos pos'
  | .plDecode p => planeReady s ∧ ∃ out, planeBody s p = .ok out ∧ t = (s.commit p out.samples).endPlane p out
  | .plDecodeAll => planeReady s ∧ ∃ out0 out1 out2, planeBody s 0 = .ok out0 ∧ planeBody s 1 = .ok out1 ∧
      planeBody s 2 = .ok out2 ∧
      t = (((s.commit 0 out0.samples).commit 1 out1.samples).commit 2 out2.samples).endPlane 2 out2

/-- What every error of command `i` is like: its cause is one of R217's, and the plane and sample contexts are those of
R204. -/
def RaisesIn (s : State) (i : Instr) (e : Raise) : Prop :=
  e.cause ∈ mayRaise i ∧
    ((e.plane = none ∧ e.sample = none) ∨
      (∃ p, e.plane = some p ∧ (i = .plDecode p ∨ i = .plDecodeAll)) ∧
      (e.cause.code = 3#8 ∨ e.cause.code = 4#8 ∨ e.cause.code = 5#8) ∧
      (e.sample = none ∨ ∃ r c, r < s.rows.toNat ∧ c < s.cols.toNat ∧ e.sample = some (r, c)))

theorem planeBody_raisesIn {p : Fin 3} {e : Raise} {i : Instr} (hi : i = .plDecode p ∨ i = .plDecodeAll)
    (h : planeBody s p = .raised e) : RaisesIn s i e := by
  obtain ⟨h1, h2, h3, h4⟩ := planeBody_raised h
  refine ⟨?_, .inr ⟨⟨p, h1, hi⟩, h3, h4⟩⟩
  rcases hi with rfl | rfl <;> exact h2

theorem planeChecks_raisesIn {e : Raise} {i : Instr} (hi : (∃ p, i = .plDecode p) ∨ i = .plDecodeAll)
    (h : planeChecks s = .raised e) : RaisesIn s i e := by
  obtain ⟨h1, h2⟩ := planeChecks_raised h
  refine ⟨?_, .inl h2⟩
  rcases hi with ⟨p, rfl⟩ | rfl <;> rcases h1 with h1 | h1 | h1 <;> rw [h1] <;> simp [mayRaise, mayRaise.planeCauses]

/-- Everything a command that answers a next state can have done (R112 step 3). -/
theorem exec_next {i : Instr} (h : exec i s = .next t) :
    Completes s t i ∨ ∃ e, RaisesIn s i e ∧ t = s.takeError e := by
  cases i with
  | nop => exact .inl (by simpa [exec, execNop, eq_comm, Completes] using h)
  | errAck => exact .inl (by simpa [exec, execErrAck, eq_comm, Completes] using h)
  | reset => exact .inl (by simpa [exec, execReset, eq_comm, Completes] using h)
  | bsOpen o =>
    simp only [exec, execBsOpen] at h
    split at h
    · simp only [finish_raised, Host.Outcome.next.injEq] at h
      exact .inr ⟨_, ⟨by simp [mayRaise], .inl ⟨rfl, rfl⟩⟩, h.symm⟩
    · split at h
      · simp only [finish_raised, Host.Outcome.next.injEq] at h
        exact .inr ⟨_, ⟨by simp [mayRaise], .inl ⟨rfl, rfl⟩⟩, h.symm⟩
      · simp only [finish_ok, Host.Outcome.next.injEq] at h
        exact .inl ⟨by omega, by omega, h.symm⟩
  | bsSeek =>
    simp only [exec, execBsSeek] at h
    split at h
    · simp only [finish_raised, Host.Outcome.next.injEq] at h
      exact .inr ⟨_, ⟨by simp [mayRaise], .inl ⟨rfl, rfl⟩⟩, h.symm⟩
    · simp only [finish_ok, Host.Outcome.next.injEq] at h
      exact .inl ⟨by omega, h.symm⟩
  | bsRead nm1 =>
    rcases finish_eq_next.1 h with h | ⟨e, g, rfl⟩
    · obtain ⟨⟨v, p⟩, hr, h⟩ := Result.bind_eq_ok.1 h
      obtain ⟨h1, h2, rfl, rfl⟩ := readBits_eq_ok.1 hr
      exact .inl ⟨h1, h2, (Result.ok.inj h).symm⟩
    · rcases Result.bind_eq_raised.1 g with h | ⟨⟨v, p⟩, -, h⟩
      · obtain ⟨-, rfl⟩ := readBits_eq_raised.1 h
        exact .inr ⟨_, ⟨by simp [mayRaise], .inl ⟨rfl, rfl⟩⟩, rfl⟩
      · cases h
  | bsPeek nm1 =>
    rcases finish_eq_next.1 h with h | ⟨e, g, rfl⟩
    · obtain ⟨⟨v, p⟩, hr, h⟩ := Result.bind_eq_ok.1 h
      obtain ⟨h1, h2, rfl, rfl⟩ := readBits_eq_ok.1 hr
      exact .inl ⟨h1, h2, (Result.ok.inj h).symm⟩
    · rcases Result.bind_eq_raised.1 g with h | ⟨⟨v, p⟩, -, h⟩
      · obtain ⟨-, rfl⟩ := readBits_eq_raised.1 h
        exact .inr ⟨_, ⟨by simp [mayRaise], .inl ⟨rfl, rfl⟩⟩, rfl⟩
      · cases h
  | bsAtEnd => exact .inl (by simpa [exec, execBsAtEnd, eq_comm, Completes] using h)
  | htClear => exact .inl (by simpa [exec, execHtClear, eq_comm, Completes] using h)
  | htInsert k idx =>
    by_cases hx : idx.toNat < s.cfg.tabEntries
    · simp only [exec, execHtInsert, tableEntry_inside hx, Result.bind_ok] at h
      rcases finish_eq_next.1 h with h | ⟨e, g, rfl⟩
      · obtain ⟨a, ha, h⟩ := Result.bind_eq_ok.1 h
        exact .inl ⟨hx, a, ha, (Result.ok.inj h).symm⟩
      · rcases Result.bind_eq_raised.1 g with h | ⟨a, -, h⟩
        · obtain ⟨h1, -, -, -, h2⟩ := insert_raised h
          refine .inr ⟨_, ⟨?_, .inl h2⟩, rfl⟩
          rcases h1 with h1 | h1 | h1 | h1 | h1 <;> rw [h1] <;> simp [mayRaise]
        · cases h
    · simp [exec, execHtInsert, tableEntry, if_neg hx] at h
  | htBuild k =>
    rcases finish_eq_next.1 h with h | ⟨e, g, rfl⟩
    · obtain ⟨⟨a, n⟩, ha, h⟩ := Result.bind_eq_ok.1 h
      exact .inl ⟨a, n, ha, (Result.ok.inj h).symm⟩
    · rcases Result.bind_eq_raised.1 g with h | ⟨a, -, h⟩
      · obtain ⟨h1, -, h2⟩ := build_raised h
        exact .inr ⟨_, ⟨h1, .inl h2⟩, rfl⟩
      · cases h
  | htDecode =>
    rcases finish_eq_next.1 h with h | ⟨e, g, rfl⟩
    · obtain ⟨⟨v, p⟩, hr, h⟩ := Result.bind_eq_ok.1 h
      exact .inl ⟨v, p, hr, (Result.ok.inj h).symm⟩
    · rcases Result.bind_eq_raised.1 g with h | ⟨⟨v, p⟩, -, h⟩
      · obtain ⟨h1, h2⟩ := descendFrom_raised h
        refine .inr ⟨_, ⟨?_, .inl h2⟩, rfl⟩
        rcases h1 with h1 | h1 | h1 <;> rw [h1] <;> simp [mayRaise]
      · cases h
  | plAddr =>
    simp only [exec, execPlAddr] at h
    split at h
    · simp only [finish_raised, Host.Outcome.next.injEq] at h
      exact .inr ⟨_, ⟨by simp [mayRaise], .inl ⟨rfl, rfl⟩⟩, h.symm⟩
    · split at h
      · simp only [finish_raised, Host.Outcome.next.injEq] at h
        exact .inr ⟨_, ⟨by simp [mayRaise], .inl ⟨rfl, rfl⟩⟩, h.symm⟩
      · simp only [finish_ok, Host.Outcome.next.injEq] at h
        exact .inl ⟨by omega, by omega, h.symm⟩
  | plResid =>
    rcases finish_eq_next.1 h with h | ⟨e, g, rfl⟩
    · obtain ⟨⟨v, p⟩, hr, h⟩ := Result.bind_eq_ok.1 h
      exact .inl ⟨v, p, hr, (Result.ok.inj h).symm⟩
    · rcases Result.bind_eq_raised.1 g with h | ⟨⟨v, p⟩, -, h⟩
      · obtain ⟨h1, h2⟩ := resid_raised h
        refine .inr ⟨_, ⟨?_, .inl h2⟩, rfl⟩
        rcases h1 with h1 | h1 | h1 | h1 <;> rw [h1] <;> simp [mayRaise]
      · cases h
  | plDecode p =>
    rcases finish_eq_next.1 h with h | ⟨e, g, rfl⟩
    · obtain ⟨u, hc, h⟩ := Result.bind_eq_ok.1 h
      obtain ⟨out, ho, h⟩ := Result.bind_eq_ok.1 h
      exact .inl ⟨planeChecks_eq_ok.1 hc, out, ho, (Result.ok.inj h).symm⟩
    · rcases Result.bind_eq_raised.1 g with h | ⟨u, -, h⟩
      · exact .inr ⟨_, planeChecks_raisesIn (.inl ⟨p, rfl⟩) h, rfl⟩
      · rcases Result.bind_eq_raised.1 h with h | ⟨out, -, h⟩
        · exact .inr ⟨_, planeBody_raisesIn (.inl rfl) h, rfl⟩
        · cases h
  | plDecodeAll =>
    rcases finish_eq_next.1 h with h | ⟨e, g, rfl⟩
    · obtain ⟨u, hc, h⟩ := Result.bind_eq_ok.1 h
      obtain ⟨out0, h0, h⟩ := Result.bind_eq_ok.1 h
      obtain ⟨out1, h1, h⟩ := Result.bind_eq_ok.1 h
      obtain ⟨out2, h2, h⟩ := Result.bind_eq_ok.1 h
      exact .inl ⟨planeChecks_eq_ok.1 hc, out0, out1, out2, h0, h1, h2, (Result.ok.inj h).symm⟩
    · rcases Result.bind_eq_raised.1 g with h | ⟨u, -, h⟩
      · exact .inr ⟨_, planeChecks_raisesIn (.inr rfl) h, rfl⟩
      · rcases Result.bind_eq_raised.1 h with h | ⟨out0, -, h⟩
        · exact .inr ⟨_, planeBody_raisesIn (.inr rfl) h, rfl⟩
        · rcases Result.bind_eq_raised.1 h with h | ⟨out1, -, h⟩
          · exact .inr ⟨_, planeBody_raisesIn (.inr rfl) h, rfl⟩
          · rcases Result.bind_eq_raised.1 h with h | ⟨out2, -, h⟩
            · exact .inr ⟨_, planeBody_raisesIn (.inr rfl) h, rfl⟩
            · cases h

/-- A command that can complete does: `exec` answers the state of its rule. -/
theorem exec_of_completes {i : Instr} (h : Completes s t i) : exec i s = .next t := by
  cases i with
  | nop => cases h; rfl
  | errAck => cases h; rfl
  | reset => cases h; rfl
  | bsOpen o =>
    obtain ⟨h1, h2, rfl⟩ := h
    simp only [exec, execBsOpen]
    rw [if_neg (by omega), if_neg (by omega), finish_ok]
  | bsSeek =>
    obtain ⟨h1, rfl⟩ := h
    simp only [exec, execBsSeek]
    rw [if_neg (by omega), finish_ok]
  | bsRead nm1 =>
    obtain ⟨h1, h2, rfl⟩ := h
    simp only [exec, execBsRead, readBits_inside h1 h2, Result.bind_ok, finish_ok]
  | bsPeek nm1 =>
    obtain ⟨h1, h2, rfl⟩ := h
    simp only [exec, execBsPeek, readBits_inside h1 h2, Result.bind_ok, finish_ok]
  | bsAtEnd => cases h; rfl
  | htClear => cases h; rfl
  | htInsert k idx =>
    obtain ⟨h1, a, h2, rfl⟩ := h
    simp only [exec, execHtInsert, tableEntry_inside h1, Result.bind_ok, h2, finish_ok]
  | htBuild k =>
    obtain ⟨a, n, h2, rfl⟩ := h
    simp only [exec, execHtBuild, Result.bind_ok, h2, finish_ok]
  | htDecode =>
    obtain ⟨a, n, h2, rfl⟩ := h
    simp only [exec, execHtDecode, Result.bind_ok, h2, finish_ok]
  | plAddr =>
    obtain ⟨h1, h2, rfl⟩ := h
    simp only [exec, execPlAddr]
    rw [if_neg (by omega), if_neg (by omega), finish_ok]
  | plResid =>
    obtain ⟨a, n, h2, rfl⟩ := h
    simp only [exec, execPlResid, Result.bind_ok, h2, finish_ok]
  | plDecode p =>
    obtain ⟨h1, out, h2, rfl⟩ := h
    have hc : planeChecks s = .ok () := planeChecks_eq_ok.2 h1
    simp only [exec, execPlDecode, hc, Result.bind_ok, h2, finish_ok]
  | plDecodeAll =>
    obtain ⟨h1, out0, out1, out2, h2, h3, h4, rfl⟩ := h
    have hc : planeChecks s = .ok () := planeChecks_eq_ok.2 h1
    simp only [exec, execPlDecodeAll, hc, Result.bind_ok, h2, h3, h4, finish_ok]

/-- A completed command leaves ERR set only where it was. -/
theorem Completes.err {i : Instr} (h : Completes s t i) : t.err = true → s.err = true := by
  cases i <;> simp only [Completes] at h
  case nop => subst h; simp
  case errAck => subst h; simp
  case reset => subst h; simp [State.resetRegisters, State.powerOn]
  case bsOpen => obtain ⟨-, -, rfl⟩ := h; simp
  case bsSeek => obtain ⟨-, rfl⟩ := h; simp
  case bsRead => obtain ⟨-, -, rfl⟩ := h; simp
  case bsPeek => obtain ⟨-, -, rfl⟩ := h; simp
  case bsAtEnd => subst h; simp
  case htClear => subst h; simp
  case htInsert => obtain ⟨-, a, -, rfl⟩ := h; simp
  case htBuild => obtain ⟨a, n, -, rfl⟩ := h; simp
  case htDecode => obtain ⟨a, n, -, rfl⟩ := h; simp
  case plAddr => obtain ⟨-, -, rfl⟩ := h; simp
  case plResid => obtain ⟨a, n, -, rfl⟩ := h; simp
  case plDecode => obtain ⟨-, out, -, rfl⟩ := h; simp
  case plDecodeAll => obtain ⟨-, o0, o1, o2, -, -, -, rfl⟩ := h; simp

end Sys2Proof.Machine
end

