-- ==== Sys2Proof/Laws/Encoding.lean ====
section
/-! SUPPORT. What the decoder reads from a word and what the encoder's words hold, in the terms of R111 to R116. -/

namespace Sys2Proof

/-- Every opcode is found by its code (R115). -/
theorem Opcode.ofCode_code (op : Opcode) : Opcode.ofCode op.code = some op := by
  cases op <;> decide

/-- Only its own code finds an opcode (R115). -/
theorem Opcode.ofCode_eq_some {b : BitVec 8} {op : Opcode} : Opcode.ofCode b = some op ↔ b = op.code := by
  constructor
  · intro h
    have := List.find?_some h
    exact (by simpa using this : op.code = b).symm
  · rintro rfl; exact Opcode.ofCode_code op

/-- A word with an opcode's code, its reserved bits 0 and legal operands decodes (R112 step 2). -/
theorem decode_ok_of {tab : Nat} {cw : Word} {i : Instr} (op : Opcode) (hc : cw.extractLsb' 24 8 = op.code)
    (hm : cw &&& op.format.mask = op.pattern) (ho : op.operands tab cw = some i) : decode tab cw = .ok i := by
  simp only [decode, Opcode.ofCode_eq_some.2 hc, hm, if_true, ho]

/-- Everything a word that decodes satisfies (R111, R113, R115). -/
theorem decode_eq_ok {tab : Nat} {cw : Word} {i : Instr} :
    decode tab cw = .ok i ↔
      ∃ op : Opcode, cw.extractLsb' 24 8 = op.code ∧ cw &&& op.format.mask = op.pattern ∧ op.operands tab cw = some i := by
  constructor
  · intro h
    unfold decode at h
    split at h
    · cases h
    · next op hop =>
      split at h
      · next hm =>
        split at h
        · next j hj => cases h; exact ⟨op, Opcode.ofCode_eq_some.1 hop, hm, hj⟩
        · cases h
      · cases h
  · rintro ⟨op, h1, h2, h3⟩; exact decode_ok_of op h1 h2 h3

/-- A value below 2^k meets no bit of a mask whose bits below k are 0. -/
theorem and_eq_zero_of_lt {m f : Word} (k : Nat) (hm : ∀ i, i < k → m.getLsbD i = false) (hf : f.toNat < 2 ^ k) :
    f &&& m = 0#32 := by
  apply BitVec.eq_of_getLsbD_eq
  intro i hi
  rw [BitVec.getLsbD_and, BitVec.getLsbD_zero]
  by_cases h : i < k
  · rw [hm i h, Bool.and_false]
  · have : f.getLsbD i = false := by
      rw [← BitVec.testBit_toNat]
      exact Nat.testBit_lt_two_pow (Nat.lt_of_lt_of_le hf (Nat.pow_le_pow_right (by decide) (by omega)))
    rw [this, Bool.false_and]

/-- The operand fields of every command lie in the bits its format leaves free (R111). -/
theorem Instr.fields_and_mask (i : Instr) : i.fields &&& i.opcode.format.mask = 0#32 := by
  cases i with
  | bsOpen o => cases o <;> decide
  | bsRead n => revert n; decide
  | bsPeek n => revert n; decide
  | htBuild t => revert t; decide
  | plDecode t => revert t; decide
  | htInsert t idx =>
    have hm : ∀ i, i < 18 → (Format.i).mask.getLsbD i = false := by decide
    apply and_eq_zero_of_lt 18 hm
    have h1 : (BitVec.ofNat 32 t.val <<< 16).toNat < 2 ^ 18 := by revert t; decide
    have h2 : (idx.setWidth 32).toNat < 2 ^ 18 := by
      rw [BitVec.toNat_setWidth]
      have := idx.isLt
      omega
    exact Nat.or_lt_two_pow h1 h2
  | _ => decide

/-- The encoder's words match their rows (R115, R119). -/
theorem encode_and_mask (i : Instr) : encode i &&& i.opcode.format.mask = i.opcode.pattern := by
  have hp : ∀ op : Opcode, op.pattern &&& op.format.mask = op.pattern := by intro op; cases op <;> decide
  have h : encode i &&& i.opcode.format.mask =
      (i.opcode.pattern &&& i.opcode.format.mask) ||| (i.fields &&& i.opcode.format.mask) := by
    apply BitVec.eq_of_getLsbD_eq
    intro j _
    simp [encode, Bool.and_or_distrib_right]
  rw [h, hp, Instr.fields_and_mask, BitVec.or_zero]

/-- A word that matches a row has the row's opcode. -/
theorem opcode_of_mask {cw : Word} (op : Opcode) (h : cw &&& op.format.mask = op.pattern) :
    cw.extractLsb' 24 8 = op.code := by
  have h1 : (cw &&& op.format.mask).extractLsb' 24 8 = cw.extractLsb' 24 8 := by
    apply BitVec.eq_of_getLsbD_eq
    intro j hj
    have hm : ∀ f : Format, ∀ j, j < 8 → f.mask.getLsbD (24 + j) = true := by intro f; cases f <;> decide
    simp [hj, hm _ j hj]
  rw [← h1, h]
  cases op <;> decide

/-- The encoder's words carry their opcode. -/
theorem encode_opcode (i : Instr) : (encode i).extractLsb' 24 8 = i.opcode.code :=
  opcode_of_mask i.opcode (encode_and_mask i)

end Sys2Proof
end

