-- ==== Sys2Proof/Laws/PerInstr.lean ====
section
/-! SUPPORT. A statement made of every command, proved one constructor at a time: the encoder's word matches the
command's row of R115 and no other opcode. -/

namespace Sys2Proof.Laws.EncodeMatchesRow

open Sys2Proof

/-- The word of `i` has the row's bits under the row's mask (R115, R119), and its bits 31:24 name its opcode. -/
def Statement (i : Instr) : Prop :=
  encode i &&& i.opcode.format.mask = i.opcode.pattern ∧ Opcode.ofCode ((encode i).extractLsb' 24 8) = some i.opcode

theorem all (i : Instr) : Statement i :=
  ⟨encode_and_mask i, by rw [encode_opcode]; generalize i.opcode = op; cases op <;> decide⟩

theorem nop : Statement .nop := all _
theorem errAck : Statement .errAck := all _
theorem reset : Statement .reset := all _
theorem bsOpen (o : BitOrder) : Statement (.bsOpen o) := all _
theorem bsSeek : Statement .bsSeek := all _
theorem bsRead (nm1 : BitVec 5) : Statement (.bsRead nm1) := all _
theorem bsPeek (nm1 : BitVec 5) : Statement (.bsPeek nm1) := all _
theorem bsAtEnd : Statement .bsAtEnd := all _
theorem htClear : Statement .htClear := all _
theorem htInsert (t : Fin 3) (idx : BitVec 16) : Statement (.htInsert t idx) := all _
theorem htBuild (t : Fin 3) : Statement (.htBuild t) := all _
theorem htDecode : Statement .htDecode := all _
theorem plAddr : Statement .plAddr := all _
theorem plResid : Statement .plResid := all _
theorem plDecode (p : Fin 3) : Statement (.plDecode p) := all _
theorem plDecodeAll : Statement .plDecodeAll := all _

end Sys2Proof.Laws.EncodeMatchesRow
end

