-- ==== Sys2Proof/Laws/Port.lean ====
section
/-! SUPPORT. What a step, a host access and a command word can do (R84, R90, R112, R207): the lemmas that later proofs
cite instead of unfolding `step`, `perform` and `runCommand`. -/

namespace Sys2Proof.Machine

variable {s t : State}

/-- A step takes the host's next action. -/
theorem step_cons {a : HostAction} {rest : List HostAction} (h : s.host = a :: rest) :
    step s = perform a (s.accept rest) := by
  simp only [step, h]

theorem step_idle (h : s.host = []) : step s = .next s := by
  simp only [step, h]

/-! The access test reads the parameters only, so each lemma takes them as `cfg`; `hc` comes last, so that `rw` leaves it to `rfl`. -/

theorem perform_read {cfg : Config} {port : Port} {addr width : Nat}
    (h : accessOk cfg port addr width = true) (hc : s.cfg = cfg) :
    perform (.read port addr width) s = .next (s.respond (.data (s.portRead port addr width))) := by
  subst hc; exact if_pos h

theorem perform_read_refused {cfg : Config} {port : Port} {addr width : Nat}
    (h : ¬ accessOk cfg port addr width = true) (hc : s.cfg = cfg) :
    perform (.read port addr width) s = .next (s.respond .busError) := by
  subst hc; exact if_neg h

theorem perform_write {cfg : Config} {port : Port} {addr width : Nat} {v : Word}
    (h : accessOk cfg port addr width = true) (hc : s.cfg = cfg) :
    perform (.write port addr width v) s = hostWrite port addr width v s := by
  subst hc; exact if_pos h

theorem perform_write_refused {cfg : Config} {port : Port} {addr width : Nat} {v : Word}
    (h : ¬ accessOk cfg port addr width = true) (hc : s.cfg = cfg) :
    perform (.write port addr width v) s = .next (s.respond .busError) := by
  subst hc; exact if_neg h

/-- The accesses a port accepts (R83, R88). -/
theorem accessOk_iff {cfg : Config} {port : Port} {addr width : Nat} :
    accessOk cfg port addr width = true ↔
      portTakes port width = true ∧ addr % width = 0 ∧ addr + width ≤ portBytes cfg port := by
  simp [accessOk, and_assoc]

/-- Only offset 0 is CMD (R38). -/
theorem Reg.ofOffset_cmd {off : Nat} : Reg.ofOffset off = some .cmd ↔ off = 0 := by
  constructor
  · intro h
    unfold Reg.ofOffset at h
    split at h <;> simp_all
  · rintro rfl; rfl

/-- The command word a host issues is what the next step runs. -/
theorem step_issue {cw : Word} : step (s.issue cw) = runCommand cw (s.accept s.host) := by
  rw [step_cons rfl, perform_write (cfg := s.cfg) (accessOk_iff.2 ⟨rfl, rfl, by simp [portBytes]⟩)]
  · rfl
  · rfl

/-- In NORMAL a legal word runs its command, an illegal one raises; in FAULTED all but two words are dropped. -/
theorem runCommand_next {cw : Word} (h : runCommand cw s = .next t) :
    (s.err = true ∧ cw = 0x01000000#32 ∧ t = s.ackError) ∨
    (s.err = true ∧ cw = 0x02000000#32 ∧ t = s.resetRegisters) ∨
    (s.err = true ∧ cw ≠ 0x01000000#32 ∧ cw ≠ 0x02000000#32 ∧ t = s.dropCommand) ∨
    (s.err = false ∧ ∃ why, decode s.cfg.tabEntries cw = .illegal why ∧ t = s.takeError (illegalCommand why cw)) ∨
    (s.err = false ∧ ∃ i, decode s.cfg.tabEntries cw = .ok i ∧ exec i s = .next t) := by
  unfold runCommand at h
  cases he : s.err with
  | true =>
    rw [he, if_pos rfl] at h
    split at h
    · next hc => exact .inl ⟨rfl, hc, (Host.Outcome.next.inj h).symm⟩
    · split at h
      · next hc => exact .inr (.inl ⟨rfl, hc, (Host.Outcome.next.inj h).symm⟩)
      · next h1 h2 => exact .inr (.inr (.inl ⟨rfl, h1, h2, (Host.Outcome.next.inj h).symm⟩))
  | false =>
    rw [he, if_neg (by simp)] at h
    split at h
    · next why hd => exact .inr (.inr (.inr (.inl ⟨rfl, why, hd, (Host.Outcome.next.inj h).symm⟩)))
    · next i hd => exact .inr (.inr (.inr (.inr ⟨rfl, i, hd, h⟩)))

/-- Everything a host write that the port accepts can do: it stores, it is ignored, or it runs a command. -/
theorem hostWrite_next {port : Port} {addr width : Nat} {v : Word} (h : hostWrite port addr width v s = .next t) :
    (port = .reg ∧ addr = 0 ∧ runCommand v s = .next t) ∨
    (port = .reg ∧ ∃ r, Reg.ofOffset addr = some r ∧ r ≠ .cmd ∧ t = s.writeReg r v) ∨
    (port = .reg ∧ Reg.ofOffset addr = none ∧ t = s) ∨
    (port = .ibuf ∧ t = { s with ibuf := s.ibuf.writeBytes addr v width }) ∨
    (port = .ctab ∧ t = { s with ctab := s.ctab.write addr v }) ∨
    (port = .node ∧ t = s.respond .busError) ∨
    (port = .obuf ∧ t = { s with obuf := s.obuf.writeBytes addr v width }) := by
  cases port with
  | reg =>
    simp only [hostWrite] at h
    cases hr : Reg.ofOffset addr with
    | none => rw [hr] at h; exact .inr (.inr (.inl ⟨rfl, rfl, (Host.Outcome.next.inj h).symm⟩))
    | some r =>
      rw [hr] at h
      cases r
      case cmd => exact .inl ⟨rfl, Reg.ofOffset_cmd.1 hr, h⟩
      all_goals exact .inr (.inl ⟨rfl, _, rfl, by simp, (Host.Outcome.next.inj h).symm⟩)
  | ibuf => exact .inr (.inr (.inr (.inl ⟨rfl, (Host.Outcome.next.inj h).symm⟩)))
  | ctab => exact .inr (.inr (.inr (.inr (.inl ⟨rfl, (Host.Outcome.next.inj h).symm⟩))))
  | node => exact .inr (.inr (.inr (.inr (.inr (.inl ⟨rfl, (Host.Outcome.next.inj h).symm⟩)))))
  | obuf => exact .inr (.inr (.inr (.inr (.inr (.inr ⟨rfl, (Host.Outcome.next.inj h).symm⟩)))))

/-- Everything a step can do. -/
theorem step_next (h : step s = .next t) :
    (s.host = [] ∧ t = s) ∨
    (∃ rest, s.host = .hardReset :: rest ∧ t = (s.accept rest).hardReset) ∨
    (∃ port addr width rest r, s.host = .read port addr width :: rest ∧ t = (s.accept rest).respond r) ∨
    (∃ port addr width v rest, s.host = .write port addr width v :: rest ∧
      accessOk s.cfg port addr width = false ∧ t = (s.accept rest).respond .busError) ∨
    (∃ port addr width v rest, s.host = .write port addr width v :: rest ∧
      accessOk s.cfg port addr width = true ∧ hostWrite port addr width v (s.accept rest) = .next t) := by
  cases hh : s.host with
  | nil => rw [step_idle hh] at h; exact .inl ⟨rfl, (Host.Outcome.next.inj h).symm⟩
  | cons a rest =>
    rw [step_cons hh] at h
    cases a with
    | hardReset => exact .inr (.inl ⟨rest, rfl, (Host.Outcome.next.inj h).symm⟩)
    | read port addr width =>
      by_cases ha : accessOk (s.accept rest).cfg port addr width = true
      · rw [perform_read ha rfl] at h
        exact .inr (.inr (.inl ⟨port, addr, width, rest, _, rfl, (Host.Outcome.next.inj h).symm⟩))
      · rw [perform_read_refused ha rfl] at h
        exact .inr (.inr (.inl ⟨port, addr, width, rest, _, rfl, (Host.Outcome.next.inj h).symm⟩))
    | write port addr width v =>
      by_cases ha : accessOk (s.accept rest).cfg port addr width = true
      · rw [perform_write ha rfl] at h
        exact .inr (.inr (.inr (.inr ⟨port, addr, width, v, rest, rfl, ha, h⟩)))
      · rw [perform_write_refused ha rfl] at h
        exact .inr (.inr (.inr (.inl ⟨port, addr, width, v, rest, rfl, by simpa using ha, (Host.Outcome.next.inj h).symm⟩)))

end Sys2Proof.Machine
end

