-- ==== Sys2Proof/Tests/Slice0.lean ====
section
/-! SUPPORT. Tests of the model against words and values written out in spec/, each naming its source, and for every
statement with hypotheses a witness: a concrete state and operands that meet all of them together. -/

namespace Sys2Proof.Tests

open Sys2Proof Sys2Proof.Machine

/-! ### Small states -/

/-- A small instance that meets R11 to R14. -/
def cfg : Config := { ibufBytes := 32, obufBytes := 64, tabEntries := 6, nodeMax := 200 }

/-- Bytes at 0, 1, 2 and so on. -/
def bytes (l : List Nat) : Memory 8 := l.zipIdx.foldl (fun m c => m.write c.2 (BitVec.ofNat 8 c.1)) []

/-- Table `t` of an instance with `tab` entries, as (len, code) pairs, added to `m`. -/
def table (tab t : Nat) (l : List (Nat × Nat)) (m : Memory 32) : Memory 32 :=
  l.zipIdx.foldl (fun m c =>
    (m.write (8 * (t * tab + c.2)) (BitVec.ofNat 32 c.1.1)).write (8 * (t * tab + c.2) + 4) (BitVec.ofNat 32 c.1.2)) m

/-- Tables T0, T1 and T2 of 95_test_vectors.md. -/
def T0 : List (Nat × Nat) := [(1, 0), (0, 0)]
def T1 : List (Nat × Nat) := [(1, 0), (2, 2), (3, 6), (3, 7), (0, 0)]
def T2 : List (Nat × Nat) := [(2, 0), (2, 1), (2, 2), (3, 6), (3, 7), (0, 0)]

/-- The state after power-on with the given input bytes and table 0. -/
def start (ibuf : List Nat) (t0 : List (Nat × Nat)) : State := State.powerOn cfg (bytes ibuf) (table 6 0 t0 []) [] []

/-- `start` with a window over all input bytes at bit `pos`. -/
def reader (ibuf : List Nat) (order : BitOrder) (pos : Nat) : State :=
  { start ibuf [] with
    blen := BitVec.ofNat 32 ibuf.length, order := order, bpos := BitVec.ofNat 32 pos
    blim := BitVec.ofNat 32 (8 * ibuf.length) }

/-- The input bytes of the examples of `40_bitstream.md`. -/
def example5 : List Nat := [0xA5, 0x3C, 0xF0, 0x0F, 0x81]

/-- The tree of T1 (R156). -/
def tree1 : List Node :=
  [{ c0 := 1#32, c1 := 2#32, leaf := undefinedLeaf }, { c0 := nil32, c1 := nil32, leaf := 0#32 },
   { c0 := 3#32, c1 := 4#32, leaf := undefinedLeaf }, { c0 := nil32, c1 := nil32, leaf := 1#32 },
   { c0 := 5#32, c1 := 6#32, leaf := undefinedLeaf }, { c0 := nil32, c1 := nil32, leaf := 2#32 },
   { c0 := nil32, c1 := nil32, leaf := 3#32 }]

/-- One plane of one row and three columns over the first input byte, table 0, stride 18. -/
def plane (ibuf : List Nat) (t0 : List (Nat × Nat)) : State :=
  { start ibuf t0 with
    blen := 1#32, cols := 3#16, rows := 1#16, stride := 18#32, seed := #v[512#16, 512#16, 512#16]
    psize := #v[1#32, 0#32, 0#32], paddr := #v[0#32, 1#32, 1#32], pavalid := true }

/-- Whether a step or a command answers a next state of which `f` holds. -/
def gives (o : Host.Outcome State Fault Refusal) (f : State → Bool) : Bool :=
  match o with
  | .next t => f t
  | .fault _ => false
  | .refused _ => false

/-- The record as the host reads it: ECAUSE, EPOS, EEXP, EFND, ELOC. -/
def recordOf (t : State) : List Word :=
  [t.record.ecause, t.record.epos, t.record.eexp, t.record.efnd, t.record.eloc]

/-! ### Decoding: words written out from R111 and R115 -/

/-- 30_encoding.md R190, R191, R192 and the words of each family file. -/
theorem test_decode_words :
    decode 1025 0x00000000#32 = .ok .nop ∧ decode 1025 0x01000000#32 = .ok .errAck ∧
    decode 1025 0x02000000#32 = .ok .reset ∧ decode 1025 0x10000001#32 = .ok (.bsOpen .lsb) ∧
    decode 1025 0x11000000#32 = .ok .bsSeek ∧ decode 1025 0x1200000B#32 = .ok (.bsRead 11#5) ∧
    decode 1025 0x13000007#32 = .ok (.bsPeek 7#5) ∧ decode 1025 0x14000000#32 = .ok .bsAtEnd ∧
    decode 1025 0x20000000#32 = .ok .htClear ∧ decode 1025 0x21020005#32 = .ok (.htInsert 2 5#16) ∧
    decode 1025 0x22000002#32 = .ok (.htBuild 2) ∧ decode 1025 0x23000000#32 = .ok .htDecode ∧
    decode 1025 0x30000000#32 = .ok .plAddr ∧ decode 1025 0x31000000#32 = .ok .plResid ∧
    decode 1025 0x32000001#32 = .ok (.plDecode 1) ∧ decode 1025 0x33000000#32 = .ok .plDecodeAll := by decide

/-- V46: illegal words and their sub-causes, and the last legal index. -/
theorem test_decode_refuses :
    decode 1025 0x15000000#32 = .illegal .unknownOpcode ∧ decode 1025 0x00000001#32 = .illegal .reservedField ∧
    decode 1025 0x12000020#32 = .illegal .reservedField ∧ decode 1025 0x21040000#32 = .illegal .reservedField ∧
    decode 1025 0x22000003#32 = .illegal .badOperand ∧ decode 1025 0x32000003#32 = .illegal .badOperand ∧
    decode 1025 0x21030000#32 = .illegal .badOperand ∧ decode 1025 0x21000401#32 = .illegal .badOperand ∧
    decode 1025 0x21000400#32 = .ok (.htInsert 0 1024#16) := by decide

/-- R119: the words of `BS.READ 12` and `HT.INSERT 2, 5`. -/
theorem test_encode_words :
    encode (.bsRead 11#5) = 0x1200000B#32 ∧ encode (.htInsert 2 5#16) = 0x21020005#32 ∧
    encode (.bsOpen .lsb) = 0x10000001#32 := by decide

/-- R113: the one check of WellFormed refuses an index of TAB_ENTRIES. -/
theorem test_wellformed_refuses :
    Instr.wellFormed 1025 (.htInsert 0 1025#16) = false ∧ Instr.wellFormed 1025 (.htInsert 0 1024#16) = true := by
  decide

/-- The tables' pairs decode through the host's entry point. -/
theorem test_decodeTableWord : decodeTableWord 32 0x21020005 = some (.htInsert 2 5#16) := by decide

/-! ### Memory -/

theorem test_memory_canonical :
    Memory.write (Memory.write (Memory.write [] 3 7#8) 1 5#8) 3 0#8 = [(1, 5#8)] := by decide

/-! ### Commands -/

/-- V47: ERR.ACK in FAULTED. -/
theorem test_errAck : gives (step (State.issue { State.reset with err := true, lost := true } 0x01000000#32))
    (fun t => t.status = 0#32) = true := by decide

/-- V47: an illegal word in FAULTED is dropped and sets LOST. -/
theorem test_dropped : gives (step (State.issue { State.reset with err := true } 0x22000003#32))
    (fun t => t.status = 3#32 ∧ recordOf t = [0#32, 0#32, 0#32, 0#32, 0#32]) = true := by decide

/-- R192. -/
theorem test_reset : gives (exec .reset { reader example5 .lsb 3 with arena := tree1 })
    (fun t => t.arena = [Node.empty] ∧ t.status = 0#32 ∧ t.bpos = 0#32) = true := by decide

/-- R190. -/
theorem test_nop : gives (exec .nop (reader example5 .lsb 3)) (fun t => t.bpos = 3#32) = true := by decide

/-- R132, example: A0 = 1, A1 = 3. -/
theorem test_bsOpen : gives (exec (.bsOpen .msb) { reader example5 .lsb 3 with a0 := 1#32, a1 := 3#32 })
    (fun t => t.order = .msb ∧ t.bpos = 8#32 ∧ t.blim = 32#32) = true := by decide

/-- R132, example: A0 = 4, A1 = 2. -/
theorem test_bsOpen_window : gives (exec (.bsOpen .msb) { reader example5 .lsb 3 with a0 := 4#32, a1 := 2#32 })
    (fun t => recordOf t = [0x106#32, 4#32, 5#32, 2#32, 0#32] ∧ t.order = .lsb) = true := by decide

/-- R133, example: A0 = 3, then A0 = 6. -/
theorem test_bsSeek : gives (exec .bsSeek { reader example5 .msb 3 with a0 := 3#32 }) (fun t => t.bpos = 24#32) = true := by
  decide

theorem test_bsSeek_beyond : gives (exec .bsSeek { reader example5 .msb 40 with a0 := 6#32 })
    (fun t => recordOf t = [0x206#32, 40#32, 5#32, 6#32, 0#32] ∧ t.bpos = 40#32) = true := by decide

/-- R134, examples: 12 bits from bit 10, MSB-first and LSB-first. -/
theorem test_bsRead_msb : gives (exec (.bsRead 11#5) (reader example5 .msb 10))
    (fun t => t.res = 3900#32 ∧ t.bpos = 22#32) = true := by decide

theorem test_bsRead_lsb : gives (exec (.bsRead 11#5) (reader example5 .lsb 10))
    (fun t => t.res = 3087#32 ∧ t.bpos = 22#32) = true := by decide

/-- R135, examples: 8 bits from bit 4. -/
theorem test_bsPeek : gives (exec (.bsPeek 7#5) (reader example5 .msb 4))
    (fun t => t.res = 0x53#32 ∧ t.bpos = 4#32) = true := by decide

theorem test_bsPeek_lsb : gives (exec (.bsPeek 7#5) (reader example5 .lsb 4)) (fun t => t.res = 0xCA#32) = true := by
  decide

/-- R136, example. -/
theorem test_bsAtEnd : gives (exec .bsAtEnd (reader example5 .msb 39)) (fun t => t.res = 0#32) = true ∧
    gives (exec .bsAtEnd (reader example5 .msb 40)) (fun t => t.res = 1#32) = true := by decide

/-- R151, example. -/
theorem test_htClear : gives (exec .htClear { start [] T1 with arena := tree1 })
    (fun t => t.ncount = 1#32 ∧ t.nodeWord 12 = 0xFFFFFFFF#32) = true := by decide

/-- R155, example: entry 1 of T1 after entry 0. -/
theorem test_htInsert : gives (exec (.htInsert 0 1#16)
      { start [] T1 with arena := [{ c0 := 1#32, c1 := nil32, leaf := undefinedLeaf }, { c0 := nil32, c1 := nil32, leaf := 0#32 }] })
    (fun t => t.arena = [{ c0 := 1#32, c1 := 2#32, leaf := undefinedLeaf }, { c0 := nil32, c1 := nil32, leaf := 0#32 },
      { c0 := 3#32, c1 := nil32, leaf := undefinedLeaf }, { c0 := nil32, c1 := nil32, leaf := 1#32 }]) = true := by decide

/-- V16: the same code twice. -/
theorem test_htInsert_twice : gives (exec (.htInsert 0 0#16) { start [] T1 with arena := tree1 })
    (fun t => recordOf t = [0x304#32, 0#32, 1#32, 0#32, 0#32] ∧ t.arena = tree1) = true := by decide

/-- R156, example: T1. -/
theorem test_htBuild : gives (exec (.htBuild 0) (start [] T1))
    (fun t => t.res = 4#32 ∧ t.ncount = 7#32 ∧ t.arena = tree1) = true := by decide

/-- R156, example: (1, 0b0), (2, 0b01). -/
theorem test_htBuild_prefix : gives (exec (.htBuild 0) (start [] [(1, 0), (2, 1), (0, 0)]))
    (fun t => recordOf t = [0x104#32, 1#32, 2#32, 1#32, 0#32] ∧ t.arena = [Node.empty]) = true := by decide

/-- R157, example: CF 00 with T1. -/
theorem test_htDecode : gives (exec .htDecode { reader [0xCF, 0x00] .msb 0 with arena := tree1 })
    (fun t => t.res = 2#32 ∧ t.bpos = 3#32) = true := by decide

/-- R157, example: the byte FF from bit 6 ends inside a code. -/
theorem test_htDecode_end : gives (exec .htDecode { reader [0xFF] .msb 6 with arena := tree1 })
    (fun t => recordOf t = [3#32, 8#32, 1#32, 0#32, 0#32] ∧ t.bpos = 6#32) = true := by decide

/-- R173, example. -/
theorem test_plAddr : gives (exec .plAddr { start [] [] with pbase := 16#32, psize := #v[4#32, 2#32, 6#32], blen := 28#32 })
    (fun t => t.paddr = #v[16#32, 20#32, 22#32] ∧ t.pavalid) = true := by decide

theorem test_plAddr_short : gives (exec .plAddr { start [] [] with pbase := 16#32, psize := #v[4#32, 2#32, 6#32], blen := 27#32 })
    (fun t => recordOf t = [0x306#32, 16#32, 27#32, 28#32, 0#32] ∧ !t.pavalid) = true := by decide

/-- R171 and R157: with T1's tree, the bits 110 01 are size category 2 and the residual −2 (program P3). -/
theorem test_plResid : gives (exec .plResid { reader [0xCE] .msb 0 with arena := tree1 })
    (fun t => t.res = 0xFFFFFFFE#32 ∧ t.bpos = 5#32) = true := by decide

/-- Program P3: the next residual of the same stream is +2. -/
theorem test_plResid_positive : gives (exec .plResid { reader [0xCE, 0xAF] .msb 5 with arena := tree1 })
    (fun t => t.res = 2#32 ∧ t.bpos = 10#32) = true := by decide

/-- Program P3, plane 0, row 0: residuals +1, −1, +2 over T2 give 513, 511, 513. -/
theorem test_plDecode : gives (exec (.plDecode 0) { plane [0x6A, 0x8B] T2 with psize := #v[2#32, 0#32, 0#32] })
    (fun t => t.obuf = [(0, 0x01#8), (1, 0x02#8), (6, 0xFF#8), (7, 0x01#8), (12, 0x01#8), (13, 0x02#8)] ∧
      t.bpos = 10#32 ∧ t.blim = 16#32 ∧ t.ncount = 9#32) = true := by decide

/-- R174: a seed of 511. -/
theorem test_plDecode_seed : gives (exec (.plDecode 0) { plane [0] T0 with seed := #v[511#16, 512#16, 512#16] })
    (fun t => recordOf t = [0x40505#32, 0#32, 512#32, 511#32, 0#32] ∧ t.obuf = []) = true := by decide

/-- R179 with R177's example: zero residuals in all three planes. -/
theorem test_plDecodeAll : gives (exec .plDecodeAll
      { plane [0, 0, 0] T0 with
        ctab := table 6 2 T0 (table 6 1 T0 (table 6 0 T0 [])), cols := 1#16, stride := 6#32
        psize := #v[1#32, 1#32, 1#32], paddr := #v[0#32, 1#32, 2#32] })
    (fun t => t.obuf = [(1, 2#8), (3, 2#8), (5, 2#8)] ∧ t.bpos = 17#32 ∧ t.blim = 24#32) = true := by decide

/-- Program P3: a bad seed of plane 2 publishes nothing. -/
theorem test_plDecodeAll_seed : gives (exec .plDecodeAll
      { plane [0, 0, 0] T0 with
        ctab := table 6 2 T0 (table 6 1 T0 (table 6 0 T0 [])), cols := 1#16, stride := 6#32
        seed := #v[512#16, 512#16, 0#16], psize := #v[1#32, 1#32, 1#32], paddr := #v[0#32, 1#32, 2#32] })
    (fun t => recordOf t = [0x60505#32, 16#32, 512#32, 0#32, 0#32] ∧ t.obuf = []) = true := by decide

/-! ### The host's ports -/

/-- V48: only the named bits are stored. -/
theorem test_register_bits : gives (step { State.reset with host := [.write .reg 0x3C 4 0x12345678#32] })
    (fun t => t.portRead .reg 0x3C 4 = 0x5678#32) = true := by decide

/-- R38: 0x50 is SEED1. -/
theorem test_register_map : gives (step { State.reset with host := [.write .reg 0x50 4 0x200#32] })
    (fun t => t.seed = #v[0#16, 512#16, 0#16]) = true := by decide

/-- V48: a write to a read-only register is ignored; R84: a misaligned read is refused. -/
theorem test_port_refuses :
    gives (step { State.reset with host := [.write .reg 0x28 4 7#32] }) (fun t => t.res = 0#32 ∧ t.bus = .done) = true ∧
    gives (step { State.reset with host := [.read .ibuf 1 2] }) (fun t => t.bus = .busError) = true := by decide

/-- R81, R82: a sample is seen little-endian. -/
theorem test_little_endian :
    gives (step { State.reset with obuf := [(0, 0x01#8), (1, 0x02#8)], host := [.read .obuf 0 2] })
      (fun t => t.bus = .data 0x0201#32) = true := by decide

/-! ### Witnesses: a state and operands that meet a statement's hypotheses -/

theorem gives_next {o : Host.Outcome State Fault Refusal} {f : State → Bool} (h : gives o f = true) :
    ∃ t, o = .next t ∧ f t = true := by
  cases o with
  | next t => exact ⟨t, rfl, h⟩
  | fault x => cases h
  | refused x => cases h

/-- Whether a helper raises. -/
def raises {α : Type} (r : Result α) : Bool :=
  match r with
  | .ok _ => false
  | .raised _ => true
  | .fault _ => false

theorem raises_raised {α : Type} {r : Result α} (h : raises r = true) : ∃ e, r = .raised e := by
  cases r with
  | ok a => cases h
  | raised e => exact ⟨e, rfl⟩
  | fault x => cases h

/-- Two commands one after the other, both completing without an error. -/
theorem gives_two {i j : Instr} {s : State} (h : gives (exec i s) (fun t => !t.err && gives (exec j t) fun u => !u.err) = true) :
    ∃ t, exec i s = .next t ∧ t.err = false ∧ ∃ u, exec j t = .next u ∧ u.err = false := by
  obtain ⟨t, ht, h⟩ := gives_next h
  rw [Bool.and_eq_true, Bool.not_eq_true'] at h
  obtain ⟨u, hu, hue⟩ := gives_next h.2
  exact ⟨t, ht, h.1, u, hu, by simpa using hue⟩

/-- EncodeThenDecodeGivesTheCommand, at the largest and the smallest index. -/
theorem witness_encode : Instr.wellFormed 1025 (.htInsert 2 1024#16) = true ∧ Instr.wellFormed 1025 (.htInsert 0 0#16) = true := by
  decide

/-- DecodedWordIsTheEncoding. -/
theorem witness_decode : decode 1025 0x21020400#32 = .ok (.htInsert 2 1024#16) := by decide

/-- IllegalWordsRaiseTheFirstFailedCheck: one word for each clause, the last two at the boundary of idx. -/
theorem witness_illegal :
    State.reset.err = false ∧ (∀ r ∈ commandRows, (0x03000000#32 : Word).extractLsb' 24 8 ≠ r.1) ∧
    ((0x00#8, 0x00000000#32, 0xFFFFFFFF#32) ∈ commandRows ∧ (0x00000001#32 : Word).extractLsb' 24 8 = 0x00#8 ∧
      0x00000001#32 &&& 0xFFFFFFFF#32 ≠ 0x00000000#32) ∧
    ((0x21#8, 0x21000000#32, 0xFFFC0000#32) ∈ commandRows ∧ (0x21000401#32 : Word).extractLsb' 24 8 = 0x21#8 ∧
      0x21000401#32 &&& 0xFFFC0000#32 = 0x21000000#32 ∧ operandIllegal State.reset.cfg.tabEntries 0x21000401#32) ∧
    ((0x21000400#32 : Word).extractLsb' 24 8 = 0x21#8 ∧ 0x21000400#32 &&& 0xFFFC0000#32 = 0x21000000#32 ∧
      ¬ operandIllegal State.reset.cfg.tabEntries 0x21000400#32) := by
  unfold operandIllegal
  exact ⟨rfl, by simp [commandRows], by simp [commandRows], by simp [commandRows, State.reset, State.powerOn, Config.default],
    by simp [State.reset, State.powerOn, Config.default]⟩

/-- StepRunsTheDecodedCommand. -/
theorem witness_step :
    (State.reset.issue 0x14000000#32).err = false ∧
    (State.reset.issue 0x14000000#32).host = .write .reg 0 4 0x14000000#32 :: [] ∧
    decode (State.reset.issue 0x14000000#32).cfg.tabEntries 0x14000000#32 = .ok .bsAtEnd := ⟨rfl, rfl, by decide⟩

/-- FaultedUnitDropsCommands and FaultedUnitExecutesAckAndReset. -/
theorem witness_faulted :
    ({ State.reset with err := true } : State).err = true ∧ (0x01000001#32 : Word) ≠ 0x01000000#32 ∧
    (0x01000001#32 : Word) ≠ 0x02000000#32 := by decide

/-- HostWritesWorkWhileFaulted. -/
theorem witness_host_write : ¬ (Port.reg = Port.reg ∧ 8 = 0) ∧
    ∃ t, step { State.reset with host := .write .reg 8 4 1#32 :: State.reset.host } = .next t ∧ decide (t.eie = true) = true :=
  ⟨by decide, gives_next (by decide)⟩

/-- ErrorsChangeOnlyErrAndTheRecord, ErrorContextMatchesTheCommand, CommandsRaiseOnlyTheirCauses: a failure outside a
plane, and one inside a plane at column 1. -/
theorem witness_error : State.reset.err = false ∧
    ∃ t, exec (.bsRead 0#5) State.reset = .next t ∧ (t.err && !t.record.inPlane) = true :=
  ⟨rfl, gives_next (by decide)⟩

theorem witness_error_in_plane :
    ((plane [0] [(8, 0), (0, 0)]).err = false ∧
      ∃ t, exec (.plDecode 0) (plane [0] [(8, 0), (0, 0)]) = .next t ∧
        (t.err && t.record.inPlane && decide (t.record.col = 1#16 ∧ t.record.cause ≠ 10#8)) = true) ∧
    ∃ t, exec .plDecodeAll
        { plane [0, 0, 0] T0 with
          ctab := table 6 2 T0 (table 6 1 T0 (table 6 0 T0 [])), seed := #v[512#16, 512#16, 511#16]
          psize := #v[1#32, 1#32, 1#32], paddr := #v[0#32, 1#32, 2#32] } = .next t ∧
      (t.err && t.record.inPlane && decide (t.record.plane = 2#2 ∧ t.record.cause = 5#8 ∧ t.record.sub = 5#8)) = true :=
  ⟨⟨rfl, gives_next (by decide)⟩, gives_next (by decide)⟩

/-- FlagsChangeOnlyAsListed: a step for each clause. -/
theorem witness_flags :
    (∃ t, step (State.reset.issue 0x03000000#32) = .next t ∧ t.err = true) ∧
    (∃ t, step (State.issue { State.reset with err := true } 0x01000000#32) = .next t ∧ (!t.err) = true) ∧
    (∃ t, step (State.issue { State.reset with err := true } 0x00000000#32) = .next t ∧ t.lost = true) ∧
    (∃ t, step (State.issue { State.reset with err := true, lost := true } 0x02000000#32) = .next t ∧ (!t.lost) = true) ∧
    (∃ t, step (State.reset.issue 0x30000000#32) = .next t ∧ t.pavalid = true) ∧
    (∃ t, step { State.reset with pavalid := true, host := [.write .reg 0x34 4 0#32] } = .next t ∧ (!t.pavalid) = true) ∧
    (∃ t, step (State.reset.issue 0x10000001#32) = .next t ∧ decide (t.order = .lsb) = true) ∧
    (∃ t, step { State.reset with order := .lsb, host := [.hardReset] } = .next t ∧ decide (t.order = .msb) = true) :=
  ⟨gives_next (by decide), gives_next (by decide), gives_next (by decide), gives_next (by decide), gives_next (by decide),
    gives_next (by decide), gives_next (by decide), gives_next (by decide)⟩

/-- ErrorRecordChangesOnlyByRaiseOrReset: a raise, and a reset. -/
theorem witness_record :
    (∃ t, step (State.reset.issue 0x03000000#32) = .next t ∧ decide (t.record ≠ State.reset.record) = true) ∧
    ∃ t, step { State.reset with record := { ErrorRecord.zero with cause := 3#8 }, host := [.hardReset] } = .next t ∧
      decide (t.record ≠ { ErrorRecord.zero with cause := 3#8 }) = true :=
  ⟨gives_next (by decide), gives_next (by decide)⟩

/-- ResetRestoresTheResetState, PowerOnRegistersReadTheirResetValues, RegisterPortStoresTheNamedBits: offsets of each
kind, the first and the last. -/
theorem witness_offsets :
    (0 % 4 = 0 ∧ 0 < 256) ∧ (252 % 4 = 0 ∧ 252 < 256 ∧ storedBits 252 = none ∧ 0x74 ≤ 252) ∧
    storedBits 8 = some 1#32 ∧ storedBits 0x60 = some 0xFFFFFFFF#32 ∧ storedBits 4 = none ∧
    clearsPavalid 0x34 ∧ clearsPavalid 0x60 ∧ ¬ clearsPavalid 8 := by
  unfold clearsPavalid; decide

/-- BadAccessesGetABusError: a wrong width, a misaligned address, and the first byte out of range. -/
theorem witness_bad_access :
    3 ∉ (if Port.ibuf = Port.ibuf ∨ Port.ibuf = Port.obuf then [1, 2, 4] else [4]) ∧ 1 % 2 ≠ 0 ∧
    (start [] []).cfg.ibufBytes < 32 + 1 := by decide

/-- HostBytesAreLittleEndian: the last word of IBUF and of OBUF. -/
theorem witness_host_bytes :
    4 ∈ [1, 2, 4] ∧ 28 % 4 = 0 ∧ 28 + 4 ≤ (start example5 []).cfg.ibufBytes ∧ (start example5 []).ibuf.wf = true ∧
    60 % 4 = 0 ∧ 60 + 4 ≤ (start example5 []).cfg.obufBytes ∧ (start example5 []).obuf.wf = true := by decide

/-- CodeTableWordsLieAtTheirOffsets: the last entry of the last table. -/
theorem witness_table : 5 < (start [] T1).cfg.tabEntries ∧ (start [] T1).ctab.wf = true := by decide

/-- NodePortShowsTheArena: a node in use, and the last one that is not. -/
theorem witness_node : 0 < (start [] []).cfg.nodeMax ∧ (start [] []).arena[0]? = some Node.empty ∧
    199 < (start [] []).cfg.nodeMax ∧ (start [] []).arena.length ≤ 199 := by decide

/-- HostActionsRunInOrder. -/
theorem witness_order : ({ State.reset with host := [.hardReset, .read .reg 0 4] } : State).host = .hardReset :: [.read .reg 0 4] ∧
    (∃ t, step { State.reset with host := [.hardReset, .read .reg 0 4] } = .next t ∧ decide (t.bus = .idle) = true) ∧
    State.reset.host = [] := ⟨rfl, gives_next (by decide), rfl⟩

/-- CommandsWriteOnlyTheirOwnState: a plane command that publishes. -/
theorem witness_frame : ∃ t, exec (.plDecode 0) (plane [0] T0) = .next t ∧ decide (t.obuf ≠ []) = true :=
  gives_next (by decide)

/-- BsOpenSetsTheWindowOrRaises: one state for each clause, the last at the boundary. -/
theorem witness_bsOpen :
    cfg.ibufBytes < ({ start [] [] with blen := 33#32 } : State).blen.toNat ∧
    ((5#32 : Word).toNat ≤ cfg.ibufBytes ∧ (5#32 : Word).toNat < (4#32 : Word).toNat + (2#32 : Word).toNat) ∧
    ((5#32 : Word).toNat ≤ cfg.ibufBytes ∧ (5#32 : Word).toNat + (0#32 : Word).toNat ≤ (5#32 : Word).toNat) ∧ cfg.wf := by
  decide

/-- BsSeekMovesTheCursorOrRaises: the last target and the first beyond it. -/
theorem witness_bsSeek : (reader example5 .msb 0).blim.toNat < 8 * (6#32 : Word).toNat ∧
    8 * (5#32 : Word).toNat ≤ (reader example5 .msb 0).blim.toNat := by decide

/-- BsReadReturnsTheStreamBits, BsPeekReadsWithoutAdvancing: one bit and two bits with one bit left, in both orders. -/
theorem witness_bsRead : windowInside (reader example5 .msb 39) ∧
    (reader example5 .msb 39).bpos.toNat ≤ (reader example5 .msb 39).blim.toNat ∧
    (reader example5 .msb 39).bpos.toNat + ((0#5).toNat + 1) ≤ (reader example5 .msb 39).blim.toNat ∧
    (reader example5 .msb 39).blim.toNat < (reader example5 .msb 39).bpos.toNat + ((1#5).toNat + 1) ∧
    (reader example5 .msb 39).order = .msb ∧ (reader example5 .lsb 39).order = .lsb := by
  unfold windowInside; decide

/-- BsAtEndComparesTheCursor. -/
theorem witness_bsAtEnd : (reader example5 .msb 40).bpos = (reader example5 .msb 40).blim ∧
    (reader example5 .msb 39).bpos ≠ (reader example5 .msb 39).blim := by decide

/-- ConsecutiveReadsAreOneRead: 16 and 16 bits. -/
theorem witness_consecutive : windowInside (reader example5 .msb 3) ∧ (reader example5 .msb 3).err = false ∧
    (31#5).toNat + 1 = ((15#5).toNat + 1) + ((15#5).toNat + 1) ∧
    ∃ t, exec (.bsRead 15#5) (reader example5 .msb 3) = .next t ∧ t.err = false ∧
      ∃ u, exec (.bsRead 15#5) t = .next u ∧ u.err = false :=
  ⟨by unfold windowInside; decide, rfl, by decide, gives_two (by decide)⟩

/-! Trees and tables -/

theorem build_T1 : build cfg (table 6 0 T1 []) 0 = .ok (tree1, 4) := by decide

theorem cfg_wf : cfg.wf := by decide

theorem tree1_wf : ArenaWf cfg tree1 := (build_ok cfg_wf build_T1).1.wf

/-- A path and the childless node with a symbol at its end, by computation. -/
theorem leadsTo_of {arena : List Node} {bits : List Bool} (k : Nat) (nd : Node) (hw : walk arena bits 0 = some k)
    (hk : arena[k]? = some nd) (hc : nd.childless = true) (hl : nd.leaf ≠ undefinedLeaf) : leadsTo arena bits nd.leaf :=
  ⟨k, nd, hw, hk, hc, rfl, hl⟩

/-- A small instance with `nodes` nodes. -/
def cfgNodes (nodes : Nat) : Config := { cfg with nodeMax := nodes }

/-- The state after power-on of that instance with table 0 of T1. -/
def startNodes (nodes : Nat) : State := State.powerOn (cfgNodes nodes) [] (table 6 0 T1 []) [] []

/-- HtInsertAddsItsCode: entry 1 in the empty tree, in an arena it fills. -/
theorem witness_insert : (startNodes 3).cfg.wf ∧ ArenaWf (startNodes 3).cfg (startNodes 3).arena ∧
    (1#16).toNat < (startNodes 3).cfg.tabEntries ∧ entryLen (startNodes 3).cfg (startNodes 3).ctab 0 1 ≤ 32 ∧
    0 < entryLen (startNodes 3).cfg (startNodes 3).ctab 0 1 ∧
    (∃ k, walk (startNodes 3).arena ((entryBits (startNodes 3).cfg (startNodes 3).ctab 0 1).take 0) 0 = some k) ∧
    walk (startNodes 3).arena ((entryBits (startNodes 3).cfg (startNodes 3).ctab 0 1).take 1) 0 = none ∧
    (∀ w, ¬ leadsTo (startNodes 3).arena ((entryBits (startNodes 3).cfg (startNodes 3).ctab 0 1).take 0) w) ∧
    (startNodes 3).arena.length + (entryLen (startNodes 3).cfg (startNodes 3).ctab 0 1 - 0) ≤ (startNodes 3).cfg.nodeMax := by
  refine ⟨by decide, .empty (by decide), by decide, by decide, by decide, ⟨0, rfl⟩, by decide, ?_, by decide⟩
  rintro w ⟨k, nd, hw, hk, -, rfl, hu⟩
  cases hw
  cases hk
  exact hu rfl

/-- HtInsertRaisesEachTableError: tree1, and an entry for each of the first four errors; the fifth in an arena of 2. -/
theorem witness_insert_errors : cfg.wf ∧ ArenaWf cfg tree1 ∧ (3#16).toNat < cfg.tabEntries ∧
    (entryLen cfg (table 6 0 [(0, 0)] []) 0 0 < 1 ∧ 32 < entryLen cfg (table 6 0 [(33, 0)] []) 0 0) ∧
    leadsTo tree1 ((entryBits cfg (table 6 0 [(2, 0)] []) 0 0).take 1) 0#32 ∧
    (walk tree1 (entryBits cfg (table 6 0 [(1, 1)] []) 0 0) 0 = some 2 ∧
      (tree1[2]?).map Node.childless = some false) ∧
    leadsTo tree1 (entryBits cfg (table 6 0 [(1, 0)] []) 0 0) 0#32 ∧
    (walk [Node.empty] ((entryBits cfg (table 6 0 T1 []) 0 1).take 1) 0 = none ∧
      (cfgNodes 2).nodeMax < [Node.empty].length + (entryLen cfg (table 6 0 T1 []) 0 1 - 0)) :=
  ⟨cfg_wf, tree1_wf, by decide, by decide, leadsTo_of 1 { c0 := nil32, c1 := nil32, leaf := 0#32 } (by decide) rfl rfl (by decide),
    by decide, leadsTo_of 1 { c0 := nil32, c1 := nil32, leaf := 0#32 } (by decide) rfl rfl (by decide), by decide⟩

/-- HtBuildCompletesOnPrefixTables: T1, in an arena that its seven nodes fill (V19). -/
theorem witness_build : (cfgNodes 7).wf ∧ PrefixTable (cfgNodes 7) (table 6 0 T1 []) 0 4 ∧
    nodesNeeded (cfgNodes 7) (table 6 0 T1 []) 0 4 = (cfgNodes 7).nodeMax :=
  ⟨by decide, (build_ok (a := tree1) (by decide) (by decide)).2, by decide⟩

/-- HtBuildAcceptsOnlyPrefixTables. -/
theorem witness_accepts : (start [] T1).cfg.wf ∧ (start [] T1).err = false ∧
    ∃ u, exec (.htBuild 0) (start [] T1) = .next u ∧ (!u.err) = true := ⟨cfg_wf, rfl, gives_next (by decide)⟩

/-- An instance of two entries a table and three nodes. -/
def cfg2 : Config := { ibufBytes := 8, obufBytes := 8, tabEntries := 2, nodeMax := 3 }

/-- HtBuildNeedsASentinel: the codes 0 and 1 fill the table and the arena. -/
theorem witness_sentinel : cfg2.wf ∧ nodesNeeded cfg2 (table 2 0 [(1, 0), (1, 1)] []) 0 cfg2.tabEntries = cfg2.nodeMax ∧
    (∀ i, i < cfg2.tabEntries → 1 ≤ entryLen cfg2 (table 2 0 [(1, 0), (1, 1)] []) 0 i ∧
      entryLen cfg2 (table 2 0 [(1, 0), (1, 1)] []) 0 i ≤ 32) ∧
    (∀ i, i < cfg2.tabEntries → ∀ j, j < cfg2.tabEntries → i ≠ j →
      ¬ entryBits cfg2 (table 2 0 [(1, 0), (1, 1)] []) 0 i <+: entryBits cfg2 (table 2 0 [(1, 0), (1, 1)] []) 0 j) := by
  decide

/-- The entries of table 0 before entry `n` are a prefix code whose nodes fit the arena. -/
abbrev codeBefore (cfg : Config) (l : List (Nat × Nat)) (n : Nat) : Prop :=
  cfg.wf ∧ n < cfg.tabEntries ∧
  (∀ i, i < n → 1 ≤ entryLen cfg (table 6 0 l []) 0 i ∧ entryLen cfg (table 6 0 l []) 0 i ≤ 32) ∧
  (∀ i, i < n → ∀ j, j < n → i ≠ j → ¬ entryBits cfg (table 6 0 l []) 0 i <+: entryBits cfg (table 6 0 l []) 0 j) ∧
  nodesNeeded cfg (table 6 0 l []) 0 n ≤ cfg.nodeMax

/-- HtBuildRaisesTheFirstFailingEntry: entry 1 of length 33; the code 00 after 0; 1 after 10; 0 after 0; and T1 in an
arena that entry 0 fills. -/
theorem witness_build_errors :
    (codeBefore cfg [(1, 0), (33, 0)] 1 ∧ entryLen cfg (table 6 0 [(1, 0), (33, 0)] []) 0 1 = 33) ∧
    (codeBefore cfg [(1, 0), (2, 0)] 1 ∧ entryBits cfg (table 6 0 [(1, 0), (2, 0)] []) 0 0 = [false] ∧
      entryBits cfg (table 6 0 [(1, 0), (2, 0)] []) 0 1 = [false, false]) ∧
    (codeBefore cfg [(2, 2), (1, 1)] 1 ∧ entryBits cfg (table 6 0 [(2, 2), (1, 1)] []) 0 0 = [true, false] ∧
      entryBits cfg (table 6 0 [(2, 2), (1, 1)] []) 0 1 = [true]) ∧
    (codeBefore cfg [(1, 0), (1, 0)] 1 ∧
      entryBits cfg (table 6 0 [(1, 0), (1, 0)] []) 0 1 = entryBits cfg (table 6 0 [(1, 0), (1, 0)] []) 0 0) ∧
    codeBefore (cfgNodes 2) T1 1 ∧ entryBits cfg (table 6 0 T1 []) 0 0 = [false] ∧
      entryBits cfg (table 6 0 T1 []) 0 1 = [true, false] ∧
      (cfgNodes 2).nodeMax < nodesNeeded (cfgNodes 2) (table 6 0 T1 []) 0 2 :=
  ⟨by decide, by decide, by decide, by decide, by decide, by decide, by decide, by decide⟩

/-- HuffmanDecodeInvertsTheTable: T1, the code of entry 2 at the end of the window. -/
theorem witness_inverse : (start [0x06] T1).cfg.wf ∧ (start [0x06] T1).err = false ∧
    ∃ u, exec (.htBuild 0) (start [0x06] T1) = .next u ∧ u.err = false ∧
      windowInside { u with bpos := 5#32, blim := 8#32 } ∧ 2 < u.res.toNat ∧ 5 + entryLen cfg (table 6 0 T1 []) 0 2 ≤ 8 ∧
      streamList u.ibuf u.order 5 (entryLen cfg (table 6 0 T1 []) 0 2) = entryBits cfg (table 6 0 T1 []) 0 2 := by
  obtain ⟨u, hu, h⟩ := gives_next (f := fun t => decide (t.err = false ∧ t.cfg = cfg ∧ 2 < t.res.toNat ∧
      streamList t.ibuf t.order 5 (entryLen cfg (table 6 0 T1 []) 0 2) = entryBits cfg (table 6 0 T1 []) 0 2))
    (o := exec (.htBuild 0) (start [0x06] T1)) (by decide)
  obtain ⟨h1, h2, h3, h4⟩ := of_decide_eq_true h
  exact ⟨cfg_wf, rfl, u, hu, h1, by unfold windowInside; simp only [h2]; decide, h3, by decide, h4⟩

/-- HtDecodeFollowsTheStream: the code 111 at the end of the byte CF. -/
theorem witness_htDecode : ArenaWf cfg tree1 ∧ windowInside (reader [0xCF] .msb 5) ∧
    (reader [0xCF] .msb 5).bpos.toNat + 3 ≤ (reader [0xCF] .msb 5).blim.toNat ∧
    leadsTo tree1 (streamList (reader [0xCF] .msb 5).ibuf .msb 5 3) 3#32 :=
  ⟨tree1_wf, by unfold windowInside; decide, by decide,
    leadsTo_of 6 { c0 := nil32, c1 := nil32, leaf := 3#32 } (by decide) rfl rfl (by decide)⟩

/-- The tree of the incomplete code (1, 0b0), (2, 0b10) (R157). -/
def tree3 : List Node :=
  [{ c0 := 1#32, c1 := 2#32, leaf := undefinedLeaf }, { c0 := nil32, c1 := nil32, leaf := 0#32 },
   { c0 := 3#32, c1 := nil32, leaf := undefinedLeaf }, { c0 := nil32, c1 := nil32, leaf := 1#32 }]

theorem tree3_wf : ArenaWf cfg tree3 :=
  (build_ok (ctab := table 6 0 [(1, 0), (2, 2), (0, 0)] []) (t := 0) (n := 2) cfg_wf (by decide)).1.wf

/-- HtDecodeDecidesEveryStream: the empty tree; the byte C0 in tree3; the byte FF in tree1 from bit 6. -/
theorem witness_decides : ArenaWf cfg [Node.empty] ∧ ArenaWf cfg tree3 ∧ ArenaWf cfg tree1 ∧
    windowInside (reader [0xC0] .msb 0) ∧ 0 + 1 < (reader [0xC0] .msb 0).blim.toNat ∧
    walk tree3 (streamList (reader [0xC0] .msb 0).ibuf .msb 0 1) 0 = some 2 ∧
    ((tree3[2]?).map fun nd => nd.childless) = some false ∧
    ((tree3[2]?).map fun nd => nd.child (streamBit (reader [0xC0] .msb 0).ibuf 1 .msb)) = some nil32 ∧
    6 + 2 = (reader [0xFF] .msb 6).blim.toNat ∧
    walk tree1 (streamList (reader [0xFF] .msb 6).ibuf .msb 6 2) 0 = some 4 ∧
    ((tree1[4]?).map fun nd => nd.childless) = some false :=
  ⟨.empty (by decide), tree3_wf, tree1_wf, by unfold windowInside; decide, by decide, by decide, by decide, by decide,
    by decide, by decide, by decide⟩

/-! Planes -/

/-- PlAddrComputesThePlaneStarts: one set of registers for each clause, the last at the boundary. -/
theorem witness_plAddr : cfg.ibufBytes < (33#32 : Word).toNat ∧
    ((27#32 : Word).toNat ≤ cfg.ibufBytes ∧
      (27#32 : Word).toNat < (16#32 : Word).toNat + (4#32 : Word).toNat + (2#32 : Word).toNat + (6#32 : Word).toNat) ∧
    (28#32 : Word).toNat ≤ cfg.ibufBytes ∧
    (16#32 : Word).toNat + (4#32 : Word).toNat + (2#32 : Word).toNat + (6#32 : Word).toNat ≤ (28#32 : Word).toNat := by
  decide

/-- PlResidReadsASizedResidual: the bits 110 01 of CE, the window ending with them. -/
theorem witness_plResid : ArenaWf cfg tree1 ∧ windowInside { reader [0xCE] .msb 0 with blim := 5#32 } ∧
    leadsTo tree1 (streamList (reader [0xCE] .msb 0).ibuf .msb 0 3) 2#32 ∧ (2#32 : Word).toNat ≤ 16 ∧
    0 + 3 + (2#32 : Word).toNat ≤ (5#32 : Word).toNat :=
  ⟨tree1_wf, by unfold windowInside; decide,
    leadsTo_of 5 { c0 := nil32, c1 := nil32, leaf := 2#32 } (by decide) rfl rfl (by decide), by decide, by decide⟩

/-- An instance whose tables can hold symbol 17. -/
def cfg20 : Config := { cfg with tabEntries := 20 }

/-- The tree of the one code (1, 0b0) of symbol 17. -/
def tree17 : List Node :=
  [{ c0 := 1#32, c1 := nil32, leaf := undefinedLeaf }, { c0 := nil32, c1 := nil32, leaf := 17#32 }]

theorem tree17_wf : ArenaWf cfg20 tree17 :=
  (insert_ok (sym := 17#32) (len := 1#32) (code := 0#32) (a := [Node.empty]) (.empty (by decide)) (by decide) (by decide)
    (by decide) (by decide)).2.wf

/-- PlResidRaises: a descent that fails; category 17; the bits 110 of CE with one further bit. -/
theorem witness_plResid_raises :
    (∃ t, exec .htDecode { reader [0xFF] .msb 6 with arena := tree1 } = .next t ∧ t.err = true) ∧
    (ArenaWf cfg20 tree17 ∧ leadsTo tree17 (streamList (reader [0x00] .msb 0).ibuf .msb 0 1) 17#32 ∧
      16 < (17#32 : Word).toNat) ∧
    (ArenaWf cfg tree1 ∧ leadsTo tree1 (streamList (reader [0xCE] .msb 0).ibuf .msb 0 3) 2#32 ∧
      0 + 3 ≤ (4#32 : Word).toNat ∧ (4#32 : Word).toNat < 0 + 3 + (2#32 : Word).toNat) :=
  ⟨gives_next (by decide),
    ⟨tree17_wf, leadsTo_of 1 { c0 := nil32, c1 := nil32, leaf := 17#32 } (by decide) rfl rfl (by decide), by decide⟩,
    tree1_wf, leadsTo_of 5 { c0 := nil32, c1 := nil32, leaf := 2#32 } (by decide) rfl rfl (by decide), by decide, by decide⟩

/-- EveryResidualHasOneCoding: the largest category, and the ends of the range. -/
theorem witness_residual : (16 ≤ 16 ∧ 65535 < 2 ^ 16) ∧ ((-65535 : Int) ≤ -65535 ∧ (-65535 : Int) ≤ 65535) ∧
    ((-65535 : Int) ≤ 65535 ∧ (65535 : Int) ≤ 65535) := by decide

/-- PlaneChecksRaiseInOrder: each check failing by one, and a ready configuration that fails later. -/
theorem witness_checks : (start [] []).pavalid = false ∧
    ((plane [0] T0).pavalid = true ∧ (17#32 : Word).toNat < 6 * (plane [0] T0).cols.toNat) ∧
    (6 * (plane [0] T0).cols.toNat ≤ (65#32 : Word).toNat ∧ (plane [0] T0).cfg.obufBytes < (plane [0] T0).rows.toNat * (65#32 : Word).toNat) ∧
    planeReady (plane [0] [(8, 0), (0, 0)]) ∧ (plane [0] [(8, 0), (0, 0)]).err = false ∧
    ∃ t, exec (.plDecode 0) (plane [0] [(8, 0), (0, 0)]) = .next t ∧ t.err = true :=
  ⟨rfl, by decide, by decide, by unfold planeReady; decide, rfl, gives_next (by decide)⟩

/-- Three planes of zeros with table T0 each, and the seed of plane 2 as given. -/
def planes (seed2 : Half) : State :=
  { plane [0, 0, 0] T0 with
    ctab := table 6 2 T0 (table 6 1 T0 (table 6 0 T0 [])), seed := #v[512#16, 512#16, seed2]
    psize := #v[1#32, 1#32, 1#32], paddr := #v[0#32, 1#32, 2#32] }

/-- Whether a plane decodes. -/
def decodes (s : State) (p : Fin 3) : Bool :=
  match planeBody s p with
  | .ok _ => true
  | .raised _ => false
  | .fault _ => false

theorem decodes_ok {s : State} {p : Fin 3} (h : decodes s p = true) : ∃ out, planeBody s p = .ok out := by
  unfold decodes at h
  split at h
  · next out hb => exact ⟨out, hb⟩
  · cases h
  · cases h

/-- SeedMustBe512: plane 2 with the seed 511 after two planes that decode; and plane commands that complete. -/
theorem witness_seed : planeReady (planes 511#16) ∧ (planes 511#16).seed[2].toNat ≠ 512 ∧
    (∀ q : Fin 3, q < 2 → ∃ out, planeBody (planes 511#16) q = .ok out) ∧
    (∃ t, exec (.plDecode 0) (planes 512#16) = .next t ∧ (!t.err) = true) ∧
    ∃ t, exec .plDecodeAll (planes 512#16) = .next t ∧ (!t.err) = true :=
  ⟨by unfold planeReady; decide, by decide, fun q hq => decodes_ok (by revert q; decide), gives_next (by decide),
    gives_next (by decide)⟩

/-- The tree of T0. -/
def tree0 : List Node :=
  [{ c0 := 1#32, c1 := nil32, leaf := undefinedLeaf }, { c0 := nil32, c1 := nil32, leaf := 0#32 }]

/-- The run of plane `p` of `planes`: three zero residuals of one bit each. -/
theorem planes_run (p : Fin 3) : PlaneRun (planes 512#16) p tree0 3 (fun j => 8 * p.val + j) (fun _ => 0) (fun _ => 512) where
  tree := ⟨1, by revert p; decide⟩
  start := by revert p; decide
  residual := by revert p; decide
  value := by intro j _; split <;> rfl
  range := by intro j _; decide

/-- PlDecodeComputesThePlane. -/
theorem witness_plDecode : planeReady (planes 512#16) ∧ (planes 512#16).seed[2].toNat = 512 ∧ (planes 512#16).obuf.wf = true ∧
    PlaneRun (planes 512#16) 2 tree0 ((planes 512#16).rows.toNat * (planes 512#16).cols.toNat) (fun j => 8 * 2 + j)
      (fun _ => 0) (fun _ => 512) :=
  ⟨by unfold planeReady; decide, by decide, by decide, planes_run 2⟩

/-- PlDecodeAllComputesTheImage. -/
theorem witness_plDecodeAll : planeReady (planes 512#16) ∧ (∀ p : Fin 3, (planes 512#16).seed[p].toNat = 512) ∧
    (planes 512#16).obuf.wf = true ∧
    ∀ p : Fin 3, PlaneRun (planes 512#16) p tree0 ((planes 512#16).rows.toNat * (planes 512#16).cols.toNat)
      (fun j => 8 * p.val + j) (fun _ => 0) (fun _ => 512) :=
  ⟨by unfold planeReady; decide, by decide, by decide, planes_run⟩

/-- Table T4: eleven codes of four bits. -/
def T4 : List (Nat × Nat) :=
  [(4, 0), (4, 1), (4, 2), (4, 3), (4, 4), (4, 5), (4, 6), (4, 7), (4, 8), (4, 9), (4, 10), (0, 0)]

/-- One sample over the bytes A0 00 with T4 (V38): the residual −1023. -/
def overflow : State :=
  { plane [0xA0, 0x00] [] with
    cfg := cfg20, ctab := table 20 0 T4 [], cols := 1#16, stride := 6#32, psize := #v[2#32, 0#32, 0#32]
    paddr := #v[0#32, 2#32, 2#32] }

/-- The tree of T4. -/
def tree10 : List Node :=
  [{ c0 := 1#32, c1 := 16#32, leaf := undefinedLeaf },
   { c0 := 2#32, c1 := 9#32, leaf := undefinedLeaf },
   { c0 := 3#32, c1 := 6#32, leaf := undefinedLeaf },
   { c0 := 4#32, c1 := 5#32, leaf := undefinedLeaf },
   { c0 := nil32, c1 := nil32, leaf := 0#32 },
   { c0 := nil32, c1 := nil32, leaf := 1#32 },
   { c0 := 7#32, c1 := 8#32, leaf := undefinedLeaf },
   { c0 := nil32, c1 := nil32, leaf := 2#32 },
   { c0 := nil32, c1 := nil32, leaf := 3#32 },
   { c0 := 10#32, c1 := 13#32, leaf := undefinedLeaf },
   { c0 := 11#32, c1 := 12#32, leaf := undefinedLeaf },
   { c0 := nil32, c1 := nil32, leaf := 4#32 },
   { c0 := nil32, c1 := nil32, leaf := 5#32 },
   { c0 := 14#32, c1 := 15#32, leaf := undefinedLeaf },
   { c0 := nil32, c1 := nil32, leaf := 6#32 },
   { c0 := nil32, c1 := nil32, leaf := 7#32 },
   { c0 := 17#32, c1 := nil32, leaf := undefinedLeaf },
   { c0 := 18#32, c1 := 21#32, leaf := undefinedLeaf },
   { c0 := 19#32, c1 := 20#32, leaf := undefinedLeaf },
   { c0 := nil32, c1 := nil32, leaf := 8#32 },
   { c0 := nil32, c1 := nil32, leaf := 9#32 },
   { c0 := 22#32, c1 := nil32, leaf := undefinedLeaf },
   { c0 := nil32, c1 := nil32, leaf := 10#32 }]

/-- PlDecodeReportsTheFirstError: a table that does not build; a ninth sample of one bit in a plane of one byte; an
overflow. -/
theorem witness_first_error :
    (planeReady (plane [0] [(33, 0)]) ∧ (plane [0] [(33, 0)]).seed[0].toNat = 512 ∧
      ∃ e, build (plane [0] [(33, 0)]).cfg (plane [0] [(33, 0)]).ctab 0 = .raised e) ∧
    (PlaneRun { plane [0] T0 with cols := 9#16, stride := 54#32 } 0 tree0 8 (fun j => j) (fun _ => 0) (fun _ => 512) ∧
      ∃ e, resid cfg (plane [0] T0).ibuf tree0 8 .msb 8 = .raised e) ∧
    planeReady overflow ∧ 0 < overflow.rows.toNat * overflow.cols.toNat ∧
    PlaneRun overflow 0 tree10 0 (fun _ => 0) (fun _ => 0) (fun _ => 0) ∧
    resid overflow.cfg overflow.ibuf tree10 16 .msb 0 = .ok (-1023, 14) ∧ ((512 : Nat) : Int) + -1023 < 0 :=
  ⟨⟨by unfold planeReady; decide, by decide, raises_raised (by decide)⟩,
    ⟨⟨⟨1, by decide⟩, by decide, by decide, by intro j _; split <;> rfl, by intro j _; decide⟩, raises_raised (by decide)⟩,
    by unfold planeReady; decide, by decide,
    ⟨⟨11, by decide⟩, by decide, fun j hj => absurd hj (Nat.not_lt_zero j), fun j hj => absurd hj (Nat.not_lt_zero j),
      fun j hj => absurd hj (Nat.not_lt_zero j)⟩, by decide, by decide⟩

/-- PlDecodeFailsAtTheFirstBadSample: a bad seed, a bad table, a stream that ends at sample 8 of 9. -/
theorem witness_bad_sample :
    (planeReady (planes 511#16) ∧ (planes 511#16).err = false ∧
      ∃ t, exec (.plDecode 2) (planes 511#16) = .next t ∧ t.err = true) ∧
    (planeReady (plane [0] [(33, 0)]) ∧ ∃ t, exec (.plDecode 0) (plane [0] [(33, 0)]) = .next t ∧ t.err = true) ∧
    planeReady { plane [0] T0 with cols := 9#16, stride := 54#32 } ∧
      ∃ t, exec (.plDecode 0) { plane [0] T0 with cols := 9#16, stride := 54#32 } = .next t ∧
        (t.err && decide (t.record.col = 8#16)) = true :=
  ⟨⟨by unfold planeReady; decide, rfl, gives_next (f := State.err) (by decide)⟩,
    ⟨by unfold planeReady; decide, gives_next (f := State.err) (by decide)⟩,
    by unfold planeReady; decide, gives_next (by decide)⟩

/-- PlDecodeAllEqualsThreeDecodes: three planes that decode, and a plane 0 that fails. -/
theorem witness_three : (planes 512#16).err = false ∧
    (∃ t0, exec (.plDecode 0) (planes 512#16) = .next t0 ∧
      (!t0.err && gives (exec (.plDecode 1) t0) fun t1 =>
        !t1.err && gives (exec (.plDecode 2) t1) fun t2 => !t2.err) = true) ∧
    ∃ t0, exec (.plDecode 0) (plane [0] [(8, 0), (0, 0)]) = .next t0 ∧ t0.err = true :=
  ⟨rfl, gives_next (by decide), gives_next (by decide)⟩

/-- PlDecodeIsDeterministic, PlDecodeAllIsDeterministic: another tree, order and cursor before the command. -/
theorem witness_deterministic : (planes 512#16).err = false ∧ (planes 512#16).obuf.wf = true ∧
    ({ planes 512#16 with arena := tree1, order := .lsb, bpos := 3#32, blim := 8#32 } : State).cfg = (planes 512#16).cfg ∧
    ({ planes 512#16 with arena := tree1, order := .lsb, bpos := 3#32, blim := 8#32 } : State).ctab = (planes 512#16).ctab ∧
    ({ planes 512#16 with arena := tree1, order := .lsb, bpos := 3#32, blim := 8#32 } : State).ibuf = (planes 512#16).ibuf ∧
    (∃ t, exec (.plDecode 1) (planes 512#16) = .next t ∧ (!t.err) = true) ∧
    ∃ t, exec .plDecodeAll (planes 512#16) = .next t ∧ (!t.err) = true :=
  ⟨rfl, by decide, rfl, rfl, rfl, gives_next (by decide), gives_next (by decide)⟩

/-- ZeroResidualPlaneIsUniform. -/
theorem witness_uniform : (planes 512#16).cfg.wf ∧ 2 ≤ (planes 512#16).cfg.nodeMax ∧ planeReady (planes 512#16) ∧
    (planes 512#16).seed[0].toNat = 512 ∧ (planes 512#16).obuf.wf = true ∧
    entryLen (planes 512#16).cfg (planes 512#16).ctab 0 0 = 1 ∧
    (entryCode (planes 512#16).cfg (planes 512#16).ctab 0 0).getLsbD 0 = false ∧
    entryLen (planes 512#16).cfg (planes 512#16).ctab 0 1 = 0 ∧
    (planes 512#16).paddr[0].toNat + (planes 512#16).psize[0].toNat ≤ (planes 512#16).cfg.ibufBytes ∧
    (planes 512#16).rows.toNat * (planes 512#16).cols.toNat ≤ 8 * (planes 512#16).psize[0].toNat ∧
    ∀ k, k < (planes 512#16).rows.toNat * (planes 512#16).cols.toNat →
      streamBit (planes 512#16).ibuf (8 * (planes 512#16).paddr[0].toNat + k) .msb = false := by
  unfold planeReady; decide

/-! The invariant -/

/-- StepKeepsTheInvariant, EveryStepCompletes: an open window at its end, a tree with symbols, an error acknowledged. -/
def live : State :=
  { reader [0xCF] .lsb 8 with
    arena := tree1, record := { ErrorRecord.zero with cause := 3#8 }, host := [.write .reg 0 4 0x23000000#32] }

theorem witness_invariant : Inv live ∧ ∃ t, step live = .next t ∧ t.err = true := by
  refine ⟨?_, gives_next (by decide)⟩
  exact {
    params := by decide, cursor := by decide, limit := by unfold windowInside; decide, limitByte := by decide
    tree := tree1_wf, cause := .inr ⟨.truncatedStream, rfl, rfl⟩, context := by decide, planeNumber := by decide
    lostInFaulted := by decide, faultedCause := by decide, addressed := fun h => by cases h
    ibufForm := by decide, ctabForm := by decide, obufForm := by decide }

/-- PowerOnMeetsTheInvariant: contents at the last address of each memory. -/
theorem witness_powerOn : cfg.wf ∧
    (Memory.wf ([(31, 1#8)] : Memory 8) = true ∧ ∀ c ∈ ([(31, 1#8)] : Memory 8), c.1 < cfg.ibufBytes) ∧
    (Memory.wf ([(140, 1#32)] : Memory 32) = true ∧ ∀ c ∈ ([(140, 1#32)] : Memory 32), c.1 % 4 = 0 ∧ c.1 < 24 * cfg.tabEntries) ∧
    (Memory.wf ([(63, 1#8)] : Memory 8) = true ∧ ∀ c ∈ ([(63, 1#8)] : Memory 8), c.1 < cfg.obufBytes) := by decide

end Sys2Proof.Tests
end

section
/-! The registers of the port REG as a host writes and reads them (R37 to R39): which bits each register stores, which
writes clear PAVALID, and what a register reads as after a write of the same and of another register. -/

namespace Sys2Proof.Machine

/-! ### Offsets and registers -/

/-- The byte offset of a register (R38), the inverse of `Reg.ofOffset` (`Reg.ofOffset_eq_some_iff`). -/
def Reg.offset : Reg → Nat
  | .cmd => 0x00
  | .status => 0x04
  | .ctrl => 0x08
  | .ecause => 0x0C
  | .epos => 0x10
  | .eexp => 0x14
  | .efnd => 0x18
  | .eloc => 0x1C
  | .a0 => 0x20
  | .a1 => 0x24
  | .res => 0x28
  | .bpos => 0x2C
  | .blim => 0x30
  | .blen => 0x34
  | .ncount => 0x38
  | .cols => 0x3C
  | .rows => 0x40
  | .stride => 0x44
  | .pbase => 0x48
  | .seed p => 0x4C + 4 * p
  | .psize p => 0x58 + 4 * p
  | .paddr p => 0x64 + 4 * p
  | .id => 0x70

theorem Reg.ofOffset_offset (r : Reg) : Reg.ofOffset r.offset = some r := by
  cases r with
  | seed p => fin_cases p <;> rfl
  | psize p => fin_cases p <;> rfl
  | paddr p => fin_cases p <;> rfl
  | _ => rfl

theorem Reg.ofOffset_eq_some_iff {off : Nat} {r : Reg} : Reg.ofOffset off = some r ↔ off = r.offset := by
  constructor
  · intro h
    unfold Reg.ofOffset at h
    split at h <;> cases h <;> rfl
  · rintro rfl
    exact r.ofOffset_offset

/-- ID is the last register; every offset above it is reserved (R38). -/
theorem Reg.offset_le (r : Reg) : r.offset ≤ 0x70 := by
  cases r <;> simp only [Reg.offset] <;> omega

theorem Reg.ofOffset_reserved {off : Nat} (h : 0x74 ≤ off) : Reg.ofOffset off = none := by
  rw [Option.eq_none_iff_forall_ne_some]
  intro r hr
  have := Reg.ofOffset_eq_some_iff.1 hr
  have := r.offset_le
  omega

/-- The bits a host write stores in a register; none in CMD and the read-only registers (R38, R39). -/
def Reg.storedMask : Reg → Option Word
  | .ctrl => some 0x00000001#32
  | .a0 | .a1 | .blen | .stride | .pbase | .psize _ => some 0xFFFFFFFF#32
  | .cols | .rows | .seed _ => some 0x0000FFFF#32
  | _ => none

/-- Whether a host write of the register clears PAVALID (R37). -/
def Reg.dropsAddresses : Reg → Bool
  | .blen | .pbase | .psize _ => true
  | _ => false

theorem storedBits_offset (r : Reg) : storedBits r.offset = r.storedMask := by
  cases r with
  | seed p => fin_cases p <;> rfl
  | psize p => fin_cases p <;> rfl
  | paddr p => fin_cases p <;> rfl
  | _ => rfl

theorem clearsPavalid_offset (r : Reg) : clearsPavalid r.offset ↔ r.dropsAddresses = true := by
  cases r <;> simp [clearsPavalid, Reg.offset, Reg.dropsAddresses] <;> omega

/-- An offset with named bits is a register's. -/
theorem exists_reg_of_storedBits {off : Nat} {m : Word} (h : storedBits off = some m) :
    ∃ r : Reg, off = r.offset ∧ r.storedMask = some m := by
  have hr : ∃ r, Reg.ofOffset off = some r := by
    unfold storedBits at h
    split at h <;> cases h <;> exact ⟨_, rfl⟩
  obtain ⟨r, hr⟩ := hr
  obtain rfl := Reg.ofOffset_eq_some_iff.1 hr
  exact ⟨r, rfl, storedBits_offset r ▸ h⟩

/-! ### State.writeReg: one lemma per field -/

@[simp] theorem State.writeReg_cfg (s : State) (r : Reg) (v : Word) : (s.writeReg r v).cfg = s.cfg := by cases r <;> rfl
@[simp] theorem State.writeReg_err (s : State) (r : Reg) (v : Word) : (s.writeReg r v).err = s.err := by cases r <;> rfl
@[simp] theorem State.writeReg_lost (s : State) (r : Reg) (v : Word) : (s.writeReg r v).lost = s.lost := by cases r <;> rfl
@[simp] theorem State.writeReg_pavalid (s : State) (r : Reg) (v : Word) :
    (s.writeReg r v).pavalid = (s.pavalid && !r.dropsAddresses) := by
  cases r <;> simp [State.writeReg, Reg.dropsAddresses]
@[simp] theorem State.writeReg_order (s : State) (r : Reg) (v : Word) : (s.writeReg r v).order = s.order := by cases r <;> rfl
@[simp] theorem State.writeReg_eie (s : State) (r : Reg) (v : Word) :
    (s.writeReg r v).eie = if r = .ctrl then v.getLsbD 0 else s.eie := by cases r <;> rfl
@[simp] theorem State.writeReg_record (s : State) (r : Reg) (v : Word) : (s.writeReg r v).record = s.record := by
  cases r <;> rfl
@[simp] theorem State.writeReg_a0 (s : State) (r : Reg) (v : Word) :
    (s.writeReg r v).a0 = if r = .a0 then v else s.a0 := by cases r <;> rfl
@[simp] theorem State.writeReg_a1 (s : State) (r : Reg) (v : Word) :
    (s.writeReg r v).a1 = if r = .a1 then v else s.a1 := by cases r <;> rfl
@[simp] theorem State.writeReg_res (s : State) (r : Reg) (v : Word) : (s.writeReg r v).res = s.res := by cases r <;> rfl
@[simp] theorem State.writeReg_bpos (s : State) (r : Reg) (v : Word) : (s.writeReg r v).bpos = s.bpos := by cases r <;> rfl
@[simp] theorem State.writeReg_blim (s : State) (r : Reg) (v : Word) : (s.writeReg r v).blim = s.blim := by cases r <;> rfl
@[simp] theorem State.writeReg_blen (s : State) (r : Reg) (v : Word) :
    (s.writeReg r v).blen = if r = .blen then v else s.blen := by cases r <;> rfl
@[simp] theorem State.writeReg_cols (s : State) (r : Reg) (v : Word) :
    (s.writeReg r v).cols = if r = .cols then v.setWidth 16 else s.cols := by cases r <;> rfl
@[simp] theorem State.writeReg_rows (s : State) (r : Reg) (v : Word) :
    (s.writeReg r v).rows = if r = .rows then v.setWidth 16 else s.rows := by cases r <;> rfl
@[simp] theorem State.writeReg_stride (s : State) (r : Reg) (v : Word) :
    (s.writeReg r v).stride = if r = .stride then v else s.stride := by cases r <;> rfl
@[simp] theorem State.writeReg_pbase (s : State) (r : Reg) (v : Word) :
    (s.writeReg r v).pbase = if r = .pbase then v else s.pbase := by cases r <;> rfl
@[simp] theorem State.writeReg_seed (s : State) (r : Reg) (v : Word) (p : Nat) (hp : p < 3) :
    (s.writeReg r v).seed[p] = if r = .seed ⟨p, hp⟩ then v.setWidth 16 else s.seed[p] := by
  cases r with
  | seed q => simp [State.writeReg, Vector.getElem_set, Fin.ext_iff]
  | _ => rfl
@[simp] theorem State.writeReg_psize (s : State) (r : Reg) (v : Word) (p : Nat) (hp : p < 3) :
    (s.writeReg r v).psize[p] = if r = .psize ⟨p, hp⟩ then v else s.psize[p] := by
  cases r with
  | psize q => simp [State.writeReg, Vector.getElem_set, Fin.ext_iff]
  | _ => rfl
@[simp] theorem State.writeReg_paddr (s : State) (r : Reg) (v : Word) : (s.writeReg r v).paddr = s.paddr := by
  cases r <;> rfl
@[simp] theorem State.writeReg_ibuf (s : State) (r : Reg) (v : Word) : (s.writeReg r v).ibuf = s.ibuf := by cases r <;> rfl
@[simp] theorem State.writeReg_ctab (s : State) (r : Reg) (v : Word) : (s.writeReg r v).ctab = s.ctab := by cases r <;> rfl
@[simp] theorem State.writeReg_arena (s : State) (r : Reg) (v : Word) : (s.writeReg r v).arena = s.arena := by
  cases r <;> rfl
@[simp] theorem State.writeReg_obuf (s : State) (r : Reg) (v : Word) : (s.writeReg r v).obuf = s.obuf := by cases r <;> rfl
@[simp] theorem State.writeReg_host (s : State) (r : Reg) (v : Word) : (s.writeReg r v).host = s.host := by cases r <;> rfl
@[simp] theorem State.writeReg_bus (s : State) (r : Reg) (v : Word) : (s.writeReg r v).bus = s.bus := by cases r <;> rfl

/-! ### Reading a register back -/

variable {s : State} {r r' : Reg} {v m : Word}

theorem ctrl_word_eq_and (v : Word) : 0#31 ++ BitVec.ofBool (v.getLsbD 0) = v &&& 0x00000001#32 := by
  rw [BitVec.and_one_eq_setWidth_ofBool_getLsbD]
  cases v.getLsbD 0 <;> rfl

theorem half_word_eq_and (v : Word) : (v.setWidth 16).setWidth 32 = v &&& 0x0000FFFF#32 :=
  (BitVec.setWidth_eq_append (by decide)).trans (BitVec.and_setWidth_allOnes 16 16 v).symm

/-- A writable register reads back the named bits of what was written, its other bits 0 (R39). -/
theorem State.readReg_writeReg_same (h : r.storedMask = some m) : (s.writeReg r v).readReg r = v &&& m := by
  have word_eq_and : v = v &&& 0xFFFFFFFF#32 := BitVec.and_allOnes.symm
  cases r <;> cases h
  case ctrl => exact ctrl_word_eq_and v
  case cols | rows => exact half_word_eq_and v
  case seed p => simpa [State.readReg] using half_word_eq_and v
  case psize p => simpa [State.readReg] using word_eq_and
  all_goals exact word_eq_and

/-- A write of one register leaves every other as it reads, but for PAVALID in STATUS. -/
theorem State.readReg_writeReg_of_ne (hr : r ≠ r') (hs : r' ≠ .status) :
    (s.writeReg r v).readReg r' = s.readReg r' := by
  cases r' with
  | status => exact absurd rfl hs
  | _ => simp [State.readReg, State.ctrl, State.ncount, hr]

/-- PAVALID is bit 2 of STATUS (R41). -/
theorem status_word_clear_pavalid (o p l e : Bool) :
    0#28 ++ BitVec.ofBool o ++ BitVec.ofBool false ++ BitVec.ofBool l ++ BitVec.ofBool e =
      (0#28 ++ BitVec.ofBool o ++ BitVec.ofBool p ++ BitVec.ofBool l ++ BitVec.ofBool e) &&& 0xFFFFFFFB#32 := by
  revert o p l e; decide

theorem State.status_writeReg_of_drops (h : r.dropsAddresses = true) :
    (s.writeReg r v).status = s.status &&& 0xFFFFFFFB#32 := by
  simpa [State.status, h] using status_word_clear_pavalid (orderFlag s.order) s.pavalid s.lost s.err

theorem State.status_writeReg_of_keeps (h : r.dropsAddresses = false) : (s.writeReg r v).status = s.status := by
  simp [State.status, h]

/-- `writeReg` ignores a register that stores no bits (R39). -/
theorem State.writeReg_of_storedMask_none (h : r.storedMask = none) : s.writeReg r v = s := by
  cases r <;> cases h <;> rfl

/-! ### Host accesses of the port REG -/

theorem State.portRead_reg_offset (s : State) (r : Reg) (w : Nat) : s.portRead .reg r.offset w = s.readReg r := by
  simp only [State.portRead, r.ofOffset_offset]

theorem State.portRead_reg_of_none {off w : Nat} (h : Reg.ofOffset off = none) : s.portRead .reg off w = 0#32 := by
  simp only [State.portRead, h]

/-- No read of a port depends on the host's list or on the bus. -/
@[simp] theorem State.portRead_accept (s : State) (l : List HostAction) (port : Port) (off w : Nat) :
    (s.accept l).portRead port off w = s.portRead port off w := rfl

/-- A write of one register changes what no other offset reads as, but for STATUS at offset 4. -/
theorem State.portRead_writeReg_of_ne {off w : Nat} (hr : off ≠ r.offset) (hs : off ≠ 4) :
    (s.writeReg r v).portRead .reg off w = s.portRead .reg off w := by
  cases h : Reg.ofOffset off with
  | none => rw [portRead_reg_of_none h, portRead_reg_of_none h]
  | some r' =>
    obtain rfl := Reg.ofOffset_eq_some_iff.1 h
    rw [portRead_reg_offset, portRead_reg_offset]
    exact readReg_writeReg_of_ne (fun e => hr (e ▸ rfl)) (fun e => hs (e ▸ rfl))

/-- The port REG takes 4-byte accesses at the aligned offsets below 256 (R83, R88). -/
theorem accessOk_reg {cfg : Config} {off : Nat} (h4 : off % 4 = 0) (h256 : off < 256) :
    accessOk cfg .reg off 4 = true :=
  accessOk_iff.2 ⟨rfl, h4, by simp only [portBytes]; omega⟩

theorem step_read_reg {off : Nat} (h4 : off % 4 = 0) (h256 : off < 256) :
    step { s with host := .read .reg off 4 :: s.host } = .next { s with bus := .data (s.portRead .reg off 4) } :=
  (step_cons rfl).trans (perform_read (accessOk_reg h4 h256) rfl)

theorem step_write_reg {off : Nat} (h4 : off % 4 = 0) (h256 : off < 256) :
    step { s with host := .write .reg off 4 v :: s.host } = hostWrite .reg off 4 v (s.accept s.host) :=
  (step_cons rfl).trans (perform_write (accessOk_reg h4 h256) rfl)

theorem hostWrite_reg_offset {w : Nat} (h : r ≠ .cmd) : hostWrite .reg r.offset w v s = .next (s.writeReg r v) := by
  simp only [hostWrite, r.ofOffset_offset]

theorem hostWrite_reg_of_none {off w : Nat} (h : Reg.ofOffset off = none) : hostWrite .reg off w v s = .next s := by
  simp only [hostWrite, h]

/-- A write to a read-only register or a reserved offset is ignored (R39); CMD is at offset 0. -/
theorem hostWrite_reg_ignored {off w : Nat} (h : storedBits off = none) (h0 : off ≠ 0) :
    hostWrite .reg off w v s = .next s := by
  cases hr : Reg.ofOffset off with
  | none => exact hostWrite_reg_of_none hr
  | some r =>
    obtain rfl := Reg.ofOffset_eq_some_iff.1 hr
    have hcmd : r ≠ .cmd := by rintro rfl; exact h0 rfl
    rw [hostWrite_reg_offset hcmd, State.writeReg_of_storedMask_none (storedBits_offset r ▸ h)]

/-- Settles O19: an offset with named bits is a writable register, which reads them back while the other registers keep
what they read as; every other write is ignored. -/
theorem registerPortStoresTheNamedBits : Obligations.RegisterPortStoresTheNamedBits := by
  intro s off v h4 h256
  refine ⟨fun m hm => ?stores, fun hnone h0 => ?ignores, fun h0 => ?readsZero, step_read_reg h4 h256⟩
  case stores =>
    obtain ⟨r, rfl, hmask⟩ := exists_reg_of_storedBits hm
    have hcmd : r ≠ .cmd := by rintro rfl; cases hmask
    refine ⟨(s.accept s.host).writeReg r v, ?_, ?_, fun off' hr hs => ?_, fun hc => ?_, fun hc => ?_,
      by simp, by simp, by simp, by simp, by simp, by simp⟩
    · rw [step_write_reg h4 h256, hostWrite_reg_offset hcmd]
    · rw [State.portRead_reg_offset, State.readReg_writeReg_same hmask]
    · rw [State.portRead_writeReg_of_ne hr hs, State.portRead_accept]
    · exact State.status_writeReg_of_drops ((clearsPavalid_offset r).1 hc)
    · exact State.status_writeReg_of_keeps (Bool.eq_false_iff.2 fun h => hc ((clearsPavalid_offset r).2 h))
  case ignores =>
    rw [step_write_reg h4 h256, hostWrite_reg_ignored hnone h0]
    rfl
  case readsZero =>
    obtain rfl | hres := h0
    · rfl
    · exact State.portRead_reg_of_none (Reg.ofOffset_reserved hres)

end Sys2Proof.Machine
end

section
/-! The three conditions of an illegal command word (R116), each as the decoder's answer, and the error it raises. -/

namespace Sys2Proof

variable {tab : Nat} {cw : Word} {op : Opcode}

/-! ### The rows of R115 -/

theorem Opcode.mem_all (op : Opcode) : op ∈ Opcode.all := by
  cases op <;> decide

/-- The rows of R115 as the decoder has them: opcode, match, mask. -/
theorem commandRows_eq_map :
    Machine.commandRows = Opcode.all.map fun op => (op.code, op.pattern, op.format.mask) := by
  decide

theorem mem_commandRows {r : BitVec 8 × Word × Word} :
    r ∈ Machine.commandRows ↔ ∃ op : Opcode, r = (op.code, op.pattern, op.format.mask) := by
  simp [commandRows_eq_map, Opcode.mem_all, eq_comm]

/-! ### The three checks of R116 -/

theorem decode_of_unknownOpcode (h : ∀ op : Opcode, cw.extractLsb' 24 8 ≠ op.code) :
    decode tab cw = .illegal .unknownOpcode := by
  have hnone : Opcode.ofCode (cw.extractLsb' 24 8) = none :=
    Option.eq_none_iff_forall_ne_some.2 fun op hop => h op (Opcode.ofCode_eq_some.1 hop)
  simp only [decode, hnone]

theorem decode_of_reservedField (hc : cw.extractLsb' 24 8 = op.code) (hm : cw &&& op.format.mask ≠ op.pattern) :
    decode tab cw = .illegal .reservedField := by
  simp only [decode, Opcode.ofCode_eq_some.2 hc, hm, if_false]

theorem decode_of_badOperand (hc : cw.extractLsb' 24 8 = op.code) (hm : cw &&& op.format.mask = op.pattern)
    (ho : op.operands tab cw = none) : decode tab cw = .illegal .badOperand := by
  simp only [decode, Opcode.ofCode_eq_some.2 hc, hm, if_true, ho]

/-- The fields t and p have the one illegal value 3 (R113). -/
theorem planeField_eq_none_iff {f : BitVec 2} : planeField f = none ↔ f = 3#2 := by
  revert f; decide

/-- An opcode has no command for a word exactly when the word's operands are illegal (R113, R116). -/
theorem Opcode.operands_eq_none_iff (hc : cw.extractLsb' 24 8 = op.code) :
    op.operands tab cw = none ↔ Machine.operandIllegal tab cw := by
  unfold Machine.operandIllegal
  rw [hc]
  cases op with
  | htInsert => simp [operands, code, planeField_eq_none_iff, imp_iff_not_or, or_comm]
  | htBuild | plDecode => simp [operands, code, planeField_eq_none_iff]
  | _ => simp [operands, code]

end Sys2Proof

namespace Sys2Proof.Machine

variable {s : State} {cw : Word}

/-- An illegal word changes nothing but ERR and the error record: IllegalCommand, with the word in EFND (R116). -/
theorem step_issue_illegal {why : Illegal} (hs : s.err = false) (h : decode s.cfg.tabEntries cw = .illegal why) :
    step (s.issue cw) =
      .next (afterError { s with bus := .done } 9#8 (illegalCommand why cw).cause.sub 0 0 cw.toNat) := by
  have hrun : runCommand cw (s.accept s.host) = .next ((s.accept s.host).takeError (illegalCommand why cw)) := by
    simp [runCommand, State.accept, hs, h]
  rw [step_issue, hrun]
  cases why <;> rfl

/-- Settles O3: each clause is one answer of the decoder, and every illegal word raises by `step_issue_illegal`. -/
theorem illegalWordsRaiseTheFirstFailedCheck : Obligations.IllegalWordsRaiseTheFirstFailedCheck := by
  intro s cw hs
  refine ⟨fun hunknown => ?unknownOpcode, fun r hr hc => ?knownOpcode⟩
  case unknownOpcode =>
    exact step_issue_illegal hs (decode_of_unknownOpcode fun op => hunknown _ (mem_commandRows.2 ⟨op, rfl⟩))
  case knownOpcode =>
    obtain ⟨op, rfl⟩ := mem_commandRows.1 hr
    have hillegal := Opcode.operands_eq_none_iff (tab := s.cfg.tabEntries) hc
    refine ⟨fun hm => ?reservedField, fun hm hbad => ?badOperand, fun hm hgood => ?legal⟩
    case reservedField => exact step_issue_illegal hs (decode_of_reservedField hc hm)
    case badOperand => exact step_issue_illegal hs (decode_of_badOperand hc hm (hillegal.2 hbad))
    case legal =>
      obtain ⟨i, hi⟩ := Option.ne_none_iff_exists'.1 (mt hillegal.1 hgood)
      exact ⟨i, decode_ok_of op hc hm hi⟩

end Sys2Proof.Machine
end

section
/-! The bitstream commands (R130 to R136): every bit of the value a read gives, in both orders, and what each command
sets or raises. -/

namespace Sys2Proof.Machine

/-! ### The bits of a read (R130, R131) -/

section Bits

variable {ibuf : Memory 8} {order : BitOrder} {pos m i : Nat}

/-- MSB-first, bit 0 of the stream is the most significant bit of its byte. -/
theorem streamBit_msb (ibuf : Memory 8) (P : Nat) :
    streamBit ibuf P .msb = (ibuf.read (P / 8)).getLsbD (7 - P % 8) := by
  simp only [streamBit, Nat.shiftRight_eq_div_pow, Nat.and_two_pow_sub_one_eq_mod P 3, Nat.reducePow]

/-- LSB-first, bit 0 of the stream is the least significant bit of its byte. -/
theorem streamBit_lsb (ibuf : Memory 8) (P : Nat) :
    streamBit ibuf P .lsb = (ibuf.read (P / 8)).getLsbD (P % 8) := by
  simp only [streamBit, Nat.shiftRight_eq_div_pow, Nat.and_two_pow_sub_one_eq_mod P 3, Nat.reducePow]

/-- MSB-first, the bit with `j` more bits read after it is bit `j` of the value: each later bit moves it up by one. -/
theorem testBit_bitsMsb (ibuf : Memory 8) (pos i j : Nat) :
    (bitsMsb ibuf pos (i + j + 1)).testBit j = streamBit ibuf (pos + i) .msb := by
  induction j with
  | zero => rw [bitsMsb, Nat.testBit_or, Nat.testBit_bool_toNat]; simp
  | succ j ih => simpa [bitsMsb, Nat.testBit_or, Nat.testBit_bool_toNat] using ih

/-- LSB-first, the bit with `i` bits read before it is bit `i` of the value: no later bit moves it. -/
theorem testBit_bitsLsb (ibuf : Memory 8) (pos i j : Nat) :
    (bitsLsb ibuf pos (i + j + 1)).testBit i = streamBit ibuf (pos + i) .lsb := by
  induction j with
  | zero =>
    rw [bitsLsb, Nat.testBit_or, Nat.testBit_lt_two_pow (bitsLsb_lt ibuf pos i), Nat.testBit_shiftLeft,
      Nat.testBit_bool_toNat]
    simp
  | succ j ih =>
    have hold : ¬ i + j + 1 ≤ i := by omega
    rw [bitsLsb, ← Nat.add_assoc, Nat.testBit_or, ih, Nat.testBit_shiftLeft]
    simp [hold]

/-- The word that a read of `m + 1` bits leaves in RES. -/
def readWord (ibuf : Memory 8) (pos m : Nat) (order : BitOrder) : Word :=
  BitVec.ofNat 32 (streamBits ibuf (m + 1) pos order)

theorem readWord_getLsbD (h : i < 32) :
    (readWord ibuf pos m order).getLsbD i = (streamBits ibuf (m + 1) pos order).testBit i := by
  simp only [readWord, BitVec.getLsbD_ofNat, h, decide_true, Bool.true_and]

/-- A read is zero-extended. -/
theorem readWord_getLsbD_above (h : m < i) : (readWord ibuf pos m order).getLsbD i = false := by
  obtain hi | hi := Nat.lt_or_ge i 32
  · rw [readWord_getLsbD hi]
    exact Nat.testBit_lt_two_pow (streamBits_lt.trans_le (Nat.pow_le_pow_right (by decide) h))
  · exact BitVec.getLsbD_of_ge _ _ hi

/-- MSB-first, stream bit `i` of a read of `m + 1` bits is bit `m - i`. -/
theorem readWord_getLsbD_msb (ho : order = .msb) (hm : m < 32) (h : i ≤ m) :
    (readWord ibuf pos m order).getLsbD (m - i) = (ibuf.read ((pos + i) / 8)).getLsbD (7 - (pos + i) % 8) := by
  subst ho
  obtain ⟨j, rfl⟩ := Nat.exists_eq_add_of_le h
  rw [Nat.add_sub_cancel_left, readWord_getLsbD (by omega), ← streamBit_msb]
  exact testBit_bitsMsb ibuf pos i j

/-- LSB-first, stream bit `i` of a read of `m + 1` bits is bit `i`. -/
theorem readWord_getLsbD_lsb (ho : order = .lsb) (hm : m < 32) (h : i ≤ m) :
    (readWord ibuf pos m order).getLsbD i = (ibuf.read ((pos + i) / 8)).getLsbD ((pos + i) % 8) := by
  subst ho
  obtain ⟨j, rfl⟩ := Nat.exists_eq_add_of_le h
  rw [readWord_getLsbD (by omega), ← streamBit_lsb]
  exact testBit_bitsLsb ibuf pos i j

end Bits

/-! ### The words of BS.READ and BS.PEEK (R115, R119) -/

theorem encode_bsRead (nm1 : BitVec 5) : encode (.bsRead nm1) = 0x12000000#32 ||| nm1.setWidth 32 := by
  have hp : Opcode.pattern .bsRead = 0x12000000#32 := by decide
  rw [← hp]; rfl

theorem encode_bsPeek (nm1 : BitVec 5) : encode (.bsPeek nm1) = 0x13000000#32 ||| nm1.setWidth 32 := by
  have hp : Opcode.pattern .bsPeek = 0x13000000#32 := by decide
  rw [← hp]; rfl

/-! ### Where each command completes, and what it raises where it does not -/

section Commands

variable {s : State} {nm1 : BitVec 5} {o : BitOrder}

/-- A position that a register can hold is not reduced when it is stored. -/
theorem toNat_word_ofNat {k : Nat} (h : k < 2 ^ 32) : (BitVec.ofNat 32 k).toNat = k :=
  (BitVec.toNat_ofNat k 32).trans (Nat.mod_eq_of_lt h)

/-- An error without a plane leaves the record that the statements write out (R204). -/
theorem State.takeError_eq_afterError (s : State) (c : Cause) (pos exp fnd : Nat) :
    s.takeError { cause := c, pos := pos, exp := exp, fnd := fnd } = afterError s c.code c.sub pos exp fnd := rfl

theorem exec_bsRead_inside (hw : windowInside s) (h : s.bpos.toNat + (nm1.toNat + 1) ≤ s.blim.toNat) :
    exec (.bsRead nm1) s = .next { s with
      res := readWord s.ibuf s.bpos.toNat nm1.toNat s.order
      bpos := BitVec.ofNat 32 (s.bpos.toNat + (nm1.toNat + 1)) } :=
  exec_of_completes ⟨h, h.trans hw, rfl⟩

theorem exec_bsPeek_inside (hw : windowInside s) (h : s.bpos.toNat + (nm1.toNat + 1) ≤ s.blim.toNat) :
    exec (.bsPeek nm1) s = .next { s with res := readWord s.ibuf s.bpos.toNat nm1.toNat s.order } :=
  exec_of_completes ⟨h, h.trans hw, rfl⟩

theorem exec_bsRead_past (h : s.blim.toNat < s.bpos.toNat + (nm1.toNat + 1)) :
    exec (.bsRead nm1) s =
      .next (afterError s 3#8 0#8 s.bpos.toNat (nm1.toNat + 1) (s.blim.toNat - s.bpos.toNat)) := by
  simp only [exec, execBsRead, bitCount, readBits_past h, Result.bind_raised, finish_raised,
    State.takeError_eq_afterError, Cause.code, Cause.sub]

theorem exec_bsPeek_past (h : s.blim.toNat < s.bpos.toNat + (nm1.toNat + 1)) :
    exec (.bsPeek nm1) s =
      .next (afterError s 3#8 0#8 s.bpos.toNat (nm1.toNat + 1) (s.blim.toNat - s.bpos.toNat)) := by
  simp only [exec, execBsPeek, bitCount, readBits_past h, Result.bind_raised, finish_raised,
    State.takeError_eq_afterError, Cause.code, Cause.sub]

theorem exec_bsOpen_blenTooLarge (h : s.cfg.ibufBytes < s.blen.toNat) :
    exec (.bsOpen o) s = .next (afterError s 10#8 1#8 0 s.cfg.ibufBytes s.blen.toNat) := by
  simp only [exec, execBsOpen, h, if_true, finish_raised, State.takeError_eq_afterError, Cause.code, Cause.sub]

theorem exec_bsOpen_window (hb : s.blen.toNat ≤ s.cfg.ibufBytes) (h : s.blen.toNat < s.a0.toNat + s.a1.toNat) :
    exec (.bsOpen o) s = .next (afterError s 6#8 1#8 s.a0.toNat s.blen.toNat s.a1.toNat) := by
  simp only [exec, execBsOpen, hb.not_gt, h, if_true, if_false, finish_raised, State.takeError_eq_afterError,
    Cause.code, Cause.sub]

theorem exec_bsSeek_beyond (h : s.blim.toNat < 8 * s.a0.toNat) :
    exec .bsSeek s = .next (afterError s 6#8 2#8 s.bpos.toNat (s.blim.toNat / 8) s.a0.toNat) := by
  simp only [exec, execBsSeek, h, if_true, finish_raised, State.takeError_eq_afterError, Cause.code, Cause.sub,
    Nat.shiftRight_eq_div_pow, Nat.reducePow]

theorem exec_bsAtEnd (s : State) :
    exec .bsAtEnd s = .next { s with res := if s.bpos = s.blim then 1#32 else 0#32 } :=
  exec_of_completes rfl

end Commands

/-! ### The statements -/

/-- Settles O29: inside the window the read answers `readWord`, whose bits are the stream's; past it, it raises. -/
theorem bsReadReturnsTheStreamBits : Obligations.BsReadReturnsTheStreamBits := by
  intro s nm1 hw _
  refine ⟨encode_bsRead nm1, fun h => ?inside, exec_bsRead_past⟩
  case inside =>
    have hpos : s.bpos.toNat + (nm1.toNat + 1) < 2 ^ 32 := h.trans_lt s.blim.isLt
    exact ⟨_, _, exec_bsRead_inside hw h, toNat_word_ofNat hpos, fun _ => readWord_getLsbD_above,
      fun ho _ => readWord_getLsbD_msb ho nm1.isLt, fun ho _ => readWord_getLsbD_lsb ho nm1.isLt⟩

/-- Settles O30: BS.PEEK answers the same `readWord` as BS.READ, and raises where it raises. -/
theorem bsPeekReadsWithoutAdvancing : Obligations.BsPeekReadsWithoutAdvancing := by
  intro s nm1 hw _
  refine ⟨encode_bsPeek nm1, fun h => ?inside, exec_bsPeek_past⟩
  case inside =>
    exact ⟨_, exec_bsPeek_inside hw h, fun _ => readWord_getLsbD_above,
      fun ho _ => readWord_getLsbD_msb ho nm1.isLt, fun ho _ => readWord_getLsbD_lsb ho nm1.isLt,
      _, exec_bsRead_inside hw h, rfl⟩

/-- Settles O27: the two errors and the window; under the parameter constraints 8 × IBUF_BYTES is at most 2^31, so no
position wraps. -/
theorem bsOpenSetsTheWindowOrRaises : Obligations.BsOpenSetsTheWindowOrRaises := by
  intro s o
  refine ⟨by cases o <;> rfl, exec_bsOpen_blenTooLarge, exec_bsOpen_window, fun hb hsum => ?opens⟩
  case opens =>
    refine ⟨_, _, exec_of_completes ⟨hb, hsum, rfl⟩, fun hwf => ?_⟩
    obtain ⟨⟨-, hcap⟩, -⟩ := hwf
    exact ⟨toNat_word_ofNat (by omega), toNat_word_ofNat (by omega)⟩

/-- Settles O28: a target up to BLIM fits BPOS because BLIM is a register. -/
theorem bsSeekMovesTheCursorOrRaises : Obligations.BsSeekMovesTheCursorOrRaises := by
  refine ⟨rfl, fun s => ⟨exec_bsSeek_beyond, fun h => ⟨_, exec_of_completes ⟨h, rfl⟩, ?position⟩⟩⟩
  case position => exact toNat_word_ofNat (h.trans_lt s.blim.isLt)

/-- Settles O31: the two branches of R136. -/
theorem bsAtEndComparesTheCursor : Obligations.BsAtEndComparesTheCursor := by
  refine ⟨rfl, fun s => ⟨fun h => ?atEnd, fun h => ?elsewhere⟩⟩
  case atEnd => rw [exec_bsAtEnd, if_pos h]
  case elsewhere => rw [exec_bsAtEnd, if_neg h]

end Sys2Proof.Machine
end

section
/-! The plane commands up to the first sample (R173 to R175): the plane starts, the three checks, and the seed. -/

namespace Sys2Proof.Machine

variable {s t : State} {p : Fin 3} {e : Raise} {i : Instr}

/-! ### PL.ADDR (R173) -/

theorem exec_plAddr_blenTooLarge (h : s.cfg.ibufBytes < s.blen.toNat) :
    exec .plAddr s = .next (afterError s 10#8 1#8 0 s.cfg.ibufBytes s.blen.toNat) := by
  simp only [exec, execPlAddr, h, if_true, finish_raised, State.takeError_eq_afterError, Cause.code, Cause.sub]

theorem exec_plAddr_planes (hb : s.blen.toNat ≤ s.cfg.ibufBytes)
    (h : s.blen.toNat < s.pbase.toNat + s.psize[0].toNat + s.psize[1].toNat + s.psize[2].toNat) :
    exec .plAddr s = .next (afterError s 6#8 3#8 s.pbase.toNat s.blen.toNat
      (min (s.pbase.toNat + s.psize[0].toNat + s.psize[1].toNat + s.psize[2].toNat) (2 ^ 32 - 1))) := by
  simp only [exec, execPlAddr, hb.not_gt, h, if_true, if_false, finish_raised, State.takeError_eq_afterError,
    Cause.code, Cause.sub]

/-! ### PlaneChecks: one equation for each check that fails (R175) -/

theorem planeChecks_notAddressed (h : s.pavalid = false) :
    planeChecks s = .raised { cause := .planesNotAddressed, pos := 0, exp := 1, fnd := 0 } := by
  rw [planeChecks, if_pos h]

theorem planeChecks_strideTooSmall (hv : s.pavalid = true) (h : s.stride.toNat < 6 * s.cols.toNat) :
    planeChecks s =
      .raised { cause := .strideTooSmall, pos := 0, exp := 6 * s.cols.toNat, fnd := s.stride.toNat } := by
  rw [planeChecks, if_neg (by simp [hv]), if_pos h]

theorem planeChecks_obufOverflow (hv : s.pavalid = true) (hs : 6 * s.cols.toNat ≤ s.stride.toNat)
    (h : s.cfg.obufBytes < s.rows.toNat * s.stride.toNat) :
    planeChecks s = .raised { cause := .obufOverflow, pos := 0, exp := s.cfg.obufBytes,
                              fnd := min (s.rows.toNat * s.stride.toNat) (2 ^ 32 - 1) } := by
  rw [planeChecks, if_neg (by simp [hv]), if_neg hs.not_gt, if_pos h]

/-- What PlaneChecks raises ends either plane command. -/
theorem exec_of_planeChecks_raised (hi : i = .plDecodeAll ∨ ∃ p, i = .plDecode p) (h : planeChecks s = .raised e) :
    exec i s = .next (s.takeError e) := by
  obtain rfl | ⟨p, rfl⟩ := hi
  · simp only [exec, execPlDecodeAll, h, Result.bind_raised, finish_raised]
  · simp only [exec, execPlDecode, h, Result.bind_raised, finish_raised]

/-! ### The plane commands once the checks pass -/

theorem exec_plDecode_of_planeReady (hr : planeReady s) :
    exec (.plDecode p) s =
      finish s ((planeBody s p).bind fun out => .ok ((s.commit p out.samples).endPlane p out)) := by
  have hc : planeChecks s = .ok () := planeChecks_eq_ok.2 hr
  simp only [exec, execPlDecode, hc, Result.bind_ok]

theorem exec_plDecodeAll_of_planeReady (hr : planeReady s) :
    exec .plDecodeAll s =
      finish s ((planeBody s 0).bind fun out0 => (planeBody s 1).bind fun out1 => (planeBody s 2).bind fun out2 =>
        .ok ((((s.commit 0 out0.samples).commit 1 out1.samples).commit 2 out2.samples).endPlane 2 out2)) := by
  have hc : planeChecks s = .ok () := planeChecks_eq_ok.2 hr
  simp only [exec, execPlDecodeAll, hc, Result.bind_ok]

/-- An error in the body of its plane ends PL.DECODE. -/
theorem exec_plDecode_of_planeBody_raised (hr : planeReady s) (h : planeBody s p = .raised e) :
    exec (.plDecode p) s = .next (s.takeError e) := by
  rw [exec_plDecode_of_planeReady hr, h, Result.bind_raised, finish_raised]

/-- The first plane whose body raises ends PL.DECODEALL. -/
theorem exec_plDecodeAll_of_planeBody_raised (hr : planeReady s)
    (hbefore : ∀ q : Fin 3, q < p → ∃ out, planeBody s q = .ok out) (h : planeBody s p = .raised e) :
    exec .plDecodeAll s = .next (s.takeError e) := by
  rw [exec_plDecodeAll_of_planeReady hr]
  match p with
  | 0 => simp only [h, Result.bind_raised, finish_raised]
  | 1 =>
    obtain ⟨out0, h0⟩ := hbefore 0 (by decide)
    simp only [h0, h, Result.bind_ok, Result.bind_raised, finish_raised]
  | 2 =>
    obtain ⟨out0, h0⟩ := hbefore 0 (by decide)
    obtain ⟨out1, h1⟩ := hbefore 1 (by decide)
    simp only [h0, h1, h, Result.bind_ok, Result.bind_raised, finish_raised]

/-- Past the checks, a plane command completes or takes the error of a plane's body. -/
theorem exec_next_of_planeReady (hi : i = .plDecodeAll ∨ ∃ p, i = .plDecode p) (hr : planeReady s)
    (h : exec i s = .next t) : Completes s t i ∨ ∃ p e, planeBody s p = .raised e ∧ t = s.takeError e := by
  obtain rfl | ⟨p, rfl⟩ := hi
  · rw [exec_plDecodeAll_of_planeReady hr] at h
    obtain h | ⟨e, hraised, rfl⟩ := finish_eq_next.1 h
    · obtain ⟨out0, h0, h⟩ := Result.bind_eq_ok.1 h
      obtain ⟨out1, h1, h⟩ := Result.bind_eq_ok.1 h
      obtain ⟨out2, h2, h⟩ := Result.bind_eq_ok.1 h
      exact .inl ⟨hr, out0, out1, out2, h0, h1, h2, (Result.ok.inj h).symm⟩
    · obtain hraised | ⟨out0, -, hraised⟩ := Result.bind_eq_raised.1 hraised
      · exact .inr ⟨0, e, hraised, rfl⟩
      obtain hraised | ⟨out1, -, hraised⟩ := Result.bind_eq_raised.1 hraised
      · exact .inr ⟨1, e, hraised, rfl⟩
      obtain hraised | ⟨out2, -, hraised⟩ := Result.bind_eq_raised.1 hraised
      · exact .inr ⟨2, e, hraised, rfl⟩
      cases hraised
  · rw [exec_plDecode_of_planeReady hr] at h
    obtain h | ⟨e, hraised, rfl⟩ := finish_eq_next.1 h
    · obtain ⟨out, ho, h⟩ := Result.bind_eq_ok.1 h
      exact .inl ⟨hr, out, ho, (Result.ok.inj h).symm⟩
    · obtain hraised | ⟨out, -, hraised⟩ := Result.bind_eq_raised.1 hraised
      · exact .inr ⟨p, e, hraised, rfl⟩
      cases hraised

/-- A command that leaves ERR clear has completed. -/
theorem completes_of_err_false (h : exec i s = .next t) (ht : t.err = false) : Completes s t i := by
  obtain hc | ⟨e, -, rfl⟩ := exec_next h
  · exact hc
  · cases ht

/-! ### The seed check (R174) -/

/-- The seed check comes before the table and the samples, so its error has a plane but no sample. -/
theorem planeBody_badSeed (h : s.seed[p].toNat ≠ 512) :
    planeBody s p = .raised (Raise.inPlane p
      { cause := .badSeed, pos := s.planeStart p, exp := seedRequired, fnd := s.seed[p].toNat }) := by
  rw [planeBody, if_pos h, Result.mapRaise_raised]

/-! ### The statements -/

/-- Settles O42: no plane start wraps, because none is beyond the sum that BLEN bounds and BLEN is a register. -/
theorem plAddrComputesThePlaneStarts : Obligations.PlAddrComputesThePlaneStarts := by
  refine ⟨rfl, fun s => ⟨exec_plAddr_blenTooLarge, exec_plAddr_planes, fun hb hsum => ?starts⟩⟩
  case starts =>
    have hblen : s.blen.toNat < 2 ^ 32 := s.blen.isLt
    exact ⟨_, exec_of_completes ⟨hb, hsum, rfl⟩, toNat_word_ofNat (by omega), toNat_word_ofNat (by omega),
      toNat_word_ofNat (by omega)⟩

/-- Settles O46: the checks' own errors end the command; past them only a plane's body raises, and none of its errors is
IllegalConfig. -/
theorem planeChecksRaiseInOrder : Obligations.PlaneChecksRaiseInOrder := by
  intro s i hi
  refine ⟨fun hv => exec_of_planeChecks_raised hi (planeChecks_notAddressed hv),
    fun hv hs => exec_of_planeChecks_raised hi (planeChecks_strideTooSmall hv hs),
    fun hv hs ho => exec_of_planeChecks_raised hi (planeChecks_obufOverflow hv hs ho),
    fun hr t hexec hs ht => ?pastTheChecks⟩
  case pastTheChecks =>
    obtain hc | ⟨p, e, hraised, rfl⟩ := exec_next_of_planeReady hi hr hexec
    · exact absurd (hc.err ht) (by simp [hs])
    · obtain ⟨-, -, hcode, -⟩ := planeBody_raised hraised
      show e.cause.code ≠ 10#8
      rcases hcode with hcode | hcode | hcode <;> rw [hcode] <;> decide

/-- Settles O47: the seed check is the first step of a plane's body, so another seed is that body's error, and a command
that completes ran only bodies whose seed is 512. -/
theorem seedMustBe512 : Obligations.SeedMustBe512 := by
  intro s hr
  refine ⟨fun p hseed => exec_plDecode_of_planeBody_raised hr (planeBody_badSeed hseed),
    fun p hseed hbefore => exec_plDecodeAll_of_planeBody_raised hr hbefore (planeBody_badSeed hseed),
    fun p t _ hexec ht => ?decode, fun t _ hexec ht => ?decodeAll⟩
  case decode =>
    obtain ⟨-, out, hbody, rfl⟩ := completes_of_err_false hexec ht
    exact ⟨(planeBody_eq_ok.1 hbody).1, by simp only [State.endPlane_seed, State.commit_seed]⟩
  case decodeAll =>
    obtain ⟨-, out0, out1, out2, h0, h1, h2, rfl⟩ := completes_of_err_false hexec ht
    refine ⟨fun p => ?_, by simp only [State.endPlane_seed, State.commit_seed]⟩
    match p with
    | 0 => exact (planeBody_eq_ok.1 h0).1
    | 1 => exact (planeBody_eq_ok.1 h1).1
    | 2 => exact (planeBody_eq_ok.1 h2).1

end Sys2Proof.Machine
end

section
/-! The return from an error by ERR.ACK (R191, R208). -/

namespace Sys2Proof.Machine

/-- ERR.ACK has no condition: from every state it completes, with the two flags of R191 cleared. -/
theorem exec_errAck (s : State) : exec .errAck s = .next { s with err := false, lost := false } :=
  exec_of_completes (show Completes s s.ackError .errAck from rfl)

/-- Settles O14: the word is the opcode 0x01 with no operand fields, and the next state is that of `exec_errAck`. -/
theorem errAckClearsErrAndLost : Obligations.ErrAckClearsErrAndLost :=
  ⟨rfl, exec_errAck⟩

end Sys2Proof.Machine
end

section
/-! Commands dropped in FAULTED (R207). -/

namespace Sys2Proof.Machine

variable {s : State} {cw : Word}

/-- The drop comes before the decoder: no hypothesis says whether the word is legal. -/
theorem runCommand_of_faulted (hs : s.err = true) (hack : cw ≠ 0x01000000#32) (hreset : cw ≠ 0x02000000#32) :
    runCommand cw s = .next s.dropCommand := by
  rw [runCommand, if_pos hs, if_neg hack, if_neg hreset]

/-- Settles O6: the unit that took the word off the host's list is still in FAULTED, so it drops the word; what it
took and answered is `State.accept`'s list and `done`. -/
theorem faultedUnitDropsCommands : Obligations.FaultedUnitDropsCommands := by
  intro s cw hs hack hreset
  have hfaulted : (s.accept s.host).err = true := (s.accept_err s.host).trans hs
  calc step (s.issue cw)
      = runCommand cw (s.accept s.host) := step_issue
    _ = .next (s.accept s.host).dropCommand := runCommand_of_faulted hfaulted hack hreset
    _ = .next { s with lost := true, bus := .done } := rfl

end Sys2Proof.Machine
end

section
/-! The round trip between commands and their words (R111 to R113, R119): the fields of a command are read back from its
word, and a word that decodes holds nothing but its opcode and the fields of its command. -/

namespace Sys2Proof

variable {tab : Nat} {cw : Word} {op : Opcode} {i : Instr}

/-! ### The fields of a word -/

theorem orderField_bit (o : BitOrder) : orderField o.bit = o := by
  cases o <;> decide

/-- The field o is one bit, so its order encodes to it (R111). -/
theorem bit_orderField (f : BitVec 1) : (orderField f).bit = f := by
  revert f; decide

theorem planeField_ofNat (t : Fin 3) : planeField (BitVec.ofNat 2 t.val) = some t := by
  revert t; decide

/-- A legal field t or p is the two bits of its plane (R113). -/
theorem planeField_eq_some {f : BitVec 2} {t : Fin 3} (h : planeField f = some t) : f = BitVec.ofNat 2 t.val := by
  revert f t; decide

/-- A plane number as a field of two bits and as a word (R113). -/
theorem setWidth_plane (t : Fin 3) : (BitVec.ofNat 2 t.val).setWidth 32 = BitVec.ofNat 32 t.val := by
  revert t; decide

theorem pattern_getLsbD (op : Opcode) : ∀ j, j < 24 → op.pattern.getLsbD j = false := by
  cases op <;> decide

/-- Below bit 24 the word of a command holds its fields and nothing else (R111, R119). -/
theorem extractLsb'_encode {k n : Nat} (i : Instr) (h : k + n ≤ 24) :
    (encode i).extractLsb' k n = i.fields.extractLsb' k n := by
  ext j hj
  simp [encode, pattern_getLsbD i.opcode (k + j) (by omega)]

/-- A field in the low bits of a word is read back from it. -/
theorem extractLsb'_setWidth_field {n : Nat} (f : BitVec n) (h : n ≤ 32) : (f.setWidth 32).extractLsb' 0 n = f := by
  ext j hj
  simp [BitVec.getLsbD_eq_getElem hj, show j < 32 by omega]

theorem extractLsb'_fields_htInsert_idx (t : Fin 3) (idx : BitVec 16) :
    (Instr.htInsert t idx).fields.extractLsb' 0 16 = idx := by
  ext j hj
  have hword : j < 32 := by omega
  simp [Instr.fields, hj, hword]

theorem extractLsb'_fields_htInsert_t (t : Fin 3) (idx : BitVec 16) :
    (Instr.htInsert t idx).fields.extractLsb' 16 2 = BitVec.ofNat 2 t.val := by
  rw [Instr.fields, ← setWidth_plane]
  generalize BitVec.ofNat 2 t.val = f
  ext j hj
  have hword : 16 + j < 32 := by omega
  simp [hword, hj]

/-- From the word of a legal command the decoder reads that command (R113). -/
theorem operands_encode (h : i.wellFormed tab = true) : i.opcode.operands tab (encode i) = some i := by
  cases i with
  | bsOpen o => cases o <;> rfl
  | bsRead nm1 | bsPeek nm1 =>
    simp only [Instr.opcode, Opcode.operands]
    rw [extractLsb'_encode _ (by decide), Instr.fields, extractLsb'_setWidth_field nm1 (by decide)]
  | htInsert t idx =>
    have hidx : idx.toNat < tab := of_decide_eq_true h
    simp only [Instr.opcode, Opcode.operands]
    rw [extractLsb'_encode _ (by decide), extractLsb'_encode _ (by decide), extractLsb'_fields_htInsert_idx,
      extractLsb'_fields_htInsert_t, planeField_ofNat, if_pos hidx, Option.map_some]
  | htBuild t | plDecode t =>
    simp only [Instr.opcode, Opcode.operands]
    rw [extractLsb'_encode _ (by decide), Instr.fields, ← setWidth_plane, extractLsb'_setWidth_field _ (by decide),
      planeField_ofNat, Option.map_some]
  | _ => rfl

/-! ### The word of a command that was decoded -/

/-- A word is what its format fixes and what it leaves free. -/
theorem and_or_and_not (w m : Word) : (w &&& m) ||| (w &&& ~~~m) = w := by
  ext j hj
  by_cases hm : m[j] <;> simp [hm]

/-- The bits that a format leaves free are the low `n` bits of the word. -/
theorem and_not_eq_setWidth {m : Word} {n : Nat} (hm : ~~~m = (BitVec.allOnes n).setWidth 32) :
    cw &&& ~~~m = (cw.extractLsb' 0 n).setWidth 32 := by
  rw [hm]
  ext j hj
  by_cases hn : j < n <;> simp [hj, hn]

/-- The field t above the field idx (R111). -/
theorem fields_htInsert_extract (cw : Word) :
    ((cw.extractLsb' 16 2).setWidth 32 <<< 16) ||| (cw.extractLsb' 0 16).setWidth 32 =
      (cw.extractLsb' 0 18).setWidth 32 := by
  ext j hj
  by_cases h16 : j < 16
  · have h18 : j < 18 := by omega
    simp [hj, h16, h18]
  · by_cases h18 : j < 18
    · have h2 : j - 16 < 2 := by omega
      have hsum : 16 + (j - 16) = j := by omega
      simp [hj, h16, h18, h2, hsum]
    · have h2 : ¬ j - 16 < 2 := by omega
      simp [h16, h18, h2]

/-- A command that the decoder reads has the opcode of its row, holds every bit that the row's format leaves free, and
is legal (R111, R113). -/
theorem operands_eq_some (h : op.operands tab cw = some i) :
    i.opcode = op ∧ i.fields = cw &&& ~~~op.format.mask ∧ i.wellFormed tab = true := by
  have hz : cw &&& ~~~Format.z.mask = 0#32 := by
    rw [show ~~~Format.z.mask = 0#32 by decide, BitVec.and_zero]
  cases op with
  | bsOpen =>
    obtain rfl := Option.some.inj h
    have hbit : (Instr.bsOpen (orderField (cw.extractLsb' 0 1))).fields = (cw.extractLsb' 0 1).setWidth 32 := by
      rw [Instr.fields, bit_orderField]
    exact ⟨rfl, hbit.trans (and_not_eq_setWidth (m := Format.o.mask) (by decide)).symm, rfl⟩
  | bsRead | bsPeek =>
    obtain rfl := Option.some.inj h
    exact ⟨rfl, (and_not_eq_setWidth (m := Format.n.mask) (by decide)).symm, rfl⟩
  | htInsert =>
    simp only [Opcode.operands] at h
    split at h
    · next hidx =>
      obtain ⟨t, ht, rfl⟩ := Option.map_eq_some_iff.1 h
      have hfields : (Instr.htInsert t (cw.extractLsb' 0 16)).fields = (cw.extractLsb' 0 18).setWidth 32 := by
        rw [Instr.fields, ← setWidth_plane, ← planeField_eq_some ht, fields_htInsert_extract]
      exact ⟨rfl, hfields.trans (and_not_eq_setWidth (m := Format.i.mask) (by decide)).symm, decide_eq_true hidx⟩
    · cases h
  | htBuild | plDecode =>
    obtain ⟨t, ht, rfl⟩ := Option.map_eq_some_iff.1 h
    refine ⟨rfl, ?_, rfl⟩
    rw [Instr.fields, ← setWidth_plane, ← planeField_eq_some ht]
    exact (and_not_eq_setWidth (m := Format.t.mask) (by decide)).symm
  | _ =>
    obtain rfl := Option.some.inj h
    exact ⟨rfl, hz.symm, rfl⟩

/-- A word that decodes is the word of its command, which is legal. -/
theorem encode_of_decode (h : decode tab cw = .ok i) : encode i = cw ∧ i.wellFormed tab = true := by
  obtain ⟨op, -, hmask, hop⟩ := decode_eq_ok.1 h
  obtain ⟨rfl, hfields, hwf⟩ := operands_eq_some hop
  exact ⟨by rw [encode, hfields, ← hmask, and_or_and_not], hwf⟩

/-- Settles O1: the word of a command matches its row, and its operands are read back from it. -/
theorem encodeThenDecodeGivesTheCommand : Obligations.EncodeThenDecodeGivesTheCommand :=
  fun _ i h => decode_ok_of i.opcode (encode_opcode i) (encode_and_mask i) (operands_encode h)

/-- Settles O2: the row's match fixes the bits under its mask, and the operands hold all the others. -/
theorem decodedWordIsTheEncoding : Obligations.DecodedWordIsTheEncoding :=
  fun _ _ _ => encode_of_decode

/-- Settles O4: each word is that of a legal command, so the round trip of O1 gives the command. -/
theorem writtenOutWordsDecode : Obligations.WrittenOutWordsDecode := by
  have decoded : ∀ (i : Instr) (cw : Word), i.wellFormed 1025 = true → encode i = cw → decode 1025 cw = .ok i := by
    rintro i _ hwf rfl
    exact encodeThenDecodeGivesTheCommand 1025 i hwf
  exact ⟨decoded _ _ (by decide) (by decide), decoded _ _ (by decide) (by decide), decoded _ _ rfl (by decide),
    decoded _ _ rfl (by decide), decoded _ _ rfl (by decide), decoded _ _ rfl (by decide)⟩

end Sys2Proof
end

section
/-! What a command leaves unchanged (R32, R36, R37, R42, R43, R49 to R60), said once for all 16, and what an error
changes (R204, R205, R217). -/

namespace Sys2Proof.Machine

variable {s t : State} {i : Instr} {p : Fin 3} {out : PlaneOut} {e : Raise}

/-! ### The samples of a plane and the bytes they take -/

/-- PlaneBody stages ROWS rows of COLS samples (R176). -/
theorem planeBody_shape (h : planeBody s p = .ok out) :
    out.samples.length = s.rows.toNat ∧ ∀ r ∈ out.samples, r.length = s.cols.toNat := by
  obtain ⟨-, -, -, hrows⟩ := planeBody_eq_ok.1 h
  exact decodeRows_shape hrows

/-- Publishing a plane changes no byte but those of its samples (R178). -/
theorem commitRows_read_of_not_sampleByte (h : planeBody s p = .ok out) {a : Nat} (ha : ¬ sampleByte s p a)
    (obuf : Memory 8) : (commitRows s.stride.toNat p 0 out.samples obuf).read a = obuf.read a := by
  obtain ⟨hlen, hcols⟩ := planeBody_shape h
  refine commitRows_out hcols fun row col hrow hcol => ?_
  rw [Nat.zero_add]
  exact ⟨fun e => ha ⟨row, col, hlen ▸ hrow, hcol, .inl e⟩, fun e => ha ⟨row, col, hlen ▸ hrow, hcol, .inr e⟩⟩

/-! ### The frame of every command -/

/-- What command `i` keeps from `s` to `t`. -/
structure CommandFrame (i : Instr) (s t : State) : Prop where
  cfg : t.cfg = s.cfg
  ibuf : t.ibuf = s.ibuf
  ctab : t.ctab = s.ctab
  host : t.host = s.host
  bus : t.bus = s.bus
  hostRegisters : i ≠ .reset →
    t.eie = s.eie ∧ t.a0 = s.a0 ∧ t.a1 = s.a1 ∧ t.blen = s.blen ∧ t.cols = s.cols ∧ t.rows = s.rows ∧
    t.stride = s.stride ∧ t.pbase = s.pbase ∧ t.seed = s.seed ∧ t.psize = s.psize
  addresses : i ≠ .reset → i ≠ .plAddr → t.pavalid = s.pavalid ∧ t.paddr = s.paddr
  flags : i ≠ .reset → i ≠ .errAck → t.lost = s.lost ∧ (s.err = true → t.err = true)
  record : i ≠ .reset → t.record ≠ s.record → t.err = true
  res : (∀ n, i ≠ .bsRead n) → (∀ n, i ≠ .bsPeek n) → i ≠ .bsAtEnd → (∀ k, i ≠ .htBuild k) → i ≠ .htDecode →
    i ≠ .plResid → i ≠ .reset → t.res = s.res
  bpos : (∀ o, i ≠ .bsOpen o) → i ≠ .bsSeek → (∀ n, i ≠ .bsRead n) → i ≠ .htDecode → i ≠ .plResid →
    (∀ p, i ≠ .plDecode p) → i ≠ .plDecodeAll → i ≠ .reset → t.bpos = s.bpos
  window : (∀ o, i ≠ .bsOpen o) → (∀ p, i ≠ .plDecode p) → i ≠ .plDecodeAll → i ≠ .reset →
    t.blim = s.blim ∧ t.order = s.order
  arena : i ≠ .htClear → (∀ k n, i ≠ .htInsert k n) → (∀ k, i ≠ .htBuild k) → (∀ p, i ≠ .plDecode p) →
    i ≠ .plDecodeAll → i ≠ .reset → t.arena = s.arena
  samples : ∀ a, (∀ p, i = .plDecode p ∨ i = .plDecodeAll → ¬ sampleByte s p a) → t.obuf.read a = s.obuf.read a
  obuf : (∀ p, i ≠ .plDecode p) → i ≠ .plDecodeAll → t.obuf = s.obuf

/-- An error keeps everything but ERR and the record (R204). -/
theorem CommandFrame.takeError (i : Instr) (s : State) (e : Raise) : CommandFrame i s (s.takeError e) := by
  constructor <;> simp

/-- A command that completes writes its own state only. -/
theorem Completes.frame (h : Completes s t i) : CommandFrame i s t := by
  cases i <;> simp only [Completes] at h
  case nop | errAck | reset | bsAtEnd | htClear => subst h; constructor <;> simp
  case bsOpen => obtain ⟨-, -, rfl⟩ := h; constructor <;> simp
  case bsSeek => obtain ⟨-, rfl⟩ := h; constructor <;> simp
  case bsRead | bsPeek | plAddr => obtain ⟨-, -, rfl⟩ := h; constructor <;> simp
  case htInsert => obtain ⟨-, a, -, rfl⟩ := h; constructor <;> simp
  case htBuild | htDecode | plResid => obtain ⟨a, n, -, rfl⟩ := h; constructor <;> simp
  case plDecode p =>
    obtain ⟨-, out, hbody, rfl⟩ := h
    constructor
    case samples => exact fun a ha => commitRows_read_of_not_sampleByte hbody (ha p (.inl rfl)) _
    all_goals simp
  case plDecodeAll =>
    obtain ⟨-, out0, out1, out2, h0, h1, h2, rfl⟩ := h
    constructor
    case samples =>
      intro a ha
      simp only [State.endPlane_obuf, State.commit_obuf, State.commit_stride]
      rw [commitRows_read_of_not_sampleByte h2 (ha 2 (.inr rfl)), commitRows_read_of_not_sampleByte h1 (ha 1 (.inr rfl)),
        commitRows_read_of_not_sampleByte h0 (ha 0 (.inr rfl))]
    all_goals simp

theorem exec_frame (h : exec i s = .next t) : CommandFrame i s t := by
  obtain hc | ⟨e, -, rfl⟩ := exec_next h
  · exact hc.frame
  · exact .takeError i s e

/-- Settles O25: the frame of a command that completes, and that of one that raises. -/
theorem commandsWriteOnlyTheirOwnState : Obligations.CommandsWriteOnlyTheirOwnState := by
  intro i s t h
  obtain ⟨hcfg, hibuf, hctab, hhost, hbus, hregs, haddr, hflags, hrecord, hres, hbpos, hwindow, harena, hsamples,
    hobuf⟩ := exec_frame h
  exact ⟨⟨hcfg, hibuf, hctab, hhost, hbus⟩, hregs, haddr, hflags, hrecord, hres, hbpos, hwindow, harena, hsamples,
    hobuf⟩

/-! ### Commands that fail -/

/-- A command that sets ERR has raised, and the error is one of its own. -/
theorem raises_of_err (hs : s.err = false) (h : exec i s = .next t) (ht : t.err = true) :
    ∃ e, RaisesIn s i e ∧ t = s.takeError e := by
  obtain hc | hraised := exec_next h
  · exact absurd (hc.err ht) (by simp [hs])
  · exact hraised

/-- Settles O9: what a raise leaves is the state before the command with ERR and the record of the raise. -/
theorem errorsChangeOnlyErrAndTheRecord : Obligations.ErrorsChangeOnlyErrAndTheRecord := by
  intro i s t hs h ht
  obtain ⟨e, -, rfl⟩ := raises_of_err hs h ht
  rfl

/-- Settles O11: ECAUSE holds the codes of the cause raised, which is in the command's row of R217. -/
theorem commandsRaiseOnlyTheirCauses : Obligations.CommandsRaiseOnlyTheirCauses := by
  intro i s t hs h ht
  obtain ⟨e, ⟨hcause, -⟩, rfl⟩ := raises_of_err hs h ht
  exact ⟨e.cause, hcause, rfl, rfl⟩

end Sys2Proof.Machine
end

section
/-! The invariant (R35, R61, R88, U11): it holds after power-on, every step keeps it, and in a state that meets it every
step completes (R255, R256). Each named update of the state keeps it under a condition of its own; a command, a host
write and a step then keep it because they are made of these updates. -/

namespace Sys2Proof.Machine

variable {s t : State} {i : Instr} {p : Fin 3} {out : PlaneOut} {e : Raise}

/-! ### Memories in canonical form and range -/

/-- The canonical form of a memory, with every listed address in the range `P`. -/
def Memory.Form {w : Nat} (P : Nat → Prop) (m : Memory w) : Prop := m.wf = true ∧ ∀ c ∈ m, P c.1

theorem Memory.Form.write {w : Nat} {P : Nat → Prop} {m : Memory w} (h : Memory.Form P m) {a : Nat} (ha : P a)
    (v : BitVec w) : Memory.Form P (m.write a v) := by
  refine ⟨Memory.wf_write h.1, fun c hc => ?_⟩
  obtain hnew | hold := Memory.mem_write hc
  · exact hnew ▸ ha
  · exact h.2 c hold

theorem Memory.Form.writeBytes {m : Memory 8} {n a k : Nat} (h : Memory.Form (· < n) m) (hr : a + k ≤ n) (v : Word) :
    Memory.Form (· < n) (m.writeBytes a v k) := by
  refine ⟨Memory.wf_writeBytes h.1 k, fun c hc => ?_⟩
  obtain ⟨-, hnew⟩ | hold := Memory.mem_writeBytes k hc
  · exact Nat.lt_of_lt_of_le hnew hr
  · exact h.2 c hold

/-- Past the checks of R175 every byte of a sample lies inside OBUF. -/
theorem sampleByte_lt (hr : planeReady s) {a : Nat} (ha : sampleByte s p a) : a < s.cfg.obufBytes := by
  obtain ⟨-, hstride, hbytes⟩ := hr
  obtain ⟨row, col, hrow, hcol, ha⟩ := ha
  have hp := p.isLt
  have hrows : (row + 1) * s.stride.toNat ≤ s.rows.toNat * s.stride.toNat := Nat.mul_le_mul_right _ hrow
  rw [Nat.succ_mul] at hrows
  unfold sampleAddr at ha
  omega

/-- Publishing a plane keeps OBUF in canonical form and range. -/
theorem Memory.Form.commitRows (hr : planeReady s) (hbody : planeBody s p = .ok out) {m : Memory 8}
    (h : Memory.Form (· < s.cfg.obufBytes) m) :
    Memory.Form (· < s.cfg.obufBytes) (commitRows s.stride.toNat p 0 out.samples m) := by
  obtain ⟨hlen, hcols⟩ := planeBody_shape hbody
  refine ⟨commitRows_wf h.1, fun c hc => ?_⟩
  obtain hold | ⟨row, col, hrow, hcol, haddr⟩ := mem_commitRows hcols hc
  · exact h.2 c hold
  · rw [Nat.zero_add] at haddr
    exact sampleByte_lt hr ⟨row, col, hlen ▸ hrow, hcol, haddr⟩

/-! ### Positions -/

/-- A residual that starts inside the window ends inside it. -/
theorem resid_pos_le {cfg : Config} {ibuf : Memory 8} {arena : List Node} {lim pos pos' : Nat} {order : BitOrder} {d : Int}
    (hp : pos ≤ lim) (h : resid cfg ibuf arena lim order pos = .ok (d, pos')) : pos' ≤ lim := by
  obtain ⟨sym, pos1, hdescend, -, hbits, -, rfl⟩ := resid_eq_ok.1 h
  obtain ⟨n, -, rfl, hwindow, -⟩ := descend_ok hdescend
  omega

/-- PlaneBody ends inside the plane's own bytes (R176). -/
theorem planeBody_pos_le (h : planeBody s p = .ok out) : out.pos ≤ s.planeLimit p := by
  obtain ⟨-, -, -, hrows⟩ := planeBody_eq_ok.1 h
  refine decodeRows_pos (fun _ _ _ => resid_pos_le) ?_ hrows
  simp only [State.planeStart, State.planeLimit]
  omega

/-! ### Each update keeps the invariant -/

/-- The state after power-on, from memories in canonical form (R70, R71). -/
theorem Inv.powerOn {cfg : Config} {ibuf : Memory 8} {ctab : Memory 32} {obuf : Memory 8} (host : List HostAction)
    (hcfg : cfg.wf) (hibuf : Memory.Form (· < cfg.ibufBytes) ibuf)
    (hctab : Memory.Form (fun a => a % 4 = 0 ∧ a < 24 * cfg.tabEntries) ctab)
    (hobuf : Memory.Form (· < cfg.obufBytes) obuf) : Inv (State.powerOn cfg ibuf ctab obuf host) where
  params := hcfg
  cursor := Nat.le_refl _
  limit := Nat.zero_le _
  limitByte := rfl
  tree := .empty hcfg.2.2.2.1
  cause := .inl ⟨rfl, rfl⟩
  context := fun _ => ⟨rfl, rfl, rfl⟩
  planeNumber := show (0#2 : BitVec 2) ≠ 3#2 by decide
  lostInFaulted := fun h => nomatch h
  faultedCause := fun h => nomatch h
  addressed := fun h => nomatch h
  ibufForm := hibuf
  ctabForm := hctab
  obufForm := hobuf

/-- The host's list and the bus answer play no part. -/
theorem Inv.withHostBus (h : Inv s) (host : List HostAction) (bus : BusResponse) :
    Inv { s with host := host, bus := bus } := { h with }

theorem Inv.resetRegisters (h : Inv s) : Inv s.resetRegisters :=
  (Inv.powerOn s.host h.params h.ibufForm h.ctabForm h.obufForm).withHostBus s.host s.bus

theorem Inv.ackError (h : Inv s) : Inv s.ackError :=
  { h with lostInFaulted := fun hl => (nomatch hl), faultedCause := fun he => (nomatch he) }

theorem Inv.dropCommand (h : Inv s) (he : s.err = true) : Inv s.dropCommand :=
  { h with lostInFaulted := fun _ => he }

theorem Cause.code_ne_zero (c : Cause) : c.code ≠ 0#8 := by
  cases c <;> decide

/-- Every error has a listed cause, and outside a plane no sample (R204). -/
theorem Inv.takeError (h : Inv s) (hsample : e.plane = none → e.sample = none) : Inv (s.takeError e) :=
  { h with
    cause := .inr ⟨e.cause, rfl, rfl⟩
    context := by
      intro hout
      have hplane : e.plane = none := by simpa [Raise.record] using hout
      simp [Raise.record, hplane, hsample hplane]
    planeNumber := by
      have hp : ∀ p : Fin 3, BitVec.ofNat 2 p.val ≠ 3#2 := by decide
      cases hplane : e.plane with
      | none => simp [Raise.record, hplane]
      | some p => simpa [Raise.record, hplane] using hp p
    lostInFaulted := fun _ => rfl
    faultedCause := fun _ => e.cause.code_ne_zero }

theorem Inv.setRes (h : Inv s) (v : Word) : Inv (s.setRes v) := { h with }

theorem Inv.setArena (h : Inv s) {arena : List Node} (ha : ArenaWf s.cfg arena) : Inv (s.setArena arena) :=
  { h with tree := ha }

theorem Inv.setObuf (h : Inv s) {obuf : Memory 8} (ho : Memory.Form (· < s.cfg.obufBytes) obuf) : Inv (s.setObuf obuf) :=
  { h with obufForm := ho }

/-- No position inside IBUF is reduced when it is stored in a register (R11). -/
theorem Inv.toNat_pos (h : Inv s) {n : Nat} (hn : n ≤ 8 * s.cfg.ibufBytes) : (BitVec.ofNat 32 n).toNat = n := by
  obtain ⟨⟨-, hcap⟩, -⟩ := h.params
  exact toNat_word_ofNat (by omega)

theorem Inv.setWindow (h : Inv s) (o : BitOrder) {pos bytes : Nat} (hp : pos ≤ 8 * bytes) (hb : bytes ≤ s.cfg.ibufBytes) :
    Inv (s.setWindow o pos (8 * bytes)) := by
  have hlim : (BitVec.ofNat 32 (8 * bytes)).toNat = 8 * bytes := h.toNat_pos (by omega)
  have hpos : (BitVec.ofNat 32 pos).toNat = pos := h.toNat_pos (by omega)
  refine { h with cursor := ?_, limit := ?_, limitByte := ?_ }
  · simp only [State.setWindow_bpos, State.setWindow_blim, hlim, hpos, hp]
  · simp only [windowInside, State.setWindow_blim, State.setWindow_cfg, hlim]; omega
  · simp only [State.setWindow_blim, hlim]; omega

theorem Inv.setBpos (h : Inv s) {pos : Nat} (hp : pos ≤ s.blim.toNat) : Inv (s.setBpos pos) :=
  { h with
    cursor := by
      rw [State.setBpos_bpos, State.setBpos_blim, toNat_word_ofNat (by omega)]
      exact hp }

/-- PADDR holds the cumulative sums of R173. -/
theorem Inv.setPaddr (h : Inv s) (hb : s.blen.toNat ≤ s.cfg.ibufBytes)
    (hsum : s.pbase.toNat + s.psize[0].toNat + s.psize[1].toNat + s.psize[2].toNat ≤ s.blen.toNat) :
    Inv (s.setPaddr s.pbase.toNat (s.pbase.toNat + s.psize[0].toNat)
      (s.pbase.toNat + s.psize[0].toNat + s.psize[1].toNat)) :=
  { h with
    addressed := by
      have hblen : s.blen.toNat < 2 ^ 32 := s.blen.isLt
      exact fun _ => ⟨toNat_word_ofNat (by omega), toNat_word_ofNat (by omega), toNat_word_ofNat (by omega), hsum, hb⟩ }

/-- A write of a register that PADDR was computed from clears PAVALID; any other leaves what `addressed` speaks of. -/
theorem Inv.writeReg (h : Inv s) (r : Reg) (v : Word) : Inv (s.writeReg r v) where
  params := by simpa using h.params
  cursor := by simpa using h.cursor
  limit := by simpa [windowInside] using h.limit
  limitByte := by simpa using h.limitByte
  tree := by simpa using h.tree
  cause := by simpa using h.cause
  context := by simpa using h.context
  planeNumber := by simpa using h.planeNumber
  lostInFaulted := by simpa using h.lostInFaulted
  faultedCause := by simpa using h.faultedCause
  addressed := by
    intro hv
    rw [State.writeReg_pavalid, Bool.and_eq_true, Bool.not_eq_true'] at hv
    obtain ⟨hv, hkeeps⟩ := hv
    have hblen : r ≠ .blen := by rintro rfl; cases hkeeps
    have hpbase : r ≠ .pbase := by rintro rfl; cases hkeeps
    have hpsize : ∀ p, r ≠ .psize p := by rintro p rfl; cases hkeeps
    simpa [hblen, hpbase, hpsize] using h.addressed hv
  ibufForm := by simpa using h.ibufForm
  ctabForm := by simpa using h.ctabForm
  obufForm := by simpa using h.obufForm

/-! ### Commands -/

/-- While PAVALID is 1 every plane's window ends inside IBUF (R173). -/
theorem Inv.planeBytes (h : Inv s) (hv : s.pavalid = true) (p : Fin 3) :
    s.paddr[p].toNat + s.psize[p].toNat ≤ s.cfg.ibufBytes := by
  obtain ⟨h0, h1, h2, hsum, hblen⟩ := h.addressed hv
  match p with
  | 0 => show s.paddr[0].toNat + s.psize[0].toNat ≤ _; omega
  | 1 => show s.paddr[1].toNat + s.psize[1].toNat ≤ _; omega
  | 2 => show s.paddr[2].toNat + s.psize[2].toNat ≤ _; omega

/-- A plane command leaves the tree and the cursor of its last plane. -/
theorem Inv.endPlane {u : State} (h : Inv s) (hr : planeReady s) (hbody : planeBody s p = .ok out) (hu : Inv u)
    (hcfg : u.cfg = s.cfg) (hpaddr : u.paddr = s.paddr) (hpsize : u.psize = s.psize) : Inv (u.endPlane p out) := by
  obtain ⟨-, count, hbuild, -⟩ := planeBody_eq_ok.1 hbody
  have hbytes := h.planeBytes hr.1 p
  have hpos := planeBody_pos_le hbody
  simp only [State.planeLimit, ← hcfg, ← hpaddr, ← hpsize] at hbytes hpos
  exact (hu.setArena (hcfg ▸ (build_ok h.params hbuild).1.wf)).setWindow .msb hpos hbytes

theorem Completes.inv (h : Inv s) (hc : Completes s t i) : Inv t := by
  cases i <;> simp only [Completes] at hc
  case nop => exact hc ▸ h
  case errAck => exact hc ▸ h.ackError
  case reset => exact hc ▸ h.resetRegisters
  case bsOpen o =>
    obtain ⟨hblen, hsum, rfl⟩ := hc
    exact h.setWindow o (by omega) (by omega)
  case bsSeek =>
    obtain ⟨hpos, rfl⟩ := hc
    exact h.setBpos hpos
  case bsRead nm1 =>
    obtain ⟨hpos, -, rfl⟩ := hc
    exact (h.setRes _).setBpos hpos
  case bsPeek nm1 =>
    obtain ⟨-, -, rfl⟩ := hc
    exact h.setRes _
  case bsAtEnd => exact hc ▸ h.setRes _
  case htClear => exact hc ▸ h.setArena (.empty h.params.2.2.2.1)
  case htInsert k idx =>
    obtain ⟨hidx, a, ha, rfl⟩ := hc
    have hsym : (idx.setWidth 32).toNat < s.cfg.tabEntries := by simpa [BitVec.toNat_setWidth] using by omega
    exact h.setArena (insert_ok h.tree h.params.2.2.2.2 h.params.2.2.1.2 hsym ha).2.wf
  case htBuild k =>
    obtain ⟨a, n, ha, rfl⟩ := hc
    exact (h.setArena (build_ok h.params ha).1.wf).setRes _
  case htDecode =>
    obtain ⟨sym, pos', hd, rfl⟩ := hc
    obtain ⟨n, -, rfl, hpos, -⟩ := descend_ok hd
    have := h.cursor
    exact (h.setRes sym).setBpos (by rw [State.setRes_blim]; omega)
  case plAddr =>
    obtain ⟨hblen, hsum, rfl⟩ := hc
    exact h.setPaddr hblen hsum
  case plResid =>
    obtain ⟨d, pos', hd, rfl⟩ := hc
    exact (h.setRes _).setBpos (resid_pos_le h.cursor hd)
  case plDecode p =>
    obtain ⟨hr, out, hbody, rfl⟩ := hc
    exact h.endPlane hr hbody (h.setObuf (.commitRows hr hbody h.obufForm)) rfl rfl rfl
  case plDecodeAll =>
    obtain ⟨hr, out0, out1, out2, h0, h1, h2, rfl⟩ := hc
    have hobuf := Memory.Form.commitRows hr h2 (.commitRows hr h1 (.commitRows hr h0 h.obufForm))
    exact h.endPlane hr h2 (h.setObuf hobuf) rfl rfl rfl

theorem exec_inv (h : Inv s) (hx : exec i s = .next t) : Inv t := by
  obtain hc | ⟨e, ⟨-, hcontext⟩, rfl⟩ := exec_next hx
  · exact hc.inv h
  · refine h.takeError fun hplane => ?_
    obtain ⟨-, hsample⟩ | ⟨⟨p, hp, -⟩, -⟩ := hcontext
    · exact hsample
    · cases hplane.symm.trans hp

/-! ### Steps -/

theorem runCommand_inv {cw : Word} (h : Inv s) (hx : runCommand cw s = .next t) : Inv t := by
  obtain ⟨-, -, rfl⟩ | ⟨-, -, rfl⟩ | ⟨he, -, -, rfl⟩ | ⟨-, why, -, rfl⟩ | ⟨-, i, -, hx⟩ := runCommand_next hx
  · exact h.ackError
  · exact h.resetRegisters
  · exact h.dropCommand he
  · exact h.takeError fun _ => rfl
  · exact exec_inv h hx

theorem hostWrite_inv {port : Port} {addr width : Nat} {v : Word} (h : Inv s)
    (hok : accessOk s.cfg port addr width = true) (hx : hostWrite port addr width v s = .next t) : Inv t := by
  obtain ⟨-, halign, hrange⟩ := accessOk_iff.1 hok
  obtain ⟨-, -, hx⟩ | ⟨-, r, -, -, rfl⟩ | ⟨-, -, rfl⟩ | ⟨rfl, rfl⟩ | ⟨rfl, rfl⟩ | ⟨rfl, rfl⟩ | ⟨rfl, rfl⟩ :=
    hostWrite_next hx
  · exact runCommand_inv h hx
  · exact h.writeReg r v
  · exact h
  · exact { h with ibufForm := Memory.Form.writeBytes h.ibufForm hrange v }
  · have hwidth : width = 4 := by simpa [accessOk, portTakes, and_assoc] using (accessOk_iff.1 hok).1
    subst hwidth
    have haddr : addr % 4 = 0 ∧ addr < 24 * s.cfg.tabEntries := ⟨halign, by simp only [portBytes] at hrange; omega⟩
    exact { h with ctabForm := Memory.Form.write (P := fun a => a % 4 = 0 ∧ a < 24 * s.cfg.tabEntries) h.ctabForm haddr v }
  · exact h.withHostBus _ _
  · exact { h with obufForm := Memory.Form.writeBytes h.obufForm hrange v }

/-- Settles O54: every action is made of updates that keep the invariant. -/
theorem stepKeepsTheInvariant : Obligations.StepKeepsTheInvariant := by
  intro s t h hstep
  obtain ⟨-, rfl⟩ | ⟨rest, -, rfl⟩ | ⟨port, addr, width, rest, r, -, rfl⟩ | ⟨port, addr, width, v, rest, -, -, rfl⟩ |
    ⟨port, addr, width, v, rest, -, hok, hx⟩ := step_next hstep
  · exact h
  · exact (h.withHostBus rest .done).resetRegisters.withHostBus _ _
  · exact h.withHostBus _ _
  · exact h.withHostBus _ _
  · exact hostWrite_inv (h.withHostBus rest .done) hok hx

/-- Settles O55: State.reset is the power-on of the default parameters with empty memories. -/
theorem powerOnMeetsTheInvariant : Obligations.PowerOnMeetsTheInvariant := by
  refine ⟨?atReset, fun cfg ibuf ctab obuf host hcfg hibuf hctab hobuf => .powerOn host hcfg hibuf hctab hobuf⟩
  case atReset =>
    have hempty : ∀ (w : Nat) (P : Nat → Prop), Memory.Form P ([] : Memory w) := fun _ _ => ⟨rfl, fun _ hc => nomatch hc⟩
    exact .powerOn [] (by decide) (hempty 8 _) (hempty 32 _) (hempty 8 _)

/-! ### Every step completes -/

theorem finish_next_of_no_fault {r : Result State} (h : ∀ x, r ≠ .fault x) : ∃ t, finish s r = .next t := by
  cases r with
  | ok t => exact ⟨t, rfl⟩
  | raised e => exact ⟨_, rfl⟩
  | fault x => exact absurd rfl (h x)

/-- A chain does not fault where neither of its parts does. -/
theorem Result.bind_no_fault {α β : Type} {r : Result α} {f : α → Result β} (h : ∀ x, r ≠ .fault x)
    (hf : ∀ a, r = .ok a → ∀ x, f a ≠ .fault x) (x : Fault) : r.bind f ≠ .fault x := by
  intro hx
  obtain hx | ⟨a, ha, hx⟩ := Result.bind_eq_fault.1 hx
  · exact h x hx
  · exact hf a ha x hx

theorem readBits_no_fault {cfg : Config} {ibuf : Memory 8} {n pos lim : Nat} {order : BitOrder}
    (h : lim ≤ 8 * cfg.ibufBytes) (x : Fault) : readBits cfg ibuf n pos lim order ≠ .fault x := by
  intro hx
  obtain ⟨hlim, hibuf, -⟩ := readBits_eq_fault.1 hx
  omega

/-- A legal command completes or raises: none of the accesses of `Fault` happens. -/
theorem exec_answers (h : Inv s) (hi : i.wellFormed s.cfg.tabEntries = true) : ∃ t, exec i s = .next t := by
  have hok : ∀ (u : State) (x : Fault), Result.ok u ≠ .fault x := fun _ _ hx => nomatch hx
  have hplane : planeReady s → ∀ p x, planeBody s p ≠ .fault x := fun hr p x =>
    planeBody_no_fault h.params (Nat.mul_le_mul_left 8 (h.planeBytes hr.1 p))
  cases i with
  | nop | errAck | reset | bsAtEnd | htClear => exact ⟨_, rfl⟩
  | bsOpen o =>
    refine finish_next_of_no_fault fun x => ?_
    split
    · simp
    · split <;> simp
  | bsSeek =>
    refine finish_next_of_no_fault fun x => ?_
    split <;> simp
  | plAddr =>
    refine finish_next_of_no_fault fun x => ?_
    split
    · simp
    · split <;> simp
  | bsRead nm1 | bsPeek nm1 =>
    exact finish_next_of_no_fault (Result.bind_no_fault (readBits_no_fault h.limit) fun _ _ => hok _)
  | htInsert t idx =>
    have hidx : idx.toNat < s.cfg.tabEntries := of_decide_eq_true hi
    refine finish_next_of_no_fault fun x => ?_
    rw [tableEntry_inside hidx, Result.bind_ok]
    exact Result.bind_no_fault (fun _ => insert_no_fault h.tree h.params.2.2.2.2) (fun _ _ => hok _) x
  | htBuild t =>
    exact finish_next_of_no_fault (Result.bind_no_fault (fun _ => build_no_fault h.params) fun _ _ => hok _)
  | htDecode =>
    exact finish_next_of_no_fault (Result.bind_no_fault (fun _ => descend_no_fault h.tree h.limit) fun _ _ => hok _)
  | plResid =>
    exact finish_next_of_no_fault (Result.bind_no_fault (fun _ => resid_no_fault h.tree h.limit) fun _ _ => hok _)
  | plDecode p =>
    refine finish_next_of_no_fault (Result.bind_no_fault (fun _ => planeChecks_no_fault) fun _ hc => ?_)
    have hr := planeChecks_eq_ok.1 hc
    exact Result.bind_no_fault (hplane hr p) fun _ _ => hok _
  | plDecodeAll =>
    refine finish_next_of_no_fault (Result.bind_no_fault (fun _ => planeChecks_no_fault) fun _ hc => ?_)
    have hr := planeChecks_eq_ok.1 hc
    exact Result.bind_no_fault (hplane hr 0) fun _ _ => Result.bind_no_fault (hplane hr 1) fun _ _ =>
      Result.bind_no_fault (hplane hr 2) fun _ _ => hok _

theorem runCommand_answers (h : Inv s) (cw : Word) : ∃ t, runCommand cw s = .next t := by
  unfold runCommand
  split
  · split
    · exact ⟨_, rfl⟩
    · split <;> exact ⟨_, rfl⟩
  · split
    · exact ⟨_, rfl⟩
    · next i hi => exact exec_answers h (encode_of_decode hi).2

theorem hostWrite_answers (h : Inv s) (port : Port) (addr width : Nat) (v : Word) :
    ∃ t, hostWrite port addr width v s = .next t := by
  cases port with
  | reg =>
    simp only [hostWrite]
    split
    · exact runCommand_answers h v
    · exact ⟨_, rfl⟩
    · exact ⟨_, rfl⟩
  | _ => exact ⟨_, rfl⟩

/-- Settles O56: a refused access and a read answer in any state; a write does by `hostWrite_answers`, where the only
commands that run are legal ones. -/
theorem everyStepCompletes : Obligations.EveryStepCompletes := by
  intro s h
  cases hhost : s.host with
  | nil => exact ⟨s, step_idle hhost⟩
  | cons a rest =>
    rw [step_cons hhost]
    cases a with
    | hardReset => exact ⟨_, rfl⟩
    | read port addr width =>
      simp only [perform]
      split <;> exact ⟨_, rfl⟩
    | write port addr width v =>
      simp only [perform]
      split
      · exact hostWrite_answers (h.withHostBus rest .done) port addr width v
      · exact ⟨_, rfl⟩

end Sys2Proof.Machine
end

section
/-! What a step of the machine is (R90, R112, R207): the equations of a command word in both operating states, the list
of the host's actions, and the events that change a flag or the error record (R37, R43). -/

namespace Sys2Proof.Machine

variable {s t : State} {i : Instr} {cw v : Word} {port : Port} {addr width : Nat}

/-! ### A command word in each operating state -/

theorem runCommand_of_decode (hs : s.err = false) (hd : decode s.cfg.tabEntries cw = .ok i) :
    runCommand cw s = exec i s := by
  rw [runCommand, if_neg (by simp [hs]), hd]

theorem runCommand_ack_of_faulted (hs : s.err = true) : runCommand 0x01000000#32 s = .next s.ackError := by
  rw [runCommand, if_pos hs, if_pos rfl]
  rfl

theorem runCommand_reset_of_faulted (hs : s.err = true) : runCommand 0x02000000#32 s = .next s.resetRegisters := by
  rw [runCommand, if_pos hs, if_neg (by decide), if_pos rfl]
  rfl

/-! ### The host's next access -/

theorem step_write_accepted (h : accessOk s.cfg port addr width = true) :
    step { s with host := .write port addr width v :: s.host } = hostWrite port addr width v (s.accept s.host) :=
  (step_cons rfl).trans (perform_write h rfl)

theorem step_write_refused (h : ¬ accessOk s.cfg port addr width = true) :
    step { s with host := .write port addr width v :: s.host } = .next { s with bus := .busError } :=
  (step_cons rfl).trans (perform_write_refused h rfl)

theorem step_read_accepted (h : accessOk s.cfg port addr width = true) :
    step { s with host := .read port addr width :: s.host } =
      .next { s with bus := .data (s.portRead port addr width) } :=
  (step_cons rfl).trans (perform_read h rfl)

theorem step_read_refused (h : ¬ accessOk s.cfg port addr width = true) :
    step { s with host := .read port addr width :: s.host } = .next { s with bus := .busError } :=
  (step_cons rfl).trans (perform_read_refused h rfl)

/-- Settles O5: the write to CMD is accepted, and in NORMAL `runCommand` is `exec` of what the word decodes to. -/
theorem stepRunsTheDecodedCommand : Obligations.StepRunsTheDecodedCommand := by
  intro s cw i rest hs hhost hd
  have hok : accessOk s.cfg .reg 0 4 = true := accessOk_reg rfl (by decide)
  calc step s
      = hostWrite .reg 0 4 cw (s.accept rest) := (step_cons hhost).trans (perform_write hok rfl)
    _ = runCommand cw (s.accept rest) := rfl
    _ = exec i (s.accept rest) := runCommand_of_decode hs hd

/-- Settles O7: the two words that `runCommand` lets pass in FAULTED. -/
theorem faultedUnitExecutesAckAndReset : Obligations.FaultedUnitExecutesAckAndReset := by
  intro s hs
  have hfaulted : (s.accept s.host).err = true := hs
  refine ⟨?ack, ?reset⟩
  case ack => rw [step_issue, runCommand_ack_of_faulted hfaulted]; rfl
  case reset => rw [step_issue, runCommand_reset_of_faulted hfaulted]; rfl

/-! ### Host writes in both operating states (R212, R249) -/

theorem State.writeReg_withErr (s : State) (r : Reg) (v : Word) (b : Bool) :
    State.writeReg { s with err := b } r v = { s.writeReg r v with err := b } := by
  cases r <;> rfl

/-- A host write other than a command reads nothing of ERR. -/
theorem hostWrite_withErr (hcmd : ¬ (port = .reg ∧ addr = 0)) (b : Bool) (h : hostWrite port addr width v s = .next t) :
    hostWrite port addr width v { s with err := b } = .next { t with err := b } := by
  obtain ⟨hreg, haddr, -⟩ | ⟨rfl, r, hr, hne, rfl⟩ | ⟨rfl, hr, rfl⟩ | ⟨rfl, rfl⟩ | ⟨rfl, rfl⟩ | ⟨rfl, rfl⟩ | ⟨rfl, rfl⟩ :=
    hostWrite_next h
  · exact absurd ⟨hreg, haddr⟩ hcmd
  · obtain rfl := Reg.ofOffset_eq_some_iff.1 hr
    rw [hostWrite_reg_offset hne, State.writeReg_withErr]
  · rw [hostWrite_reg_of_none hr]
  all_goals rfl

/-- Settles O8: the access test reads the parameters only, and an accepted write is `hostWrite_withErr`. -/
theorem hostWritesWorkWhileFaulted : Obligations.HostWritesWorkWhileFaulted := by
  intro s t port addr width v b hcmd h
  by_cases hok : accessOk s.cfg port addr width = true
  · rw [step_write_accepted hok] at h
    exact (step_write_accepted (s := { s with err := b }) hok).trans (hostWrite_withErr hcmd b h)
  · rw [step_write_refused hok] at h
    obtain rfl := Host.Outcome.next.inj h
    exact step_write_refused (s := { s with err := b }) hok

/-! ### The list of the host's actions (R90) -/

theorem runCommand_host (h : runCommand cw s = .next t) : t.host = s.host := by
  obtain ⟨-, -, rfl⟩ | ⟨-, -, rfl⟩ | ⟨-, -, -, rfl⟩ | ⟨-, why, -, rfl⟩ | ⟨-, i, -, h⟩ := runCommand_next h
  case inr.inr.inr.inr => exact (exec_frame h).host
  all_goals rfl

theorem hostWrite_host (h : hostWrite port addr width v s = .next t) : t.host = s.host := by
  obtain ⟨-, -, h⟩ | ⟨-, r, -, -, rfl⟩ | ⟨-, -, rfl⟩ | ⟨-, rfl⟩ | ⟨-, rfl⟩ | ⟨-, rfl⟩ | ⟨-, rfl⟩ := hostWrite_next h
  · exact runCommand_host h
  · exact s.writeReg_host r v
  all_goals rfl

/-- Settles O24: `State.accept` takes the action off the list, and nothing that follows touches the list. -/
theorem hostActionsRunInOrder : Obligations.HostActionsRunInOrder := by
  refine ⟨fun s t a rest hhost h => ?_, fun s => step_idle⟩
  have hrest : ∀ {a' rest'}, s.host = a' :: rest' → rest' = rest := fun h' => (List.cons.inj (h'.symm.trans hhost)).2
  obtain ⟨hnil, -⟩ | ⟨rest', hh, rfl⟩ | ⟨_, _, _, rest', _, hh, rfl⟩ | ⟨_, _, _, _, rest', hh, -, rfl⟩ |
    ⟨_, _, _, _, rest', hh, -, hx⟩ := step_next h
  · cases hnil.symm.trans hhost
  · exact hrest hh
  · exact hrest hh
  · exact hrest hh
  · exact (hostWrite_host hx).trans (hrest hh)

/-! ### What changes the flags and the error record -/

/-- What a completed command does to PAVALID. -/
theorem Completes.pavalid (h : Completes s t i) (hi : i ≠ .reset) :
    t.pavalid = s.pavalid ∨ i = .plAddr ∧ t.pavalid = true := by
  by_cases hp : i = .plAddr
  · subst hp
    obtain ⟨-, -, rfl⟩ := h
    exact .inr ⟨rfl, rfl⟩
  · exact .inl (h.frame.addresses hi hp).1

/-- What a completed command does to ORDER. -/
theorem Completes.order (h : Completes s t i) (hi : i ≠ .reset) :
    t.order = s.order ∨ i = .bsOpen t.order ∨ ((∃ p, i = .plDecode p) ∨ i = .plDecodeAll) ∧ t.order = .msb := by
  cases i
  case bsOpen o => obtain ⟨-, -, rfl⟩ := h; exact .inr (.inl rfl)
  case plDecode p => obtain ⟨-, out, -, rfl⟩ := h; exact .inr (.inr ⟨.inl ⟨p, rfl⟩, rfl⟩)
  case plDecodeAll => obtain ⟨-, _, _, _, -, -, -, rfl⟩ := h; exact .inr (.inr ⟨.inr rfl, rfl⟩)
  all_goals exact .inl (h.frame.window (by simp) (by simp) (by simp) hi).2

/-- What a completed command does to the error record. -/
theorem Completes.record (h : Completes s t i) (hs : s.err = false) (hi : i ≠ .reset) : t.record = s.record := by
  by_contra hne
  exact absurd (h.err (h.frame.record hi hne)) (by simp [hs])

/-- The events of a step, with what each does to the flags and the error record (R37, R43). -/
inductive StepEvent (s t : State) : Prop
  /-- The unit is idle, or the host reads, or writes anything but a command. -/
  | access (hsame : t.err = s.err ∧ t.lost = s.lost ∧ t.order = s.order ∧ t.record = s.record)
      (hpavalid : t.pavalid = s.pavalid ∨
        t.pavalid = false ∧ ∃ off v, s.host.head? = some (.write .reg off 4 v) ∧ clearsPavalid off)
  /-- The word of RESET, or hardware reset. -/
  | reset (hby : issues s 0x02000000#32 ∨ s.host.head? = some .hardReset)
      (hzero : t.err = false ∧ t.lost = false ∧ t.pavalid = false ∧ t.order = .msb ∧ t.record = .zero)
  /-- The word of ERR.ACK. -/
  | ack (hby : issues s 0x01000000#32) (hclear : t.err = false ∧ t.lost = false)
      (hsame : t.pavalid = s.pavalid ∧ t.order = s.order ∧ t.record = s.record)
  /-- Another word in FAULTED. -/
  | dropped (hs : s.err = true) (hby : ∃ cw, issues s cw ∧ cw ≠ 0x01000000#32 ∧ cw ≠ 0x02000000#32)
      (hlost : t.lost = true) (hsame : t.err = s.err ∧ t.pavalid = s.pavalid ∧ t.order = s.order ∧ t.record = s.record)
  /-- A word in NORMAL that raises. -/
  | raised (hs : s.err = false) (hby : ∃ cw, issues s cw) (ht : t.err = true)
      (hsame : t.lost = s.lost ∧ t.pavalid = s.pavalid ∧ t.order = s.order)
  /-- A command in NORMAL, neither ERR.ACK nor RESET, that completes. -/
  | completed (i : Instr) (hby : issues s (encode i))
      (hsame : t.err = s.err ∧ t.lost = s.lost ∧ t.record = s.record)
      (hpavalid : t.pavalid = s.pavalid ∨ i = .plAddr ∧ t.pavalid = true)
      (horder : t.order = s.order ∨ i = .bsOpen t.order ∨ ((∃ p, i = .plDecode p) ∨ i = .plDecodeAll) ∧ t.order = .msb)

/-- The events of a command word. -/
theorem runCommand_event {rest : List HostAction} (hby : issues s cw) (h : runCommand cw (s.accept rest) = .next t) :
    StepEvent s t := by
  obtain ⟨-, rfl, rfl⟩ | ⟨-, rfl, rfl⟩ | ⟨hs, h1, h2, rfl⟩ | ⟨hs, why, -, rfl⟩ | ⟨hs, i, hd, hx⟩ := runCommand_next h
  · exact .ack hby ⟨rfl, rfl⟩ ⟨rfl, rfl, rfl⟩
  · exact .reset (.inl hby) ⟨rfl, rfl, rfl, rfl, rfl⟩
  · exact .dropped hs ⟨cw, hby, h1, h2⟩ rfl ⟨rfl, rfl, rfl, rfl⟩
  · exact .raised hs ⟨cw, hby⟩ rfl ⟨rfl, rfl, rfl⟩
  · obtain ⟨rfl, -⟩ := encode_of_decode hd
    obtain hc | ⟨e, -, rfl⟩ := exec_next hx
    · by_cases hack : i = .errAck
      · subst hack
        obtain rfl := hc
        exact .ack hby ⟨rfl, rfl⟩ ⟨rfl, rfl, rfl⟩
      by_cases hreset : i = .reset
      · subst hreset
        obtain rfl := hc
        exact .reset (.inl hby) ⟨rfl, rfl, rfl, rfl, rfl⟩
      have herr : t.err = s.err := by
        have ht : t.err = false := Bool.eq_false_iff.2 fun ht => absurd (hc.err ht) (Bool.eq_false_iff.1 hs)
        exact ht.trans hs.symm
      exact .completed i hby ⟨herr, (hc.frame.flags hreset hack).1, hc.record hs hreset⟩ (hc.pavalid hreset)
        (hc.order hreset)
    · exact .raised hs ⟨_, hby⟩ rfl ⟨rfl, rfl, rfl⟩

/-- A step is one of the events. -/
theorem step_event (h : step s = .next t) : StepEvent s t := by
  obtain ⟨-, rfl⟩ | ⟨rest, hh, rfl⟩ | ⟨_, _, _, rest, _, -, rfl⟩ | ⟨_, _, _, _, rest, -, -, rfl⟩ |
    ⟨port, addr, width, v, rest, hh, hok, hx⟩ := step_next h
  · exact .access ⟨rfl, rfl, rfl, rfl⟩ (.inl rfl)
  · exact .reset (.inr (by rw [hh]; rfl)) ⟨rfl, rfl, rfl, rfl, rfl⟩
  · exact .access ⟨rfl, rfl, rfl, rfl⟩ (.inl rfl)
  · exact .access ⟨rfl, rfl, rfl, rfl⟩ (.inl rfl)
  · have hwidth : port = .reg → width = 4 := by
      rintro rfl
      simpa [portTakes] using (accessOk_iff.1 hok).1
    obtain ⟨rfl, rfl, hx⟩ | ⟨rfl, r, hr, -, rfl⟩ | ⟨-, -, rfl⟩ | ⟨-, rfl⟩ | ⟨-, rfl⟩ | ⟨-, rfl⟩ | ⟨-, rfl⟩ :=
      hostWrite_next hx
    · obtain rfl := hwidth rfl
      exact runCommand_event (by rw [issues, hh]; rfl) hx
    · obtain rfl := hwidth rfl
      obtain rfl := Reg.ofOffset_eq_some_iff.1 hr
      refine .access (by simp) ?_
      cases hdrops : r.dropsAddresses with
      | false => exact .inl (by simp [hdrops])
      | true => exact .inr ⟨by simp [hdrops], r.offset, v, by rw [hh]; rfl, (clearsPavalid_offset r).2 hdrops⟩
    all_goals exact .access ⟨rfl, rfl, rfl, rfl⟩ (.inl rfl)

theorem encode_plDecode_mem (p : Fin 3) :
    encode (.plDecode p) = 0x32000000#32 ∨ encode (.plDecode p) = 0x32000001#32 ∨ encode (.plDecode p) = 0x32000002#32 := by
  revert p; decide

/-- The words of the plane commands that decode samples (R115). -/
theorem issues_planeCommand (hby : issues s (encode i)) (hi : (∃ p, i = .plDecode p) ∨ i = .plDecodeAll) :
    issues s 0x32000000#32 ∨ issues s 0x32000001#32 ∨ issues s 0x32000002#32 ∨ issues s 0x33000000#32 := by
  obtain ⟨p, rfl⟩ | rfl := hi
  · obtain hw | hw | hw := encode_plDecode_mem p <;> rw [hw] at hby <;> tauto
  · exact .inr (.inr (.inr hby))

/-- Settles O12: each flag, over the events of a step. -/
theorem flagsChangeOnlyAsListed : Obligations.FlagsChangeOnlyAsListed := by
  intro s t h
  refine ⟨fun hs ht => ?errSet, fun hs ht => ?errCleared, fun hs ht => ?lostSet, fun hs ht => ?lostCleared,
    fun hs ht => ?pavalidSet, fun hs ht => ?pavalidCleared, fun hs ht => ?orderSet, fun hs ht => ?orderCleared⟩
  case errSet => cases step_event h <;> simp_all
  case errCleared =>
    cases step_event h
    case reset hby hzero => exact .inr hby
    case ack hby hclear hsame => exact .inl hby
    all_goals simp_all
  case lostSet =>
    cases step_event h
    case dropped hs' hby hlost hsame => exact ⟨hs', hby⟩
    all_goals simp_all
  case lostCleared =>
    cases step_event h
    case reset hby hzero => exact .inr hby
    case ack hby hclear hsame => exact .inl hby
    all_goals simp_all
  case pavalidSet =>
    cases step_event h
    case completed i hby hsame hpavalid horder =>
      obtain hkept | ⟨rfl, -⟩ := hpavalid
      · simp_all
      · exact hby
    all_goals simp_all
  case pavalidCleared =>
    cases step_event h
    case access hsame hpavalid =>
      obtain hkept | ⟨-, hwrite⟩ := hpavalid
      · simp_all
      · exact .inl hwrite
    case reset hby hzero => exact .inr hby
    all_goals simp_all
  case orderSet =>
    cases step_event h
    case completed i hby hsame hpavalid horder =>
      obtain hkept | rfl | ⟨-, hmsb⟩ := horder
      · simp_all
      · rw [ht] at hby
        exact hby
      · simp_all
    all_goals simp_all
  case orderCleared =>
    cases step_event h
    case reset hby hzero => tauto
    case completed i hby hsame hpavalid horder =>
      obtain hkept | rfl | ⟨hi, -⟩ := horder
      · simp_all
      · rw [ht] at hby
        exact .inl hby
      · have := issues_planeCommand hby hi
        tauto
    all_goals simp_all

/-- Settles O13: of the events of a step only an error and a reset change the record. -/
theorem errorRecordChangesOnlyByRaiseOrReset : Obligations.ErrorRecordChangesOnlyByRaiseOrReset := by
  intro s t h hne
  cases step_event h
  case reset hby hzero => exact .inr ⟨hzero.2.2.2.2, hby⟩
  case raised hs hby ht hsame => exact .inl ⟨hs, ht, hby⟩
  all_goals simp_all

end Sys2Proof.Machine
end

section
/-! The reset state as the host reads it (R70, R192, R240), the interrupt output (R209), the map of the registers (R38),
and the two commands without operands or conditions (R151, R190). -/

namespace Sys2Proof.Machine

variable {s t : State} {r : Reg} {v : Word}

/-! ### The map of the registers -/

theorem step_write_named (hr : r ≠ .cmd) :
    step { s with host := .write .reg r.offset 4 v :: s.host } = .next ((s.accept s.host).writeReg r v) := by
  have hoff := r.offset_le
  have halign : r.offset % 4 = 0 := by cases r <;> simp only [Reg.offset] <;> omega
  rw [step_write_reg halign (by omega), hostWrite_reg_offset hr]

theorem step_read_named (s : State) (r : Reg) :
    step { s with host := .read .reg r.offset 4 :: s.host } = .next { s with bus := .data (s.readReg r) } := by
  have hoff := r.offset_le
  have halign : r.offset % 4 = 0 := by cases r <;> simp only [Reg.offset] <;> omega
  rw [step_read_reg halign (by omega), State.portRead_reg_offset]

theorem orderFlag_eq_decide (o : BitOrder) : orderFlag o = decide (o = .lsb) := by
  cases o <;> rfl

/-- Settles O60: each entry of the map is one register, whose write and read `Machine/Operands.lean` gives. -/
theorem registerOffsetsNameTheirRegisters : Obligations.RegisterOffsetsNameTheirRegisters := by
  intro s v
  simp only [List.forall_mem_cons, List.not_mem_nil, false_implies, implies_true, and_true, ← orderFlag_eq_decide]
  refine ⟨⟨?_, ?_, ?_, ?_, ?_, ?_, ?_, ?_, ?_, ?_, ?_, ?_, ?_, ?_⟩, ?_, ?_, ?_, ?_, ?_, ?_, ?_, ?_, ?_, ?_, ?_, ?_, ?_,
    ?_, ?_, ?_, ?_, ?_, ?_, ?_, ?_, ?_, ?_, ?_, ?_, ?_, ?_, ?_, ?_⟩
  · exact step_write_named (r := .ctrl) nofun
  · exact step_write_named (r := .a0) nofun
  · exact step_write_named (r := .a1) nofun
  · exact step_write_named (r := .blen) nofun
  · exact step_write_named (r := .cols) nofun
  · exact step_write_named (r := .rows) nofun
  · exact step_write_named (r := .stride) nofun
  · exact step_write_named (r := .pbase) nofun
  · exact step_write_named (r := .seed 0) nofun
  · exact step_write_named (r := .seed 1) nofun
  · exact step_write_named (r := .seed 2) nofun
  · exact step_write_named (r := .psize 0) nofun
  · exact step_write_named (r := .psize 1) nofun
  · exact step_write_named (r := .psize 2) nofun
  · exact step_read_named s .cmd
  · exact step_read_named s .status
  · exact step_read_named s .ctrl
  · exact step_read_named s .ecause
  · exact step_read_named s .epos
  · exact step_read_named s .eexp
  · exact step_read_named s .efnd
  · exact step_read_named s .eloc
  · exact step_read_named s .a0
  · exact step_read_named s .a1
  · exact step_read_named s .res
  · exact step_read_named s .bpos
  · exact step_read_named s .blim
  · exact step_read_named s .blen
  · exact step_read_named s .ncount
  · exact step_read_named s .cols
  · exact step_read_named s .rows
  · exact step_read_named s .stride
  · exact step_read_named s .pbase
  · exact step_read_named s (.seed 0)
  · exact step_read_named s (.seed 1)
  · exact step_read_named s (.seed 2)
  · exact step_read_named s (.psize 0)
  · exact step_read_named s (.psize 1)
  · exact step_read_named s (.psize 2)
  · exact step_read_named s (.paddr 0)
  · exact step_read_named s (.paddr 1)
  · exact step_read_named s (.paddr 2)
  · exact step_read_named s .id

/-! ### The reset values -/

section Reset

variable (cfg : Config) (ibuf : Memory 8) (ctab : Memory 32) (obuf : Memory 8) (host : List HostAction)

theorem readReg_powerOn (r : Reg) : (State.powerOn cfg ibuf ctab obuf host).readReg r = resetValue r.offset := by
  cases r with
  | seed p | psize p | paddr p => fin_cases p <;> rfl
  | status =>
    exact (by decide : (0#28 ++ BitVec.ofBool false ++ BitVec.ofBool false ++ BitVec.ofBool false ++ BitVec.ofBool false :
      Word) = 0#32)
  | ctrl => exact (by decide : (0#31 ++ BitVec.ofBool false : Word) = 0#32)
  | ecause => exact (by decide : (0#13 ++ BitVec.ofBool false ++ 0#2 ++ 0#8 ++ 0#8 : Word) = 0#32)
  | eloc => exact (by decide : (0#16 ++ 0#16 : Word) = 0#32)
  | _ => rfl

/-- Every offset of the port REG reads its reset value; a reserved offset reads 0 (R38, R39, R70). -/
theorem portRead_powerOn (off : Nat) : (State.powerOn cfg ibuf ctab obuf host).portRead .reg off 4 = resetValue off := by
  cases hr : Reg.ofOffset off with
  | some r =>
    obtain rfl := Reg.ofOffset_eq_some_iff.1 hr
    rw [State.portRead_reg_offset, readReg_powerOn]
  | none =>
    have hncount : off ≠ 0x38 := by rintro rfl; cases hr
    have hid : off ≠ 0x70 := by rintro rfl; cases hr
    rw [State.portRead_reg_of_none hr, resetValue, if_neg hncount, if_neg hid]

end Reset

theorem exec_reset (s : State) : exec .reset s = .next s.resetRegisters :=
  exec_of_completes rfl

/-- Settles O16: RESET leaves the registers and the arena of power-on. -/
theorem resetRestoresTheResetState : Obligations.ResetRestoresTheResetState :=
  ⟨rfl, fun s => ⟨_, exec_reset s, fun off _ _ => portRead_powerOn s.cfg s.ibuf s.ctab s.obuf s.host off,
    rfl, rfl, rfl, rfl, rfl, rfl, rfl⟩⟩

/-- Settles O17: the one node of the empty tree reads 0xFFFFFFFF in its three words. -/
theorem powerOnRegistersReadTheirResetValues : Obligations.PowerOnRegistersReadTheirResetValues := by
  intro cfg ibuf ctab obuf host
  refine ⟨fun off _ _ => portRead_powerOn cfg ibuf ctab obuf host off, fun w hw => ?node0, rfl, rfl, rfl⟩
  case node0 =>
    simp only [List.mem_cons, List.not_mem_nil, or_false] at hw
    obtain rfl | rfl | rfl := hw <;> rfl

theorem step_hardReset (s : State) :
    step { s with host := .hardReset :: s.host } = .next { s.resetRegisters with bus := .idle } := rfl

/-- Settles O18: both are `State.resetRegisters`, but for the bus answer. -/
theorem hardwareResetActsAsReset : Obligations.HardwareResetActsAsReset :=
  fun s => ⟨_, exec_reset s, step_hardReset s, rfl, rfl, rfl⟩

/-! ### The interrupt output (R209) -/

theorem status_getLsbD_zero (s : State) : s.status.getLsbD 0 = s.err := by
  rw [State.status, BitVec.getLsbD_append]
  simp

theorem ctrl_getLsbD_zero (s : State) : s.ctrl.getLsbD 0 = s.eie := by
  rw [State.ctrl, BitVec.getLsbD_append]
  simp

/-- A write to CTRL stores EIE, and so decides whether ERR reaches `irq`. -/
theorem irq_writeReg_ctrl (s : State) (v : Word) : (s.writeReg .ctrl v).irq = (s.err && v.getLsbD 0) := rfl

/-- Settles O15: ERR and EIE are bit 0 of STATUS and of CTRL; ERR.ACK and the resets clear ERR. -/
theorem interruptIsErrAndEnable : Obligations.InterruptIsErrAndEnable := by
  intro s
  refine ⟨by rw [status_getLsbD_zero, ctrl_getLsbD_zero]; rfl, ⟨_, step_write_named (r := .ctrl) nofun, ?enabled⟩,
    ⟨_, step_write_named (r := .ctrl) nofun, ?masked⟩, ⟨_, exec_errAck s, rfl⟩, ⟨_, exec_reset s, rfl⟩,
    ⟨_, step_hardReset s, rfl⟩⟩
  case enabled =>
    rw [irq_writeReg_ctrl]
    exact Bool.and_true s.err
  case masked =>
    rw [irq_writeReg_ctrl]
    exact Bool.and_false s.err

/-! ### NOP and HT.CLEAR -/

/-- Settles O26. -/
theorem nopChangesNothing : Obligations.NopChangesNothing :=
  ⟨rfl, fun _ => exec_of_completes rfl⟩

/-- Settles O33: the empty tree is the one node without children or symbol. -/
theorem htClearEmptiesTheTree : Obligations.HtClearEmptiesTheTree :=
  ⟨rfl, fun s => ⟨s.setArena [Node.empty], exec_of_completes rfl, rfl, rfl⟩⟩

end Sys2Proof.Machine
end

section
/-! The host's accesses of IBUF, CTAB, NODE and OBUF (R81, R83, R84, R88): which are refused, the bytes of a value in
memory, and the words of a table entry and of a node. -/

namespace Sys2Proof.Machine

variable {s : State} {port : Port} {addr width : Nat} {v : Word}

/-! ### Refused accesses (R84) -/

theorem portTakes_iff : portTakes port width = true ↔ width ∈ if port = .ibuf ∨ port = .obuf then [1, 2, 4] else [4] := by
  cases port <;> simp [portTakes, or_assoc]

/-- No access to NODE writes: an accepted one answers a bus error too (R83). -/
theorem step_write_node (s : State) (addr width : Nat) (v : Word) :
    step { s with host := .write .node addr width v :: s.host } = .next { s with bus := .busError } := by
  by_cases hok : accessOk s.cfg .node addr width = true
  · exact step_write_accepted hok
  · exact step_write_refused hok

/-- Settles O20: each of the three faults of an access fails the access test. -/
theorem badAccessesGetABusError : Obligations.BadAccessesGetABusError := by
  intro s port addr width v
  refine ⟨fun hbad => ?refused, step_write_node s addr width v⟩
  case refused =>
    have hok : ¬ accessOk s.cfg port addr width = true := by
      rw [accessOk_iff, portTakes_iff]
      rintro ⟨hwidth, halign, hinside⟩
      obtain h | h | h := hbad
      · exact h hwidth
      · exact h halign
      · cases port <;> exact Nat.not_le_of_lt h hinside
    exact ⟨step_read_refused hok, step_write_refused hok⟩

/-! ### Bytes of a value (R81) -/

/-- Bytes that are those of a value, least significant first, are read as its low bytes. -/
theorem Memory.readBytes_eq {m : Memory 8} {a n : Nat} (h : ∀ i, i < n → m.read (a + i) = v.extractLsb' (8 * i) 8) :
    m.readBytes a n = v.toNat % 2 ^ (8 * n) := by
  induction n with
  | zero => rw [Memory.readBytes, Nat.mul_zero, Nat.pow_zero, Nat.mod_one]
  | succ n ih =>
    have hbyte : (m.read (a + n)).toNat = v.toNat / 2 ^ (8 * n) % 2 ^ 8 := by
      rw [h n (Nat.lt_succ_self n), BitVec.extractLsb'_toNat, Nat.shiftRight_eq_div_pow]
    rw [Memory.readBytes, ih fun i hi => h i (Nat.lt_succ_of_lt hi), hbyte, Nat.mul_succ, Nat.pow_add, Nat.mod_mul,
      Nat.mul_comm (2 ^ (8 * n))]

/-- What a host write of `width` bytes makes of a memory of bytes, and what the same read then gives. -/
theorem Memory.writeBytes_spec {m : Memory 8} (hm : m.wf = true) (addr width : Nat) (v : Word) :
    (m.writeBytes addr v width).wf = true ∧
    (∀ i, i < width → (m.writeBytes addr v width).read (addr + i) = v.extractLsb' (8 * i) 8) ∧
    (∀ a, a < addr ∨ addr + width ≤ a → (m.writeBytes addr v width).read a = m.read a) ∧
    (m.writeBytes addr v width).readBytes addr width = v.toNat % 2 ^ (8 * width) := by
  have hin : ∀ i, i < width → (m.writeBytes addr v width).read (addr + i) = v.extractLsb' (8 * i) 8 :=
    fun _ => Memory.read_writeBytes_in hm width
  exact ⟨Memory.wf_writeBytes hm width, hin, fun _ => Memory.read_writeBytes_out width, Memory.readBytes_eq hin⟩

/-- Settles O21: both ports store by `Memory.writeBytes` and read by `Memory.readBytes`. -/
theorem hostBytesAreLittleEndian : Obligations.HostBytesAreLittleEndian := by
  intro s addr width v hwidth halign
  refine ⟨fun hrange hm => ?ibuf, fun hrange hm => ?obuf⟩
  case ibuf =>
    have hok : accessOk s.cfg .ibuf addr width = true := accessOk_iff.2 ⟨portTakes_iff.2 hwidth, halign, hrange⟩
    obtain ⟨hwf, hin, hout, hback⟩ := Memory.writeBytes_spec hm addr width v
    refine ⟨s.ibuf.writeBytes addr v width, hwf, step_write_accepted hok, hin, hout, ?_⟩
    rw [← hback]
    exact step_read_accepted (s := { s with ibuf := s.ibuf.writeBytes addr v width }) hok
  case obuf =>
    have hok : accessOk s.cfg .obuf addr width = true := accessOk_iff.2 ⟨portTakes_iff.2 hwidth, halign, hrange⟩
    obtain ⟨hwf, hin, hout, hback⟩ := Memory.writeBytes_spec hm addr width v
    refine ⟨s.obuf.writeBytes addr v width, hwf, step_write_accepted hok, hin, hout, ?_⟩
    rw [← hback]
    exact step_read_accepted (s := { s with obuf := s.obuf.writeBytes addr v width }) hok

/-! ### The words of a table entry (R88) -/

section Entry

variable {cfg : Config} {ctab : Memory 32} {t t' : Fin 3} {i j : Nat}

/-- The two words of an entry lie inside CTAB, and the port takes them. -/
theorem accessOk_entry (hi : i < cfg.tabEntries) {w : Nat} (hw : w = 0 ∨ w = 4) :
    accessOk cfg .ctab (8 * (t.val * cfg.tabEntries + i) + w) 4 = true := by
  have htable : t.val * cfg.tabEntries ≤ 2 * cfg.tabEntries := Nat.mul_le_mul_right _ (by omega)
  refine accessOk_iff.2 ⟨rfl, by omega, ?_⟩
  simp only [portBytes]
  omega

/-- Entries of different places have different offsets. -/
theorem entry_offset_inj (hi : i < cfg.tabEntries) (hj : j < cfg.tabEntries)
    (h : t'.val * cfg.tabEntries + j = t.val * cfg.tabEntries + i) : (t', j) = (t, i) := by
  have hquot := congrArg (· / cfg.tabEntries) h
  have hrem := congrArg (· % cfg.tabEntries) h
  have hpos : 0 < cfg.tabEntries := by omega
  simp only [Nat.mul_comm _ cfg.tabEntries, Nat.mul_add_div hpos, Nat.mul_add_mod, Nat.div_eq_of_lt hi,
    Nat.div_eq_of_lt hj, Nat.mod_eq_of_lt hi, Nat.mod_eq_of_lt hj] at hquot hrem
  exact Prod.ext (Fin.ext hquot) hrem

/-- A write of the len of an entry. -/
theorem write_len_spec (hm : ctab.wf = true) (hi : i < cfg.tabEntries) (v : Word) :
    entryLen cfg (ctab.write (8 * (t.val * cfg.tabEntries + i)) v) t i = v.toNat ∧
    (∀ t' j, j < cfg.tabEntries →
      entryCode cfg (ctab.write (8 * (t.val * cfg.tabEntries + i)) v) t' j = entryCode cfg ctab t' j) ∧
    (∀ t' j, j < cfg.tabEntries → (t', j) ≠ (t, i) →
      entryLen cfg (ctab.write (8 * (t.val * cfg.tabEntries + i)) v) t' j = entryLen cfg ctab t' j) := by
  refine ⟨?same, fun t' j _ => ?code, fun t' j hj hne => ?other⟩
  case same => rw [entryLen, Memory.read_write_self hm]
  case code => exact Memory.read_write_ne (by omega)
  case other =>
    have hoffset : 8 * (t'.val * cfg.tabEntries + j) ≠ 8 * (t.val * cfg.tabEntries + i) :=
      fun h => hne (entry_offset_inj hi hj (by omega))
    rw [entryLen, entryLen, Memory.read_write_ne hoffset]

/-- A write of the code of an entry. -/
theorem write_code_spec (hm : ctab.wf = true) (hi : i < cfg.tabEntries) (v : Word) :
    entryCode cfg (ctab.write (8 * (t.val * cfg.tabEntries + i) + 4) v) t i = v ∧
    (∀ t' j, j < cfg.tabEntries →
      entryLen cfg (ctab.write (8 * (t.val * cfg.tabEntries + i) + 4) v) t' j = entryLen cfg ctab t' j) ∧
    (∀ t' j, j < cfg.tabEntries → (t', j) ≠ (t, i) →
      entryCode cfg (ctab.write (8 * (t.val * cfg.tabEntries + i) + 4) v) t' j = entryCode cfg ctab t' j) := by
  refine ⟨Memory.read_write_self hm, fun t' j _ => ?len, fun t' j hj hne => ?other⟩
  case len => rw [entryLen, entryLen, Memory.read_write_ne (by omega)]
  case other => exact Memory.read_write_ne fun h => hne (entry_offset_inj hi hj (by omega))

end Entry

/-- Settles O22: the port reads and writes the word at the entry's offset, and offsets of different words differ. -/
theorem codeTableWordsLieAtTheirOffsets : Obligations.CodeTableWordsLieAtTheirOffsets := by
  intro s t i v hi
  have hlen : accessOk s.cfg .ctab (8 * (t.val * s.cfg.tabEntries + i)) 4 = true := accessOk_entry hi (.inl rfl)
  have hcode : accessOk s.cfg .ctab (8 * (t.val * s.cfg.tabEntries + i) + 4) 4 = true := accessOk_entry hi (.inr rfl)
  refine ⟨?_, step_read_accepted hcode, fun hm => ⟨_, Memory.wf_write hm, step_write_accepted hlen, write_len_spec hm hi v⟩,
    fun hm => ⟨_, Memory.wf_write hm, step_write_accepted hcode, write_code_spec hm hi v⟩⟩
  rw [entryLen, BitVec.ofNat_toNat, BitVec.setWidth_eq]
  exact step_read_accepted hlen

/-! ### The words of a node (R59, R88) -/

theorem step_read_node {k w : Nat} (hk : k < s.cfg.nodeMax) (hw : w ∈ [0, 4, 8]) :
    step { s with host := .read .node (12 * k + w) 4 :: s.host } =
      .next { s with bus := .data (s.nodeWord (12 * k + w)) } := by
  simp only [List.mem_cons, List.not_mem_nil, or_false] at hw
  exact step_read_accepted (accessOk_iff.2 ⟨rfl, by omega, by simp only [portBytes]; omega⟩)

theorem nodeWord_inUse {k w : Nat} {nd : Node} (hw : w < 12) (h : s.arena[k]? = some nd) :
    s.nodeWord (12 * k + w) = if w = 0 then nd.c0 else if w = 4 then nd.c1 else nd.leaf := by
  have hnode : (12 * k + w) / 12 = k := by omega
  have hword : (12 * k + w) % 12 = w := by omega
  rw [State.nodeWord, hnode, hword, h]

theorem nodeWord_notInUse {k w : Nat} (hw : w < 12) (h : s.arena.length ≤ k) :
    s.nodeWord (12 * k + w) = 0xFFFFFFFF#32 := by
  have hnode : (12 * k + w) / 12 = k := by omega
  rw [State.nodeWord, hnode, List.getElem?_eq_none h]

/-- Settles O23: the three words of a node in use, and the word of one that is not. -/
theorem nodePortShowsTheArena : Obligations.NodePortShowsTheArena := by
  intro s k hk
  refine ⟨fun nd hnd => ⟨?_, ?_, ?_⟩, fun hout w hw => ?notInUse⟩
  · rw [← Nat.add_zero (12 * k), step_read_node hk (by decide), nodeWord_inUse (by decide) hnd]
    rfl
  · rw [step_read_node hk (by decide), nodeWord_inUse (by decide) hnd]
    rfl
  · rw [step_read_node hk (by decide), nodeWord_inUse (by decide) hnd]
    rfl
  case notInUse =>
    have hw12 : w < 12 := by
      simp only [List.mem_cons, List.not_mem_nil, or_false] at hw
      omega
    rw [step_read_node hk hw, nodeWord_notInUse hw12 hout]

end Sys2Proof.Machine
end

section
/-! Two reads in a row (R80, R131): the bits of one longer read are those of its two parts, in either bit order. -/

namespace Sys2Proof.Machine

variable {s t u : State} {ibuf : Memory 8} {order : BitOrder} {pos m n : Nat}

/-- MSB-first, the bits read first are the upper part of the value. -/
theorem bitsMsb_add (ibuf : Memory 8) (pos m n : Nat) :
    bitsMsb ibuf pos (m + n) = bitsMsb ibuf pos m * 2 ^ n + bitsMsb ibuf (pos + m) n := by
  induction n with
  | zero => simp [bitsMsb]
  | succ n ih =>
    rw [← Nat.add_assoc, bitsMsb_succ, ih, bitsMsb_succ, Nat.add_assoc pos m n]
    ring

/-- LSB-first, the bits read first are the lower part of the value. -/
theorem bitsLsb_add (ibuf : Memory 8) (pos m n : Nat) :
    bitsLsb ibuf pos (m + n) = bitsLsb ibuf pos m + bitsLsb ibuf (pos + m) n * 2 ^ m := by
  induction n with
  | zero => simp [bitsLsb]
  | succ n ih =>
    rw [← Nat.add_assoc, bitsLsb_succ, ih, bitsLsb_succ, Nat.add_assoc pos m n]
    ring

/-- No value of a read of at most 32 bits is reduced when it is stored in RES. -/
theorem readWord_toNat (h : m < 32) : (readWord ibuf pos m order).toNat = streamBits ibuf (m + 1) pos order :=
  toNat_word_ofNat (streamBits_lt.trans_le (Nat.pow_le_pow_right (by decide) h))

/-- A read that succeeds stays inside the window, and leaves the value and the position after it. -/
theorem bsRead_succeeds {nm1 : BitVec 5} (h : exec (.bsRead nm1) s = .next t) (ht : t.err = false) :
    s.bpos.toNat + (nm1.toNat + 1) ≤ s.blim.toNat ∧
      t = { s with
        res := readWord s.ibuf s.bpos.toNat nm1.toNat s.order
        bpos := BitVec.ofNat 32 (s.bpos.toNat + (nm1.toNat + 1)) } := by
  obtain ⟨hwindow, -, rfl⟩ := completes_of_err_false h ht
  exact ⟨hwindow, rfl⟩

/-- Settles O32: both reads stay inside the window, so the longer one does, and its value is made of theirs. -/
theorem consecutiveReadsAreOneRead : Obligations.ConsecutiveReadsAreOneRead := by
  intro s t u m n k hw hs hk hread ht hread' hu
  obtain ⟨hfirst, rfl⟩ := bsRead_succeeds hread ht
  obtain ⟨hsecond, rfl⟩ := bsRead_succeeds hread' hu
  have hpos : (BitVec.ofNat 32 (s.bpos.toNat + (m.toNat + 1))).toNat = s.bpos.toNat + (m.toNat + 1) :=
    toNat_word_ofNat (hfirst.trans_lt s.blim.isLt)
  simp only [hpos] at hsecond ⊢
  have hlonger : s.bpos.toNat + (k.toNat + 1) ≤ s.blim.toNat := by omega
  refine ⟨readWord s.ibuf s.bpos.toNat k.toNat s.order, ?reads, fun ho => ?msb, fun ho => ?lsb⟩
  case reads =>
    rw [exec_bsRead_inside hw hlonger, hk, Nat.add_assoc s.bpos.toNat]
  case msb =>
    rw [readWord_toNat k.isLt, readWord_toNat m.isLt, readWord_toNat n.isLt, ho, hk]
    exact bitsMsb_add s.ibuf s.bpos.toNat (m.toNat + 1) (n.toNat + 1)
  case lsb =>
    rw [readWord_toNat k.isLt, readWord_toNat m.isLt, readWord_toNat n.isLt, ho, hk]
    exact bitsLsb_add s.ibuf s.bpos.toNat (m.toNat + 1) (n.toNat + 1)

end Sys2Proof.Machine
end

section
/-! HT.DECODE on every stream (R154, R157, R206): Descend follows the stream's bits, and where it stops. -/

namespace Sys2Proof.Machine

section Descend

variable {cfg : Config} {ibuf : Memory 8} {arena : List Node} {lim pos n fuel k k' : Nat} {order : BitOrder} {nd : Node}

/-- Where the stream's next `n` bits lead from node `k` to node `k'`, Descend goes on from there. -/
theorem descendFrom_along (hl : pos + n ≤ lim) (hi : lim ≤ 8 * cfg.ibufBytes)
    (hw : walk arena (streamList ibuf order pos n) k = some k') :
    descendFrom cfg ibuf arena lim order (fuel + n) k pos = descendFrom cfg ibuf arena lim order fuel k' (pos + n) := by
  induction n generalizing k pos with
  | zero =>
    rw [streamList_zero, walk_nil, Option.some.injEq] at hw
    rw [hw, Nat.add_zero, Nat.add_zero]
  | succ n ih =>
    rw [streamList_succ] at hw
    obtain ⟨nk, hk, hb, hw⟩ := walk_cons.1 hw
    rw [← Nat.add_assoc, descendFrom_edge hk (Node.not_childless hb) (by omega) (by omega), if_neg hb,
      ih (by omega) hw, Nat.add_assoc pos, Nat.add_comm 1]

/-- In a well-formed arena the fuel of Descend lasts for one turn at every node that the stream leads to (R61). -/
theorem descend_along (h : ArenaWf cfg arena) (hl : pos + n ≤ lim) (hi : lim ≤ 8 * cfg.ibufBytes)
    (hw : walk arena (streamList ibuf order pos n) 0 = some k) :
    ∃ fuel, descend cfg ibuf arena pos lim order = descendFrom cfg ibuf arena lim order (fuel + 1) k (pos + n) := by
  have hrange := h.walk_range h.nonempty hw
  rw [streamList_length] at hrange
  refine ⟨arena.length - n - 1, ?_⟩
  rw [← descendFrom_along hl hi hw, descend]
  congr 1
  omega

/-- R154 (b): the stream's next bit selects an absent child. -/
theorem descend_absentBranch (h : ArenaWf cfg arena) (hl : pos + n < lim) (hi : lim ≤ 8 * cfg.ibufBytes)
    (hw : walk arena (streamList ibuf order pos n) 0 = some k) (hk : arena[k]? = some nd) (hc : nd.childless = false)
    (hb : nd.child (streamBit ibuf (pos + n) order) = nil32) :
    descend cfg ibuf arena pos lim order =
      .raised { cause := .absentBranch, pos := pos + n, exp := (streamBit ibuf (pos + n) order).toNat, fnd := k } := by
  obtain ⟨fuel, hd⟩ := descend_along h (Nat.le_of_lt hl) hi hw
  rw [hd, descendFrom_edge hk hc hl (by omega), if_pos hb]

/-- R154 (c): the window ends at a node with a child. -/
theorem descend_truncated (h : ArenaWf cfg arena) (hl : pos + n = lim) (hi : lim ≤ 8 * cfg.ibufBytes)
    (hw : walk arena (streamList ibuf order pos n) 0 = some k) (hk : arena[k]? = some nd) (hc : nd.childless = false) :
    descend cfg ibuf arena pos lim order =
      .raised { cause := .truncatedStream, pos := pos + n, exp := 1, fnd := 0 } := by
  obtain ⟨fuel, hd⟩ := descend_along h hl.le hi hw
  rw [hd, descendFrom_end hk hc (by omega), hl, Nat.sub_self]

/-- R154 (a): the empty tree has no symbol to give. -/
theorem descend_undefinedLeaf :
    descend cfg ibuf [Node.empty] pos lim order = .raised { cause := .undefinedLeaf, pos := pos, exp := 0, fnd := 0 } := by
  rw [descend, descendFrom_leaf (nd := Node.empty) rfl rfl, if_pos Node.leaf_empty]

/-- A root without children and without a symbol is the whole of a well-formed arena: no other node has a parent. -/
theorem ArenaWf.eq_empty (h : ArenaWf cfg arena) (hk : arena[0]? = some nd) (hc : nd.childless = true)
    (hl : nd.leaf = undefinedLeaf) : arena = [Node.empty] := by
  have hnil := Node.childless_iff.1 hc
  have hone : ¬ 1 < arena.length := by
    intro hlt
    obtain ⟨k, b, ⟨np, hnp, hchild⟩, -⟩ := h.oneParent 1 (Nat.le_refl 1) hlt
    have hb : np.child b ≠ nil32 := by
      intro hb
      rw [hb, nil32_toNat] at hchild
      omega
    have hup := (h.childRange k np b hnp hb).1
    obtain rfl : k = 0 := by omega
    obtain rfl := Option.some.inj (hnp.symm.trans hk)
    exact hb (hnil b)
  have hlen := h.nonempty
  obtain ⟨node, rfl⟩ : ∃ node, arena = [node] := List.length_eq_one_iff.1 (by omega)
  obtain rfl : node = nd := Option.some.inj hk
  obtain ⟨c0, c1, leaf⟩ := node
  obtain rfl : c0 = nil32 := hnil false
  obtain rfl : c1 = nil32 := hnil true
  obtain rfl : leaf = undefinedLeaf := hl
  rfl

/-- Outside the empty tree every childless node carries a symbol (R61 (g)). -/
theorem ArenaWf.leadsTo_of_childless (h : ArenaWf cfg arena) (hne : arena ≠ [Node.empty]) {bs : List Bool}
    (hw : walk arena bs 0 = some k) (hk : arena[k]? = some nd) (hc : nd.childless = true) : leadsTo arena bs nd.leaf := by
  refine ⟨k, nd, hw, hk, hc, rfl, fun hl => ?_⟩
  obtain rfl | hpos := Nat.eq_zero_or_pos k
  · exact hne (h.eq_empty hk hc hl)
  · exact h.leafSymbol k nd hpos hk hc hl

theorem streamList_snoc : streamList ibuf order pos (n + 1) = streamList ibuf order pos n ++ [streamBit ibuf (pos + n) order] := by
  simp [streamList, List.range_succ]

/-- The stream leads to a symbol, or it stops at a node with a child: at the end of the window, or because the next bit
selects no child. -/
theorem ArenaWf.stream_decides (h : ArenaWf cfg arena) (hne : arena ≠ [Node.empty]) (hl : pos + n ≤ lim)
    (hw : walk arena (streamList ibuf order pos n) 0 = some k) :
    (∃ m sym, pos + m ≤ lim ∧ leadsTo arena (streamList ibuf order pos m) sym) ∨
    ∃ m k nd, pos + m ≤ lim ∧ walk arena (streamList ibuf order pos m) 0 = some k ∧ arena[k]? = some nd ∧
      nd.childless = false ∧ (pos + m = lim ∨ nd.child (streamBit ibuf (pos + m) order) = nil32) := by
  induction hleft : lim - (pos + n) using Nat.strongRecOn generalizing n k with
  | _ left ih =>
    obtain ⟨nd, hk⟩ : ∃ nd, arena[k]? = some nd := ⟨_, List.getElem?_eq_getElem (h.walk_range h.nonempty hw).2⟩
    cases hc : nd.childless with
    | true => exact .inl ⟨n, nd.leaf, hl, h.leadsTo_of_childless hne hw hk hc⟩
    | false =>
      by_cases hstop : pos + n = lim ∨ nd.child (streamBit ibuf (pos + n) order) = nil32
      · exact .inr ⟨n, k, nd, hl, hw, hk, hc, hstop⟩
      · obtain ⟨hend, hb⟩ := not_or.1 hstop
        have hnext : walk arena (streamList ibuf order pos (n + 1)) 0 =
            some (nd.child (streamBit ibuf (pos + n) order)).toNat := by
          rw [streamList_snoc]
          exact walk_snoc.2 ⟨k, nd, hw, hk, hb, rfl⟩
        exact ih (lim - (pos + (n + 1))) (by omega) (by omega) hnext rfl

end Descend

section Commands

variable {s t : State} {n : Nat} {sym : Word} {e : Raise}

theorem exec_htDecode_raised (h : descend s.cfg s.ibuf s.arena s.bpos.toNat s.blim.toNat s.order = .raised e) :
    exec .htDecode s = .next (s.takeError e) := by
  simp only [exec, execHtDecode, h, Result.bind_raised, finish_raised]

/-- HT.DECODE gives the symbol that the stream leads to; the position after it is inside the window, so BPOS holds it. -/
theorem exec_htDecode_leadsTo (ht : ArenaWf s.cfg s.arena) (hw : windowInside s) (hn : s.bpos.toNat + n ≤ s.blim.toNat)
    (h : leadsTo s.arena (streamList s.ibuf s.order s.bpos.toNat n) sym) :
    ∃ pos : Word, exec .htDecode s = .next { s with res := sym, bpos := pos } ∧ pos.toNat = s.bpos.toNat + n :=
  ⟨BitVec.ofNat 32 (s.bpos.toNat + n), exec_of_completes ⟨_, _, descend_leadsTo ht hn (hn.trans hw) h, rfl⟩,
    toNat_word_ofNat (hn.trans_lt s.blim.isLt)⟩

/-- Settles O40. -/
theorem htDecodeFollowsTheStream : Obligations.HtDecodeFollowsTheStream :=
  fun _ _ _ ht hw hn h => ⟨rfl, exec_htDecode_leadsTo ht hw hn h⟩

/-- Settles O41: Descend stops where the stream does, and the stream of a tree with codes stops in one of the ways of
`ArenaWf.stream_decides`. -/
theorem htDecodeDecidesEveryStream : Obligations.HtDecodeDecidesEveryStream := by
  intro s ht hw hpos
  refine ⟨fun hempty => ?undefinedLeaf, fun m k nd hm hwalk hk hc hb => ?absentBranch,
    fun m k nd hm hwalk hk hc => ?truncated, ?every⟩
  case undefinedLeaf =>
    have hd := descend_undefinedLeaf (cfg := s.cfg) (ibuf := s.ibuf) (lim := s.blim.toNat) (pos := s.bpos.toNat)
      (order := s.order)
    rw [← hempty] at hd
    exact exec_htDecode_raised hd
  case absentBranch => exact exec_htDecode_raised (descend_absentBranch ht hm hw hwalk hk hc hb)
  case truncated => exact exec_htDecode_raised (descend_truncated ht hm hw hwalk hk hc)
  case every =>
    by_cases hempty : s.arena = [Node.empty]
    · exact .inl hempty
    · exact .inr (ht.stream_decides (n := 0) hempty hpos rfl)

/-- Settles O39: the tree that HT.BUILD leaves has every code of the table, wherever it is used afterwards. -/
theorem huffmanDecodeInvertsTheTable : Obligations.HuffmanDecodeInvertsTheTable := by
  intro s u x t hwf hs hbuild hu hcfg harena hwindow i hi
  obtain ⟨a, n, ha, rfl⟩ := completes_of_err_false hbuild hu
  obtain ⟨hbuilt, htable⟩ := build_ok hwf ha
  have hcount : (BitVec.ofNat 32 n).toNat = n := ofNat_toNat_of_entry hwf.2.2.1.2 htable.room
  have hi : i < n := hcount ▸ hi
  refine ⟨fun hn hstream => ?decodes, fun j hj hij => htable.free i j hi (hcount ▸ hj) hij⟩
  case decodes =>
    have htree : ArenaWf x.cfg x.arena := hcfg ▸ harena ▸ hbuilt.wf
    have hcode : leadsTo x.arena (entryBits s.cfg s.ctab t i) (BitVec.ofNat 32 i) := harena ▸ hbuilt.codes i hi
    exact exec_htDecode_leadsTo htree hwindow hn (hstream ▸ hcode)

end Commands

end Sys2Proof.Machine
end

section
/-! HT.INSERT (R152, R155): the five errors of Insert at the place where the code's path meets the tree, and the numbers
of the nodes that a new code takes. -/

namespace Sys2Proof.Machine

section Paths

variable {cfg : Config} {a a' : List Node} {bits bs : List Bool} {i j d k k' m : Nat} {nd : Node}

/-! ### Paths and their first parts -/

/-- Every first part of a path is a path. -/
theorem walk_take_of_le (hij : i ≤ j) (h : walk a (bits.take j) k = some m) : ∃ m', walk a (bits.take i) k = some m' := by
  have hsplit := List.take_append_drop i (bits.take j)
  rw [List.take_take, Nat.min_eq_left hij] at hsplit
  rw [← hsplit] at h
  obtain ⟨m', hm', -⟩ := walk_append.1 h
  exact ⟨m', hm'⟩

/-- A path that leaves the tree does so at one place. -/
theorem leave_unique (hd : walk a (bits.take d) k = some m) (hd' : walk a (bits.take (d + 1)) k = none)
    (hj : walk a (bits.take j) k = some k') (hj' : walk a (bits.take (j + 1)) k = none) : j = d := by
  have hle : ∀ {d j k' : Nat}, walk a (bits.take (d + 1)) k = none → walk a (bits.take j) k = some k' → j ≤ d := by
    intro d j k' hnone hsome
    by_contra hlt
    obtain ⟨m', hm'⟩ := walk_take_of_le (Nat.lt_of_not_le hlt) hsome
    cases hnone.symm.trans hm'
  exact Nat.le_antisymm (hle hd' hj) (hle hj' hd)

/-- A path that is not in the tree leaves it at some place. -/
theorem exists_leave (h : walk a bits 0 = none) :
    ∃ d m, d < bits.length ∧ walk a (bits.take d) 0 = some m ∧ walk a (bits.take (d + 1)) 0 = none := by
  by_contra hall
  push Not at hall
  have hon : ∀ d, d ≤ bits.length → ∃ m, walk a (bits.take d) 0 = some m := by
    intro d
    induction d with
    | zero => exact fun _ => ⟨0, rfl⟩
    | succ d ih =>
      intro hd
      obtain ⟨m, hm⟩ := ih (by omega)
      exact Option.ne_none_iff_exists'.1 (hall d m (by omega) hm)
  obtain ⟨m, hm⟩ := hon bits.length (Nat.le_refl _)
  rw [List.take_length, h] at hm
  cases hm

/-- A node that a path goes on from has a child, so it carries no symbol (R61 (d)). -/
theorem ArenaWf.inner_leaf (h : ArenaWf cfg a) (hw : walk a bits 0 = some k) (hj : j < bits.length)
    (hm : walk a (bits.take j) 0 = some m) (hnd : a[m]? = some nd) : nd.leaf = undefinedLeaf := by
  have hsplit : bits = bits.take j ++ bits[j] :: bits.drop (j + 1) := by
    rw [List.cons_getElem_drop_succ, List.take_append_drop]
  rw [hsplit] at hw
  obtain ⟨m', hm', hw⟩ := walk_append.1 hw
  obtain rfl := Option.some.inj (hm.symm.trans hm')
  obtain ⟨nd', hnd', hb, -⟩ := walk_cons.1 hw
  obtain rfl := Option.some.inj (hnd.symm.trans hnd')
  exact h.innerNoSymbol m nd hnd (Node.not_childless hb)

end Paths

/-! ### Where the walk of Insert stops -/

section Walk

variable {cfg : Config} {sym len code : Word} {a a' : List Node} {n j d k k' m : Nat} {nd : Node}

/-- The error of Insert on the code (len, code) of symbol `sym` (R203). -/
def insertError (c : Cause) (sym len code : Word) : Raise :=
  { cause := c, pos := sym.toNat, exp := len.toNat, fnd := code.toNat }

theorem insertWalk_leafOnPath (h : ArenaWf cfg a) (hj : j < n) (hw : walk a ((codeBits n code).take j) k = some m)
    (hnd : a[m]? = some nd) (hl : nd.leaf ≠ undefinedLeaf) :
    insertWalk cfg.nodeMax sym len code n a k = .raised (insertError .leafOnPath sym len code) := by
  induction n generalizing k j with
  | zero => omega
  | succ n ih =>
    cases j with
    | zero =>
      rw [List.take_zero, walk_nil, Option.some.injEq] at hw
      subst hw
      exact insertWalk_leaf hnd hl
    | succ j =>
      rw [codeBits, List.take_succ_cons] at hw
      obtain ⟨nk, hk, hb, hw⟩ := walk_cons.1 hw
      rw [insertWalk_down hk (h.innerNoSymbol k nk hk (Node.not_childless hb)) hb]
      exact ih (by omega) hw

/-- From a node without symbol and without the child of the next bit, with too little room for the rest of the path. -/
theorem insertWalk_arenaFull_here (h : PreWf cfg a k) (hk : a[k]? = some nd) (hl : nd.leaf = undefinedLeaf)
    (hb : nd.child (code.getLsbD n) = nil32) (hfull : cfg.nodeMax < a.length + (n + 1)) :
    insertWalk cfg.nodeMax sym len code (n + 1) a k = .raised (insertError .arenaFull sym len code) := by
  have hfits := h.fits
  induction n generalizing a k nd with
  | zero => rw [insertWalk_alloc hk hl hb, if_pos (by omega)]; rfl
  | succ n ih =>
    rw [insertWalk_alloc hk hl hb]
    split
    · rfl
    · next hroom =>
      have hnext := h.allocate hk hl hb hroom
      exact ih hnext (allocate_new a k nd _) rfl (Node.child_empty _) (by rw [allocate_length]; omega) hnext.fits

theorem insertWalk_arenaFull (h : PreWf cfg a k) (hwf : ArenaWf cfg a) (hd : d < n)
    (hw : walk a ((codeBits n code).take d) k = some m) (hleave : walk a ((codeBits n code).take (d + 1)) k = none)
    (hnd : a[m]? = some nd) (hl : nd.leaf = undefinedLeaf) (hfull : cfg.nodeMax < a.length + (n - d)) :
    insertWalk cfg.nodeMax sym len code n a k = .raised (insertError .arenaFull sym len code) := by
  induction n generalizing k d with
  | zero => omega
  | succ n ih =>
    rw [codeBits, List.take_succ_cons] at hleave
    cases d with
    | zero =>
      rw [List.take_zero, walk_nil, Option.some.injEq] at hw
      subst hw
      have hb : nd.child (code.getLsbD n) = nil32 := by simpa [walk, hnd] using hleave
      exact insertWalk_arenaFull_here h hnd hl hb hfull
    | succ d =>
      rw [codeBits, List.take_succ_cons] at hw
      obtain ⟨nk, hk, hb, hw⟩ := walk_cons.1 hw
      rw [insertWalk_down hk (hwf.innerNoSymbol k nk hk (Node.not_childless hb)) hb]
      refine ih (h.down hk hb) (by omega) hw ?_ (by omega)
      simpa [walk, hk, hb] using hleave

/-- From a node without symbol and without the child of the next bit, the walk allocates a node for every bit, with the
next free indices in path order (R152). -/
theorem insertWalk_numbers_here (h : PreWf cfg a k) (hk : a[k]? = some nd) (hl : nd.leaf = undefinedLeaf)
    (hb : ∀ i, n = i + 1 → nd.child (code.getLsbD i) = nil32)
    (hi : insertWalk cfg.nodeMax sym len code n a k = .ok (a', k')) :
    a'.length = a.length + n ∧ ∀ j, j < n → walk a' ((codeBits n code).take (j + 1)) k = some (a.length + j) := by
  induction n generalizing a k nd with
  | zero =>
    simp only [insertWalk, Result.ok.injEq, Prod.mk.injEq] at hi
    exact ⟨by rw [hi.1]; rfl, fun j hj => absurd hj (Nat.not_lt_zero j)⟩
  | succ n ih =>
    rw [insertWalk_alloc hk hl (hb n rfl)] at hi
    split at hi
    · cases hi
    · next hroom =>
      have hindex : a.length < 2 ^ 32 - 1 := by have := h.params; have := h.fits; omega
      have hnext := h.allocate hk hl (hb n rfl) hroom
      have hnew := allocate_new a k nd (code.getLsbD n)
      obtain ⟨hlen, hpath⟩ := ih hnext hnew rfl (fun i _ => Node.child_empty _) hi
      obtain ⟨-, hext, -⟩ := insertWalk_ok hnext hi
      obtain ⟨nd', hnd', -, hchild, -⟩ := hext.keep k _ (allocate_self h.inUse nd (code.getLsbD n))
      have hc : nd'.child (code.getLsbD n) = BitVec.ofNat 32 a.length := by
        rw [hchild _ (by rw [Node.child_setChild_self]; exact index_ne_nil hindex), Node.child_setChild_self]
      have hedge : ∀ bs, walk a' (code.getLsbD n :: bs) k = walk a' bs a.length := by
        intro bs
        simp only [walk, hnd', hc, index_ne_nil hindex, if_false, toNat_word_ofNat (show a.length < 2 ^ 32 by omega)]
      refine ⟨by rw [hlen, allocate_length]; omega, fun j hj => ?_⟩
      rw [codeBits, List.take_succ_cons, hedge]
      cases j with
      | zero => rfl
      | succ j => rw [hpath j (by omega), allocate_length]; congr 1; omega

/-- The walk of a code that leaves the tree after `d` bits allocates a node for each bit after them. -/
theorem insertWalk_numbers (h : PreWf cfg a k) (hd : d < n) (hw : walk a ((codeBits n code).take d) k = some m)
    (hleave : walk a ((codeBits n code).take (d + 1)) k = none)
    (hi : insertWalk cfg.nodeMax sym len code n a k = .ok (a', k')) :
    a'.length = a.length + (n - d) ∧
      ∀ j, d ≤ j → j < n → walk a' ((codeBits n code).take (j + 1)) k = some (a.length + (j - d)) := by
  induction n generalizing k d with
  | zero => omega
  | succ n ih =>
    obtain ⟨nk, hk⟩ : ∃ nk, a[k]? = some nk := ⟨_, List.getElem?_eq_getElem h.inUse⟩
    have hl : nk.leaf = undefinedLeaf := by
      by_contra hl
      rw [insertWalk_leaf hk hl] at hi
      cases hi
    rw [codeBits, List.take_succ_cons] at hleave
    cases d with
    | zero =>
      have hb : nk.child (code.getLsbD n) = nil32 := by simpa [walk, hk] using hleave
      obtain ⟨hlen, hpath⟩ := insertWalk_numbers_here h hk hl (by rintro i ⟨⟩; exact hb) hi
      exact ⟨hlen, fun j _ hj => hpath j hj⟩
    | succ d =>
      rw [codeBits, List.take_succ_cons] at hw
      obtain ⟨nk', hk', hb, hw⟩ := walk_cons.1 hw
      obtain rfl := Option.some.inj (hk.symm.trans hk')
      rw [insertWalk_down hk hl hb] at hi
      obtain ⟨-, hext, -⟩ := insertWalk_ok (h.down hk hb) hi
      obtain ⟨nd', hnd', -, hchild, -⟩ := hext.keep k _ hk
      obtain ⟨hlen, hpath⟩ := ih (h.down hk hb) (by omega) hw (by simpa [walk, hk, hb] using hleave) hi
      refine ⟨by omega, fun j hdj hj => ?_⟩
      obtain ⟨j, rfl⟩ : ∃ j', j = j' + 1 := ⟨j - 1, by omega⟩
      rw [codeBits, List.take_succ_cons, walk_cons]
      refine ⟨nd', hnd', by rw [hchild _ hb]; exact hb, ?_⟩
      rw [hchild _ hb, hpath j (by omega) (by omega)]
      congr 2
      omega

end Walk

/-! ### Insert of a table entry -/

section Entry

variable {cfg : Config} {ctab : Memory 32} {t : Fin 3} {i d j m k : Nat} {a a' : List Node} {nd : Node} {w : Word}

/-- `CTAB[t][i].len` (R88). -/
def entryLenWord (cfg : Config) (ctab : Memory 32) (t : Fin 3) (i : Nat) : Word :=
  ctab.read (8 * (t.val * cfg.tabEntries + i))

theorem entryLenWord_toNat : (entryLenWord cfg ctab t i).toNat = entryLen cfg ctab t i := rfl

theorem codeBits_entry : codeBits (entryLenWord cfg ctab t i).toNat (entryCode cfg ctab t i) = entryBits cfg ctab t i := rfl

/-- Insert of entry `i` of table `t`, as HT.INSERT and Build do it (R153, R155). -/
def insertEntry (cfg : Config) (ctab : Memory 32) (t : Fin 3) (i : Nat) (a : List Node) : Result (List Node) :=
  insert cfg (BitVec.ofNat 32 i) (entryLenWord cfg ctab t i) (entryCode cfg ctab t i) a

/-- The error of Insert on entry `i` of table `t`. -/
def entryError (c : Cause) (cfg : Config) (ctab : Memory 32) (t : Fin 3) (i : Nat) : Raise :=
  insertError c (BitVec.ofNat 32 i) (entryLenWord cfg ctab t i) (entryCode cfg ctab t i)

theorem insertEntry_badLength (h : entryLen cfg ctab t i < 1 ∨ 32 < entryLen cfg ctab t i) :
    insertEntry cfg ctab t i a = .raised (entryError .badLength cfg ctab t i) := by
  rw [insertEntry, insert, entryLenWord_toNat, if_pos h]
  rfl

/-- With a legal length Insert is its walk and the store of the symbol. -/
theorem insertEntry_walk (h1 : 1 ≤ entryLen cfg ctab t i) (h32 : entryLen cfg ctab t i ≤ 32) :
    insertEntry cfg ctab t i a =
      (insertWalk cfg.nodeMax (BitVec.ofNat 32 i) (entryLenWord cfg ctab t i) (entryCode cfg ctab t i)
        (entryLen cfg ctab t i) a 0).bind fun r =>
        storeLeaf (BitVec.ofNat 32 i) (entryLenWord cfg ctab t i) (entryCode cfg ctab t i) r.1 r.2 := by
  rw [insertEntry, insert, entryLenWord_toNat, if_neg (by simp only [maxBits]; omega)]

/-- A symbol on the way. -/
theorem insertEntry_leafOnPath (h : ArenaWf cfg a) (h1 : 1 ≤ entryLen cfg ctab t i) (h32 : entryLen cfg ctab t i ≤ 32)
    (hj : j < entryLen cfg ctab t i) (hl : leadsTo a ((entryBits cfg ctab t i).take j) w) :
    insertEntry cfg ctab t i a = .raised (entryError .leafOnPath cfg ctab t i) := by
  obtain ⟨m, nd, hw, hnd, -, rfl, hsym⟩ := hl
  rw [insertEntry_walk h1 h32, insertWalk_leafOnPath h hj hw hnd hsym, Result.bind_raised]
  rfl

/-- Where the whole path exists, the walk ends at its node and changes nothing. -/
theorem insertEntry_existing (h : ArenaWf cfg a) (h1 : 1 ≤ entryLen cfg ctab t i) (h32 : entryLen cfg ctab t i ≤ 32)
    (hw : walk a (entryBits cfg ctab t i) 0 = some k) :
    insertEntry cfg ctab t i a =
      storeLeaf (BitVec.ofNat 32 i) (entryLenWord cfg ctab t i) (entryCode cfg ctab t i) a k := by
  rw [insertEntry_walk h1 h32, insertWalk_existing (k' := k) ?_ hw, Result.bind_ok]
  intro j hj m nd hm hnd
  exact h.inner_leaf hw (by rwa [entryBits_length]) hm hnd

/-- A last node with a child. -/
theorem insertEntry_internalAtLeaf (h : ArenaWf cfg a) (h1 : 1 ≤ entryLen cfg ctab t i) (h32 : entryLen cfg ctab t i ≤ 32)
    (hw : walk a (entryBits cfg ctab t i) 0 = some k) (hnd : a[k]? = some nd) (hc : nd.childless = false) :
    insertEntry cfg ctab t i a = .raised (entryError .internalAtLeaf cfg ctab t i) := by
  rw [insertEntry_existing h h1 h32 hw, storeLeaf]
  simp only [hnd]
  rw [if_pos (Node.childless_or.2 hc)]
  rfl

/-- A last node with a symbol. -/
theorem insertEntry_duplicateCode (h : ArenaWf cfg a) (h1 : 1 ≤ entryLen cfg ctab t i) (h32 : entryLen cfg ctab t i ≤ 32)
    (hl : leadsTo a (entryBits cfg ctab t i) w) :
    insertEntry cfg ctab t i a = .raised (entryError .duplicateCode cfg ctab t i) := by
  obtain ⟨k, nd, hw, hnd, hc, rfl, hsym⟩ := hl
  rw [insertEntry_existing h h1 h32 hw, storeLeaf]
  simp only [hnd]
  rw [if_neg (by rw [Node.childless_or, hc]; decide), if_pos hsym]
  rfl

/-- Too little room for the missing nodes. -/
theorem insertEntry_arenaFull (h : ArenaWf cfg a) (hp : cfg.nodeMax ≤ 2 ^ 32 - 1) (h1 : 1 ≤ entryLen cfg ctab t i)
    (h32 : entryLen cfg ctab t i ≤ 32) (hd : d < entryLen cfg ctab t i)
    (hw : walk a ((entryBits cfg ctab t i).take d) 0 = some m)
    (hleave : walk a ((entryBits cfg ctab t i).take (d + 1)) 0 = none)
    (hfree : ∀ w, ¬ leadsTo a ((entryBits cfg ctab t i).take d) w)
    (hfull : cfg.nodeMax < a.length + (entryLen cfg ctab t i - d)) :
    insertEntry cfg ctab t i a = .raised (entryError .arenaFull cfg ctab t i) := by
  obtain ⟨nd, hnd⟩ : ∃ nd, a[m]? = some nd := ⟨_, List.getElem?_eq_getElem (h.walk_range h.nonempty hw).2⟩
  have hl : nd.leaf = undefinedLeaf := by
    by_contra hsym
    exact hfree nd.leaf ⟨m, nd, hw, hnd, h.symbol_childless hnd hsym, rfl, hsym⟩
  rw [insertEntry_walk h1 h32, insertWalk_arenaFull (h.preWf hp) h hd hw hleave hnd hl hfull, Result.bind_raised]
  rfl

/-- The new nodes of a code that leaves the tree after `d` bits, and the paths that were there before (R152). -/
theorem insertEntry_numbers (h : ArenaWf cfg a) (hp : cfg.nodeMax ≤ 2 ^ 32 - 1) (h1 : 1 ≤ entryLen cfg ctab t i)
    (h32 : entryLen cfg ctab t i ≤ 32) (hd : d < entryLen cfg ctab t i)
    (hw : walk a ((entryBits cfg ctab t i).take d) 0 = some m)
    (hleave : walk a ((entryBits cfg ctab t i).take (d + 1)) 0 = none) (hi : insertEntry cfg ctab t i a = .ok a') :
    a'.length = a.length + (entryLen cfg ctab t i - d) ∧
    (∀ bs k, walk a bs 0 = some k → walk a' bs 0 = some k) ∧
    ∀ j, d ≤ j → j < entryLen cfg ctab t i →
      walk a' ((entryBits cfg ctab t i).take (j + 1)) 0 = some (a.length + (j - d)) := by
  rw [insertEntry_walk h1 h32] at hi
  obtain ⟨⟨a1, k⟩, hwalk, hstore⟩ := Result.bind_eq_ok.1 hi
  obtain ⟨nd, hk, -, -, rfl⟩ := storeLeaf_ok hstore
  obtain ⟨-, hext, -⟩ := insertWalk_ok (h.preWf hp) hwalk
  obtain ⟨hlen, hpath⟩ := insertWalk_numbers (h.preWf hp) hd hw hleave hwalk
  refine ⟨by rw [List.length_set]; exact hlen, fun bs k' hbs => ?_, fun j hdj hj => ?_⟩
  · rw [walk_set_leaf hk]
    exact hext.walk hbs
  · rw [walk_set_leaf hk]
    exact hpath j hdj hj

/-- Insert completes where the code leaves the tree at a node without symbol, and the missing nodes fit. -/
theorem insertEntry_completes (h : ArenaWf cfg a) (hp : cfg.nodeMax ≤ 2 ^ 32 - 1) (h1 : 1 ≤ entryLen cfg ctab t i)
    (h32 : entryLen cfg ctab t i ≤ 32) (hd : d < entryLen cfg ctab t i)
    (hw : walk a ((entryBits cfg ctab t i).take d) 0 = some m)
    (hleave : walk a ((entryBits cfg ctab t i).take (d + 1)) 0 = none)
    (hfree : ∀ w, ¬ leadsTo a ((entryBits cfg ctab t i).take d) w)
    (hroom : a.length + (entryLen cfg ctab t i - d) ≤ cfg.nodeMax) : ∃ a', insertEntry cfg ctab t i a = .ok a' := by
  have hlen : (entryBits cfg ctab t i).length = entryLen cfg ctab t i := entryBits_length i
  refine insert_completes h hp ⟨h1, h32⟩ (fun d' m' _ hw' hleave' => ?room) (fun j hj w hl => ?noSymbol) ?leaves
  case room =>
    obtain rfl := leave_unique hw hleave hw' hleave'
    exact hroom
  case noSymbol =>
    obtain hjd | rfl | hdj := Nat.lt_trichotomy j d
    · have hsplit : (entryBits cfg ctab t i).take d =
          (entryBits cfg ctab t i).take j ++ ((entryBits cfg ctab t i).take d).drop j := by
        conv_lhs => rw [← List.take_append_drop j ((entryBits cfg ctab t i).take d)]
        rw [List.take_take, Nat.min_eq_left hjd.le]
      rw [hsplit] at hw
      have hstop := congrArg List.length (leadsTo_stop hl hw)
      rw [List.length_drop, List.length_take, hlen, List.length_nil] at hstop
      omega
    · exact hfree w hl
    · obtain ⟨m', nd, hm', -⟩ := hl
      obtain ⟨m'', hm''⟩ := walk_take_of_le (Nat.succ_le_of_lt hdj) hm'
      cases hleave.symm.trans hm''
  case leaves =>
    cases hx : walk a (entryBits cfg ctab t i) 0 with
    | none => exact hx
    | some k =>
      rw [← List.take_length (l := entryBits cfg ctab t i), hlen] at hx
      obtain ⟨m', hm'⟩ := walk_take_of_le (Nat.succ_le_of_lt hd) hx
      cases hleave.symm.trans hm'

end Entry

/-! ### HT.INSERT -/

section Command

variable {s : State} {t : Fin 3} {idx : BitVec 16} {a : List Node} {c : Cause}

theorem exec_htInsert (hidx : idx.toNat < s.cfg.tabEntries) :
    exec (.htInsert t idx) s =
      finish s ((insertEntry s.cfg s.ctab t idx.toNat s.arena).bind fun a => .ok (s.setArena a)) := by
  simp only [exec, execHtInsert, tableEntry_inside hidx, Result.bind_ok, insertEntry, BitVec.ofNat_toNat]
  rfl

theorem exec_htInsert_ok (hidx : idx.toNat < s.cfg.tabEntries)
    (h : insertEntry s.cfg s.ctab t idx.toNat s.arena = .ok a) : exec (.htInsert t idx) s = .next { s with arena := a } := by
  rw [exec_htInsert hidx, h]
  rfl

theorem exec_htInsert_raised (hidx : idx.toNat < s.cfg.tabEntries)
    (h : insertEntry s.cfg s.ctab t idx.toNat s.arena = .raised (entryError c s.cfg s.ctab t idx.toNat)) :
    exec (.htInsert t idx) s = .next (afterError s c.code c.sub idx.toNat (entryLen s.cfg s.ctab t idx.toNat)
      (entryCode s.cfg s.ctab t idx.toNat).toNat) := by
  have hsym : (BitVec.ofNat 32 idx.toNat).toNat = idx.toNat := toNat_word_ofNat (by have := idx.isLt; omega)
  rw [exec_htInsert hidx, h, Result.bind_raised, finish_raised, entryError, insertError,
    State.takeError_eq_afterError, hsym, entryLenWord_toNat]

theorem encode_htInsert (t : Fin 3) (idx : BitVec 16) :
    encode (.htInsert t idx) = 0x21000000#32 ||| (BitVec.ofNat 32 t.val <<< 16) ||| idx.setWidth 32 := by
  have hp : Opcode.pattern .htInsert = 0x21000000#32 := by decide
  rw [← hp, BitVec.or_assoc]
  rfl

/-- Settles O35: the error is decided where the code's path meets the tree. -/
theorem htInsertRaisesEachTableError : Obligations.HtInsertRaisesEachTableError := by
  intro s t idx hwf htree hidx
  refine ⟨fun hlen => exec_htInsert_raised hidx (insertEntry_badLength hlen), fun h1 h32 => ⟨fun j w hj hl => ?leafOnPath,
    fun k nd hw hnd hc => ?internalAtLeaf, fun w hl => ?duplicateCode, fun d hd hw hleave hfree hfull => ?arenaFull⟩⟩
  case leafOnPath => exact exec_htInsert_raised hidx (insertEntry_leafOnPath htree h1 h32 hj hl)
  case internalAtLeaf => exact exec_htInsert_raised hidx (insertEntry_internalAtLeaf htree h1 h32 hw hnd hc)
  case duplicateCode => exact exec_htInsert_raised hidx (insertEntry_duplicateCode htree h1 h32 hl)
  case arenaFull =>
    obtain ⟨m, hw⟩ := hw
    exact exec_htInsert_raised hidx (insertEntry_arenaFull htree hwf.2.2.2.2 h1 h32 hd hw hleave hfree hfull)

/-- Settles O34: Insert completes, its nodes are numbered along the path, and `insert_ok` says which codes the tree then
has. -/
theorem htInsertAddsItsCode : Obligations.HtInsertAddsItsCode := by
  intro s t idx d hwf htree hidx h32 hd hw hleave hfree hroom
  obtain ⟨m, hw⟩ := hw
  have h1 : 1 ≤ entryLen s.cfg s.ctab t idx.toNat := by omega
  have hsym : (BitVec.ofNat 32 idx.toNat).toNat = idx.toNat := toNat_word_ofNat (by have := idx.isLt; omega)
  obtain ⟨a, ha⟩ := insertEntry_completes htree hwf.2.2.2.2 h1 h32 hd hw hleave hfree hroom
  obtain ⟨hlen, hkept, hnumbers⟩ := insertEntry_numbers htree hwf.2.2.2.2 h1 h32 hd hw hleave ha
  obtain ⟨-, hspec⟩ := insert_ok htree hwf.2.2.2.2 hwf.2.2.1.2 (by rw [hsym]; exact hidx) ha
  rw [codeBits_entry, BitVec.ofNat_toNat] at hspec
  refine ⟨encode_htInsert t idx, a, exec_htInsert_ok hidx ha, hspec.wf, hlen, hkept, fun j hdj hj => ?numbers,
    fun bs w => ⟨hspec.only bs w, ?codes⟩⟩
  case numbers =>
    obtain ⟨j, rfl⟩ : ∃ j', j = j' + 1 := ⟨j - 1, by omega⟩
    rw [hnumbers j (by omega) (by omega)]
    congr 2
    omega
  case codes =>
    rintro (hold | ⟨rfl, rfl⟩)
    · exact hspec.old bs w hold
    · exact hspec.new

end Command

end Sys2Proof.Machine
end

section
/-! HT.BUILD (R153, R156, R159): the tree of a table that is accepted, and the error of the first entry that is not. -/

namespace Sys2Proof.Machine

section Build

variable {cfg : Config} {ctab : Memory 32} {t : Fin 3} {i j n fuel : Nat} {a : List Node} {e : Raise}

/-- One turn of the loop of Build, on entries instead of words (R153). -/
theorem buildLoop_entry (hi : i < cfg.tabEntries) (hne : entryLen cfg ctab t i ≠ 0) :
    buildLoop cfg ctab t (fuel + 1) i a =
      (insertEntry cfg ctab t i a).bind fun a' => buildLoop cfg ctab t fuel (i + 1) a' := by
  rw [buildLoop_succ hi, if_neg (mt entryLen_eq_zero.2 hne)]
  rfl

/-- The symbols of the tree of the first `n` entries are different: a symbol has one code, which leads to one node
(R61 (f)). -/
theorem BuiltTo.symbolsOnce (h : BuiltTo cfg ctab t n a) (hc : cfg.wf) (hn : n ≤ cfg.tabEntries) : symbolsOnce a := by
  intro j k nj nk hj hk hsym heq
  obtain ⟨i, hi, hleaf, hwalk⟩ := h.symbols j nj hj hsym
  obtain ⟨i', hi', hleaf', hwalk'⟩ := h.symbols k nk hk (heq ▸ hsym)
  have hword := congrArg BitVec.toNat (hleaf.symm.trans (heq.trans hleaf'))
  rw [ofNat_toNat_of_entry hc.2.2.1.2 (by omega), ofNat_toNat_of_entry hc.2.2.1.2 (by omega)] at hword
  subst hword
  exact Option.some.inj (hwalk.symm.trans hwalk')

/-- Where the entries before entry `n` are a code whose nodes fit the arena, the error of Insert on entry `n` in their
tree is the error of Build. -/
theorem build_raised_at (hc : cfg.wf) (hn : n < cfg.tabEntries)
    (hl : ∀ i, i < n → 1 ≤ entryLen cfg ctab t i ∧ entryLen cfg ctab t i ≤ 32)
    (hf : ∀ i j, i < n → j < n → i ≠ j → ¬ entryBits cfg ctab t i <+: entryBits cfg ctab t j)
    (hr : nodesNeeded cfg ctab t n ≤ cfg.nodeMax) :
    ∃ a, BuiltTo cfg ctab t n a ∧
      ∀ e, entryLen cfg ctab t n ≠ 0 → insertEntry cfg ctab t n a = .raised e → build cfg ctab t = .raised e := by
  obtain ⟨a, hbuilt, hbuild⟩ := build_reaches hc hn.le hl hf hr
  refine ⟨a, hbuilt, fun e hne he => ?_⟩
  obtain ⟨fuel, hfuel⟩ : ∃ fuel, cfg.tabEntries - n = fuel + 1 := ⟨cfg.tabEntries - n - 1, by omega⟩
  rw [hbuild, hfuel, buildLoop_entry hn hne, he, Result.bind_raised]

/-- A code that is a proper first part of entry `n`'s puts its symbol on the path. -/
theorem BuiltTo.insert_leafOnPath (h : BuiltTo cfg ctab t n a) (h1 : 1 ≤ entryLen cfg ctab t n)
    (h32 : entryLen cfg ctab t n ≤ 32) (hj : j < n) (hp : entryBits cfg ctab t j <+: entryBits cfg ctab t n)
    (hne : entryBits cfg ctab t j ≠ entryBits cfg ctab t n) :
    insertEntry cfg ctab t n a = .raised (entryError .leafOnPath cfg ctab t n) := by
  have hlt : (entryBits cfg ctab t j).length < entryLen cfg ctab t n := by
    rw [← entryBits_length]
    exact Nat.lt_of_le_of_ne hp.length_le fun heq => hne (hp.eq_of_length heq)
  have hcode := h.codes j hj
  rw [List.prefix_iff_eq_take.1 hp] at hcode
  exact insertEntry_leafOnPath h.wf h1 h32 hlt hcode

/-- A code of which entry `n`'s is a proper first part gives its last node a child. -/
theorem BuiltTo.insert_internalAtLeaf (h : BuiltTo cfg ctab t n a) (h1 : 1 ≤ entryLen cfg ctab t n)
    (h32 : entryLen cfg ctab t n ≤ 32) (hj : j < n) (hp : entryBits cfg ctab t n <+: entryBits cfg ctab t j)
    (hne : entryBits cfg ctab t n ≠ entryBits cfg ctab t j) :
    insertEntry cfg ctab t n a = .raised (entryError .internalAtLeaf cfg ctab t n) := by
  obtain ⟨rest, hrest⟩ := hp
  obtain ⟨k, -, hwalk, -⟩ := h.codes j hj
  rw [← hrest] at hwalk
  obtain ⟨m, hm, hwalk⟩ := walk_append.1 hwalk
  cases rest with
  | nil => exact absurd (by rw [← hrest, List.append_nil]) hne
  | cons b rest =>
    obtain ⟨nd, hnd, hb, -⟩ := walk_cons.1 hwalk
    exact insertEntry_internalAtLeaf h.wf h1 h32 hm hnd (Node.not_childless hb)

/-- Where no code conflicts with entry `n`'s, too little room for the nodes of both is all that stops it. -/
theorem BuiltTo.insert_arenaFull (h : BuiltTo cfg ctab t n a) (hp : cfg.nodeMax ≤ 2 ^ 32 - 1)
    (h1 : 1 ≤ entryLen cfg ctab t n) (h32 : entryLen cfg ctab t n ≤ 32)
    (hfree : ∀ j, j < n → ¬ entryBits cfg ctab t j <+: entryBits cfg ctab t n ∧
      ¬ entryBits cfg ctab t n <+: entryBits cfg ctab t j)
    (hfull : cfg.nodeMax < nodesNeeded cfg ctab t (n + 1)) :
    insertEntry cfg ctab t n a = .raised (entryError .arenaFull cfg ctab t n) := by
  have hleaves : walk a (entryBits cfg ctab t n) 0 = none := by
    cases hw : walk a (entryBits cfg ctab t n) 0 with
    | none => rfl
    | some k =>
      obtain hnil | ⟨j, hj, hpath⟩ := mem_codePaths.1 (h.path_iff.1 ⟨k, hw⟩)
      · rw [← entryBits_length, hnil, List.length_nil] at h1
        omega
      · exact absurd hpath (hfree j hj).2
  obtain ⟨d, m, hd, hw, hleave⟩ := exists_leave hleaves
  rw [entryBits_length] at hd
  have hroom := h.length_next hp hd hw hleave
  refine insertEntry_arenaFull h.wf hp h1 h32 hd hw hleave (fun w hl => ?_) (by omega)
  obtain ⟨j, hj, hbits, -⟩ := h.only _ w hl
  exact (hfree j hj).1 (hbits ▸ List.take_prefix d _)

end Build

section Command

variable {s : State} {t : Fin 3} {e : Raise} {n : Nat} {c : Cause}

theorem exec_htBuild_raised (h : build s.cfg s.ctab t = .raised e) : exec (.htBuild t) s = .next (s.takeError e) := by
  simp only [exec, execHtBuild, h, Result.bind_raised, finish_raised]

theorem exec_htBuild_entryError (hwf : s.cfg.wf) (hn : n < s.cfg.tabEntries)
    (h : build s.cfg s.ctab t = .raised (entryError c s.cfg s.ctab t n)) :
    exec (.htBuild t) s = .next (afterError s c.code c.sub n (entryLen s.cfg s.ctab t n)
      (entryCode s.cfg s.ctab t n).toNat) := by
  rw [exec_htBuild_raised h, entryError, insertError, State.takeError_eq_afterError,
    ofNat_toNat_of_entry hwf.2.2.1.2 hn, entryLenWord_toNat]

theorem encode_htBuild (t : Fin 3) : encode (.htBuild t) = 0x22000000#32 ||| BitVec.ofNat 32 t.val := by
  have hp : Opcode.pattern .htBuild = 0x22000000#32 := by decide
  rw [← hp]
  rfl

/-- Settles O36: Build completes, and the tree it makes has exactly the codes of the entries. -/
theorem htBuildCompletesOnPrefixTables : Obligations.HtBuildCompletesOnPrefixTables := by
  intro s t n hwf htable hroom
  obtain ⟨a, ha⟩ := build_completes hwf htable hroom
  obtain ⟨hbuilt, -⟩ := build_ok hwf ha
  refine ⟨encode_htBuild t, a, exec_of_completes ⟨a, n, ha, rfl⟩, hbuilt.wf, hbuilt.symbolsOnce hwf htable.room.le,
    fun bs w => ⟨hbuilt.only bs w, ?codes⟩⟩
  case codes =>
    rintro ⟨i, hi, rfl, rfl⟩
    exact hbuilt.codes i hi

/-- Settles O37: RES holds the number of codes, which is below TAB_ENTRIES and so is not reduced. -/
theorem htBuildAcceptsOnlyPrefixTables : Obligations.HtBuildAcceptsOnlyPrefixTables := by
  intro s u t hwf hs hbuild hu
  obtain ⟨a, n, ha, rfl⟩ := completes_of_err_false hbuild hu
  obtain ⟨hbuilt, htable⟩ := build_ok hwf ha
  have hcount : (BitVec.ofNat 32 n).toNat = n := ofNat_toNat_of_entry hwf.2.2.1.2 htable.room
  simp only [State.setRes_res, State.setRes_arena, State.setArena_arena, hcount]
  exact ⟨htable, hbuilt.wf, hbuilt.symbolsOnce hwf htable.room.le, hbuilt.size, rfl⟩

/-- Settles O38: Build reaches the end of the table, and finds no entry left for the sentinel. -/
theorem htBuildNeedsASentinel : Obligations.HtBuildNeedsASentinel := by
  intro s t hwf hroom hlengths hfree
  obtain ⟨a, -, hbuild⟩ := build_reaches hwf (Nat.le_refl _) hlengths hfree hroom
  rw [Nat.sub_self] at hbuild
  exact exec_htBuild_raised hbuild

/-- Settles O57: Build inserts entry `n` in the tree of the entries before it, so its error is that of Insert there. -/
theorem htBuildRaisesTheFirstFailingEntry : Obligations.HtBuildRaisesTheFirstFailingEntry := by
  intro s t n hwf hn hlengths hfree hroom
  obtain ⟨a, hbuilt, hraised⟩ := build_raised_at hwf hn hlengths hfree hroom
  refine ⟨fun h32 => ?badLength, fun h1 h32 => ?legalLength⟩
  case badLength =>
    exact exec_htBuild_entryError hwf hn (hraised _ (by omega) (insertEntry_badLength (.inr h32)))
  case legalLength =>
    have hne : entryLen s.cfg s.ctab t n ≠ 0 := by omega
    refine ⟨fun j hj hp hdiff => ?leafOnPath, fun j hj hp hdiff => ?internalAtLeaf, fun j hj heq => ?duplicateCode,
      fun hnone hfull => ?arenaFull⟩
    case leafOnPath => exact exec_htBuild_entryError hwf hn (hraised _ hne (hbuilt.insert_leafOnPath h1 h32 hj hp hdiff))
    case internalAtLeaf =>
      exact exec_htBuild_entryError hwf hn (hraised _ hne (hbuilt.insert_internalAtLeaf h1 h32 hj hp hdiff))
    case duplicateCode =>
      have hcode := heq ▸ hbuilt.codes j hj
      exact exec_htBuild_entryError hwf hn (hraised _ hne (insertEntry_duplicateCode hbuilt.wf h1 h32 hcode))
    case arenaFull =>
      exact exec_htBuild_entryError hwf hn
        (hraised _ hne (hbuilt.insert_arenaFull hwf.2.2.2.2 h1 h32 hnone hfull))

end Command

end Sys2Proof.Machine
end

section
/-! PL.RESID and the coding of residuals (R171, R172). -/

namespace Sys2Proof.Machine

section Coding

variable {c v v' : Nat}

/-- A nonzero size category: the top bit tells the positive residuals from the negative ones (R171). -/
theorem residualOf_succ (h : v < 2 ^ (c + 1)) :
    residualOf (c + 1) v = if 2 ^ c ≤ v then (v : Int) else (v : Int) - (2 * (2 ^ c : Nat) - 1) := by
  have top : v.testBit c = decide (2 ^ c ≤ v) := by
    by_cases hv : 2 ^ c ≤ v
    · rw [Nat.testBit_of_two_pow_le_and_two_pow_add_one_gt hv h, decide_eq_true hv]
    · rw [Nat.testBit_lt_two_pow (by omega), decide_eq_false hv]
  simp [residualOf, top, Int.pow_succ']

/-- The absolute value of a residual of size category `c` has exactly `c` bits. -/
theorem size_natAbs_residualOf (h : v < 2 ^ c) : (residualOf c v).natAbs.size = c := by
  cases c with
  | zero => rfl
  | succ c =>
    have bounds : 2 ^ c ≤ (residualOf (c + 1) v).natAbs ∧ (residualOf (c + 1) v).natAbs < 2 ^ (c + 1) := by
      rw [residualOf_succ h]
      split <;> omega
    exact Nat.le_antisymm (Nat.size_le.2 bounds.2) (Nat.lt_size.2 bounds.1)

/-- In one size category different bits stand for different residuals. -/
theorem residualOf_injective (h : v < 2 ^ c) (h' : v' < 2 ^ c) (he : residualOf c v = residualOf c v') : v = v' := by
  cases c with
  | zero => omega
  | succ c =>
    rw [residualOf_succ h, residualOf_succ h'] at he
    split at he <;> split at he <;> omega

/-- Every integer is a residual of the size category that its absolute value asks for. -/
theorem exists_residualOf (d : Int) : ∃ v, v < 2 ^ d.natAbs.size ∧ residualOf d.natAbs.size v = d := by
  have hlt := Nat.lt_size_self d.natAbs
  cases hc : d.natAbs.size with
  | zero => exact ⟨0, by decide, by rw [Nat.size_eq_zero] at hc; rw [residualOf_zero]; omega⟩
  | succ c =>
    have hge : 2 ^ c ≤ d.natAbs := Nat.lt_size.1 (by omega)
    rw [hc] at hlt
    by_cases hd : 0 ≤ d
    · have hv : d.toNat < 2 ^ (c + 1) := by omega
      exact ⟨d.toNat, hv, by rw [residualOf_succ hv, if_pos (by omega)]; omega⟩
    · have hv : (d + (2 * (2 ^ c : Nat) - 1)).toNat < 2 ^ (c + 1) := by omega
      exact ⟨_, hv, by rw [residualOf_succ hv, if_neg (by omega)]; omega⟩

/-- The residuals of the categories that R171 allows. -/
theorem residualOf_range_of_le (hc : c ≤ 16) (h : v < 2 ^ c) : -65535 ≤ residualOf c v ∧ residualOf c v ≤ 65535 := by
  have hr := residualOf_range h
  have hp : (2 : Int) ^ c ≤ 2 ^ 16 := pow_le_pow_right₀ (by decide) hc
  omega

end Coding

/-- Settles O45: the size category of a residual is the number of bits of its absolute value. -/
theorem everyResidualHasOneCoding : Obligations.EveryResidualHasOneCoding := by
  refine ⟨fun c v hc hv => residualOf_range_of_le hc hv, fun d hlo hhi => ?_⟩
  obtain ⟨v, hv, he⟩ := exists_residualOf d
  refine ⟨_, v, ⟨Nat.size_le.2 (by omega), hv, he⟩, Nat.lt_size_self _, fun hc => Nat.lt_size.1 (by omega), ?_⟩
  rintro c' v' - hv' rfl
  have hc := size_natAbs_residualOf hv'
  rw [hc] at hv he
  exact ⟨hc.symm, residualOf_injective hv' hv he.symm⟩

/-! ### PL.RESID -/

/-- The value of a read has the stream bits in the order of the read (R131). -/
theorem testBit_streamBits {n i : Nat} (ibuf : Memory 8) (pos : Nat) (order : BitOrder) (h : i < n) :
    (streamBits ibuf n pos order).testBit (match order with | .msb => n - 1 - i | .lsb => i) =
      streamBit ibuf (pos + i) order := by
  obtain ⟨j, rfl⟩ : ∃ j, n = i + j + 1 := ⟨n - 1 - i, by omega⟩
  cases order with
  | msb => rw [show i + j + 1 - 1 - i = j by omega]; exact testBit_bitsMsb ibuf pos i j
  | lsb => exact testBit_bitsLsb ibuf pos i j

/-- RES holds every residual exactly (R33). -/
theorem s32_ofInt {d : Int} (hlo : -65535 ≤ d) (hhi : d ≤ 65535) : s32 (BitVec.ofInt 32 d) = d := by
  rw [s32, BitVec.toInt_ofInt, Int.bmod_eq_of_le] <;> omega

section Commands

variable {s : State} {n : Nat} {sym : Word} {e : Raise}

theorem exec_plResid_raised (h : resid s.cfg s.ibuf s.arena s.blim.toNat s.order s.bpos.toNat = .raised e) :
    exec .plResid s = .next (s.takeError e) := by
  simp only [exec, execPlResid, h, Result.bind_raised, finish_raised]

/-- Where the stream leads to a size category of at most 16, PL.RESID goes on to its further bits. -/
theorem resid_leadsTo {cfg : Config} {ibuf : Memory 8} {arena : List Node} {lim pos : Nat} {order : BitOrder}
    (ht : ArenaWf cfg arena) (hn : pos + n + sym.toNat ≤ lim) (hi : lim ≤ 8 * cfg.ibufBytes)
    (h : leadsTo arena (streamList ibuf order pos n) sym) (hs : sym.toNat ≤ 16) :
    resid cfg ibuf arena lim order pos =
      .ok (residualOf sym.toNat (streamBits ibuf sym.toNat (pos + n) order), pos + n + sym.toNat) :=
  resid_eq_ok.2 ⟨sym, pos + n, descend_leadsTo ht (by omega) (by omega) h, hs, .inr ⟨hn, hn.trans hi⟩, rfl, rfl⟩

/-- Settles O43. -/
theorem plResidReadsASizedResidual : Obligations.PlResidReadsASizedResidual := by
  intro s n sym ht hw h hsym hn
  refine ⟨rfl, ?_⟩
  have hv : streamBits s.ibuf sym.toNat (s.bpos.toNat + n) s.order < 2 ^ sym.toNat := streamBits_lt
  obtain ⟨hlo, hhi⟩ := residualOf_range_of_le hsym hv
  refine ⟨_, _, BitVec.ofNat 32 (s.bpos.toNat + n + sym.toNat),
    exec_of_completes ⟨_, _, resid_leadsTo ht hn hw h hsym, rfl⟩, toNat_word_ofNat (hn.trans_lt s.blim.isLt),
    s32_ofInt hlo hhi, hv, fun i hi => testBit_streamBits _ _ _ hi, fun h0 => ?zero, fun h0 hb => ?positive,
    fun h0 hb => ?negative⟩
  case zero => rw [h0]; rfl
  case positive => simp [residualOf, h0, hb]
  case negative => simp [residualOf, h0, hb]

/-- Settles O44: Resid raises what Descend raises, and its own two errors after a code (R171). -/
theorem plResidRaises : Obligations.PlResidRaises := by
  intro s ht hw herr
  refine ⟨fun t hexec hterr => ?_, fun n sym hn h => ?_⟩
  · rcases finish_eq_next.1 hexec with hok | ⟨e, hr, rfl⟩
    · obtain ⟨⟨sym, pos⟩, -, hok⟩ := Result.bind_eq_ok.1 hok
      cases hok
      exact absurd hterr (by simp [herr])
    · rcases Result.bind_eq_raised.1 hr with hd | ⟨_, -, hr⟩
      · exact exec_plResid_raised (by rw [resid, hd, Result.bind_raised])
      · cases hr
  · have hd := descend_leadsTo ht hn (hn.trans hw) h
    refine ⟨fun hbig => ?_, fun hsmall hpast => ?_⟩
    · rw [exec_plResid_raised (e := { cause := .badSizeSymbol, pos := s.bpos.toNat, exp := 16, fnd := sym.toNat })]
      · rfl
      · simp only [resid, hd, Result.bind_ok, residMaxBits, if_pos hbig]
    · rw [exec_plResid_raised (e := { cause := .truncatedStream, pos := s.bpos.toNat + n, exp := sym.toNat, fnd := _ })]
      · rfl
      · simp only [resid, hd, Result.bind_ok, residMaxBits, if_neg (show ¬ 16 < sym.toNat by omega),
          if_neg (show sym.toNat ≠ 0 by omega), readBits_past hpast, Result.bind_raised]

end Commands

end Sys2Proof.Machine
end

section
/-! The samples of one plane in row-major order, and what PlaneBody makes of them (R176). -/

namespace Sys2Proof.Machine

section Samples

variable {residAt : Nat → Result (Int × Nat)} {seed row n col cols left pos0 j : Nat} {pos v : Nat → Nat} {e : Raise}

/-- The first `n` samples in row-major order decode: sample `i` starts at bit `pos i` and has value `v i`. -/
def SamplesDecode (residAt : Nat → Result (Int × Nat)) (seed cols n : Nat) (pos v : Nat → Nat) : Prop :=
  ∀ i, i < n → decodeSample residAt seed (i % cols) (v (i - 1)) (pos i) = .ok (v i, pos (i + 1))

/-- The samples `v` of `n` rows as PlaneBody stages them. -/
def sampleRows (cols n : Nat) (v : Nat → Nat) : List (List Half) :=
  (List.range n).map fun r => (List.range cols).map fun c => BitVec.ofNat 16 (v (r * cols + c))

theorem sampleRows_succ (cols n : Nat) (v : Nat → Nat) :
    sampleRows cols (n + 1) v =
      ((List.range cols).map fun c => BitVec.ofNat 16 (v c)) :: sampleRows cols n (fun i => v (cols + i)) := by
  simp only [sampleRows, List.range_succ_eq_map, List.map_cons, List.map_map, Nat.zero_mul, Nat.zero_add,
    Function.comp_def, Nat.succ_mul]
  congr 3
  funext r
  congr 2
  funext c
  rw [show r * cols + cols + c = cols + (r * cols + c) by omega]

/-- In the column loop a row begins with no sample to its left, which its predictor does not read. -/
theorem decodeSample_rowStart (residAt : Nat → Result (Int × Nat)) (seed : Nat) (v : Nat → Nat) (i p : Nat) :
    decodeSample residAt seed (0 + i) (if i = 0 then 0 else v (i - 1)) p = decodeSample residAt seed i (v (i - 1)) p := by
  rw [Nat.zero_add]
  split
  · exact decodeSample_left (by omega) _
  · rfl

/-- A row further on, the samples are numbered from its first one. -/
theorem decodeSample_nextRow (residAt : Nat → Result (Int × Nat)) (seed cols : Nat) (v : Nat → Nat) (i p : Nat) :
    decodeSample residAt seed (i % cols) (v (cols + (i - 1))) p =
      decodeSample residAt seed ((cols + i) % cols) (v (cols + i - 1)) p := by
  rw [Nat.add_mod_left]
  by_cases hi : i = 0
  · subst hi
    exact decodeSample_left (by simp) _
  · rw [show cols + (i - 1) = cols + i - 1 by omega]

theorem SamplesDecode.mono {m : Nat} (h : SamplesDecode residAt seed cols n pos v) (hm : m ≤ n) :
    SamplesDecode residAt seed cols m pos v := fun i hi => h i (hi.trans_le hm)

theorem SamplesDecode.nextRow (h : SamplesDecode residAt seed cols (cols + n) pos v) :
    SamplesDecode residAt seed cols n (fun i => pos (cols + i)) (fun i => v (cols + i)) :=
  fun i hi => (decodeSample_nextRow residAt seed cols v i _).trans (h (cols + i) (by omega))

/-- The samples of the first row are what the column loop decodes. -/
theorem SamplesDecode.decodeRow (h : SamplesDecode residAt seed cols cols pos v) :
    decodeRow residAt seed row cols 0 0 (pos 0) =
      .ok ((List.range cols).map (fun c => BitVec.ofNat 16 (v c)), pos cols) := by
  refine decodeRow_eq_ok.2 ⟨pos, v, rfl, rfl, rfl, fun i hi => ?_⟩
  rw [decodeSample_rowStart, ← h i hi, Nat.mod_eq_of_lt hi]

/-- Where every sample decodes, the row loop answers them, and the position after the last one. -/
theorem SamplesDecode.decodeRows (h : SamplesDecode residAt seed cols (n * cols) pos v) :
    decodeRows residAt seed cols n row (pos 0) = .ok (sampleRows cols n v, pos (n * cols)) := by
  induction n generalizing row pos v with
  | zero => simp [Machine.decodeRows, sampleRows]
  | succ n ih =>
    rw [Nat.succ_mul, Nat.add_comm] at h
    have hrest : Machine.decodeRows residAt seed cols n (row + 1) (pos cols) =
        .ok (sampleRows cols n (fun i => v (cols + i)), pos (cols + n * cols)) := ih h.nextRow
    rw [Machine.decodeRows, (h.mono (Nat.le_add_right _ _)).decodeRow, Result.bind_ok]
    simp only [hrest, Result.bind_ok]
    rw [sampleRows_succ, Nat.succ_mul, Nat.add_comm cols]

/-- The first sample that raises ends the column loop. -/
theorem decodeRow_of_raised (hj : j < n)
    (hok : ∀ i, i < j → decodeSample residAt seed (col + i) (if i = 0 then left else v (i - 1)) (pos i) = .ok (v i, pos (i + 1)))
    (hr : decodeSample residAt seed (col + j) (if j = 0 then left else v (j - 1)) (pos j) = .raised e) :
    decodeRow residAt seed row n col left (pos 0) = .raised (e.atSample row (col + j)) := by
  induction n generalizing col left j pos v with
  | zero => omega
  | succ n ih =>
    rw [decodeRow]
    cases j with
    | zero =>
      simp only [Nat.add_zero, if_true] at hr
      rw [hr, Result.mapRaise_raised, Result.bind_raised, Nat.add_zero]
    | succ j =>
      have h0 := hok 0 (by omega)
      simp only [Nat.add_zero, if_true] at h0
      have shift : ∀ i q, decodeSample residAt seed (col + 1 + i) (if i = 0 then v 0 else v (i - 1 + 1)) q =
          decodeSample residAt seed (col + (i + 1)) (if i + 1 = 0 then left else v i) q := by
        intro i q
        rw [show col + 1 + i = col + (i + 1) by omega]
        cases i <;> rfl
      have hrest : decodeRow residAt seed row n (col + 1) (v 0) (pos 1) = .raised (e.atSample row (col + 1 + j)) :=
        ih (pos := fun i => pos (i + 1)) (v := fun i => v (i + 1)) (by omega)
          (fun i hi => (shift i _).trans (hok (i + 1) (by omega))) ((shift j _).trans hr)
      simp only [h0, Result.mapRaise_ok, Result.bind_ok, hrest, Result.bind_raised]
      rw [show col + 1 + j = col + (j + 1) by omega]

/-- The first sample that raises ends the row loop, with its row and column in the error. -/
theorem SamplesDecode.decodeRows_raised (h : SamplesDecode residAt seed cols j pos v) (hj : j < n * cols)
    (hr : decodeSample residAt seed (j % cols) (v (j - 1)) (pos j) = .raised e) :
    Machine.decodeRows residAt seed cols n row (pos 0) = .raised (e.atSample (row + j / cols) (j % cols)) := by
  induction n generalizing row pos v j with
  | zero => omega
  | succ n ih =>
    rw [Nat.succ_mul] at hj
    rw [Machine.decodeRows]
    by_cases hrow : j < cols
    · rw [Nat.mod_eq_of_lt hrow, ← decodeSample_rowStart] at hr
      rw [decodeRow_of_raised hrow (fun i hi => ?_) hr, Result.bind_raised, Nat.zero_add, Nat.mod_eq_of_lt hrow,
        Nat.div_eq_of_lt hrow, Nat.add_zero]
      rw [decodeSample_rowStart, ← h i hi, Nat.mod_eq_of_lt (hi.trans hrow)]
    · obtain ⟨k, rfl⟩ : ∃ k, j = cols + k := ⟨j - cols, by omega⟩
      have hc : 0 < cols := Nat.pos_of_ne_zero (by rintro rfl; simp at hj)
      rw [← decodeSample_nextRow] at hr
      have hrest : Machine.decodeRows residAt seed cols n (row + 1) (pos cols) =
          .raised (e.atSample (row + 1 + k / cols) (k % cols)) := ih h.nextRow (by omega) hr
      rw [(h.mono (Nat.le_add_right _ _)).decodeRow, Result.bind_ok]
      simp only [hrest, Result.bind_raised]
      rw [Nat.add_mod_left, Nat.add_div_left _ hc, show row + (k / cols).succ = row + 1 + k / cols by omega]

/-- What a sample raises: what its residual raises, or SAMPLE_OVERFLOW where the exact sum leaves 16 bits (R176). -/
theorem decodeSample_eq_raised {p : Nat} :
    decodeSample residAt seed col left p = .raised e ↔ residAt p = .raised e ∨
      ∃ d p', residAt p = .ok (d, p') ∧
        (((if col < 2 then seed else left : Nat) : Int) + d < 0 ∨ 65535 < ((if col < 2 then seed else left : Nat) : Int) + d) ∧
        e = { cause := .sampleOverflow, pos := p, exp := if col < 2 then seed else left, fnd := (u32 d).toNat } := by
  have hmax : (sampleMax : Int) = 65535 := rfl
  rw [decodeSample, Result.bind_eq_raised]
  generalize (if col < 2 then seed else left) = pred
  refine or_congr_right ⟨?_, ?_⟩
  · rintro ⟨⟨d, p'⟩, hr, h⟩
    simp only [hmax] at h
    split at h
    · next hout => exact ⟨d, p', hr, hout, (Result.raised.inj h).symm⟩
    · cases h
  · rintro ⟨d, p', hr, hout, rfl⟩
    refine ⟨(d, p'), hr, ?_⟩
    simp only [hmax, if_pos hout]

end Samples

/-! ### Plane runs -/

section Runs

variable {s : State} {p : Fin 3} {arena : List Node} {n count : Nat} {pos v : Nat → Nat} {d : Nat → Int} {e : Raise}

/-- The residuals of plane `p` with the tree `arena` (R176). -/
def planeResid (s : State) (p : Fin 3) (arena : List Node) : Nat → Result (Int × Nat) :=
  resid s.cfg s.ibuf arena (8 * (s.paddr[p].toNat + s.psize[p].toNat)) .msb

/-- The residuals of the samples `v`: what each adds to its predictor. -/
def residuals (cols : Nat) (v : Nat → Nat) (j : Nat) : Int :=
  (v j : Int) - (if j % cols < 2 then 512 else (v (j - 1) : Int))

/-- A plane run is a list of samples that decode. -/
theorem PlaneRun.samplesDecode (h : PlaneRun s p arena n pos d v) :
    SamplesDecode (planeResid s p arena) 512 s.cols.toNat n pos v := by
  intro i hi
  refine decodeSample_eq_ok.2 ⟨d i, h.residual i hi, ?_, h.range i hi⟩
  rw [h.value i hi]
  split <;> rfl

theorem planeRun_of_samplesDecode (hb : build s.cfg s.ctab p = .ok (arena, count)) (hpos : pos 0 = 8 * s.paddr[p].toNat)
    (h : SamplesDecode (planeResid s p arena) 512 s.cols.toNat n pos v) :
    PlaneRun s p arena n pos (residuals s.cols.toNat v) v := by
  have sample : ∀ j, j < n → planeResid s p arena (pos j) = .ok (residuals s.cols.toNat v j, pos (j + 1)) ∧ v j ≤ 65535 := by
    intro j hj
    obtain ⟨d, hr, hv, hmax⟩ := decodeSample_eq_ok.1 (h j hj)
    have hd : residuals s.cols.toNat v j = d := by
      rw [residuals, hv]
      split <;> omega
    exact ⟨hd ▸ hr, hmax⟩
  exact ⟨⟨count, hb⟩, hpos, fun j hj => (sample j hj).1, fun j _ => by rw [residuals]; omega, fun j hj => (sample j hj).2⟩

/-- PlaneBody answers a run that fills the image. -/
theorem PlaneRun.planeBody (hseed : s.seed[p].toNat = 512)
    (h : PlaneRun s p arena (s.rows.toNat * s.cols.toNat) pos d v) :
    planeBody s p = .ok
      { samples := sampleRows s.cols.toNat s.rows.toNat v, arena := arena, pos := pos (s.rows.toNat * s.cols.toNat) } := by
  obtain ⟨count, hb⟩ := h.tree
  exact planeBody_eq_ok.2 ⟨hseed, count, hb, by rw [State.planeStart, ← h.start]; exact h.samplesDecode.decodeRows⟩

/-- What PlaneBody raises: the seed's error, the table's, or that of the row loop (R174, R176). -/
theorem planeBody_eq_raised :
    planeBody s p = .raised e ↔
      s.seed[p].toNat ≠ 512 ∧
        e = Raise.inPlane p { cause := .badSeed, pos := s.planeStart p, exp := 512, fnd := s.seed[p].toNat } ∨
      s.seed[p].toNat = 512 ∧ ∃ e', e = Raise.inPlane p e' ∧ (build s.cfg s.ctab p = .raised e' ∨
        ∃ arena count, build s.cfg s.ctab p = .ok (arena, count) ∧
          decodeRows (planeResid s p arena) 512 s.cols.toNat s.rows.toNat 0 (s.planeStart p) = .raised e') := by
  by_cases hs : s.seed[p].toNat = 512
  · simp only [planeBody, seedRequired, hs, ne_eq, not_true_eq_false, if_false, false_and, false_or, true_and,
      Result.mapRaise_eq_raised, Result.bind_eq_raised, Prod.exists, planeResid, reduceCtorEq, and_false, exists_false,
      or_false, State.planeLimit]
    exact exists_congr fun e' => and_comm
  · simp only [planeBody_badSeed hs, seedRequired, hs, ne_eq, not_false_eq_true, true_and, false_and, or_false,
      Result.raised.injEq, eq_comm]

end Runs

end Sys2Proof.Machine
end

section
/-! PL.DECODE and PL.DECODEALL: what they publish, and the error of the first sample that does not decode (R176 to
R179). -/

namespace Sys2Proof.Machine

/-! ### Published samples -/

section Publishing

variable {s : State} {p q : Fin 3} {n cols stride row col a : Nat} {v : Nat → Nat} {m m' : Memory 8}

theorem getElem?_sampleRows (hrow : row < n) (hcol : col < cols) :
    ∃ r, (sampleRows cols n v)[row]? = some r ∧ r[col]? = some (BitVec.ofNat 16 (v (row * cols + col))) :=
  ⟨_, by rw [sampleRows, List.getElem?_map, List.getElem?_range hrow]; rfl,
    by rw [List.getElem?_map, List.getElem?_range hcol]; rfl⟩

theorem length_of_mem_sampleRows {r : List Half} (h : r ∈ sampleRows cols n v) : r.length = cols := by
  obtain ⟨_, -, rfl⟩ := List.mem_map.1 h
  rw [List.length_map, List.length_range]

theorem ofNat_half_low (x : Nat) : (BitVec.ofNat 16 x).extractLsb' 0 8 = BitVec.ofNat 8 (x % 256) := by
  apply BitVec.eq_of_toNat_eq
  simp only [BitVec.extractLsb'_toNat, BitVec.toNat_ofNat, Nat.shiftRight_zero]
  omega

theorem ofNat_half_high (x : Nat) : (BitVec.ofNat 16 x).extractLsb' 8 8 = BitVec.ofNat 8 (x / 256) := by
  apply BitVec.eq_of_toNat_eq
  simp only [BitVec.extractLsb'_toNat, BitVec.toNat_ofNat, Nat.shiftRight_eq_div_pow]
  omega

/-- Commit of the samples `v` of plane `p` into `m` (R178). -/
def publish (s : State) (p : Fin 3) (v : Nat → Nat) (m : Memory 8) : Memory 8 :=
  commitRows s.stride.toNat p 0 (sampleRows s.cols.toNat s.rows.toNat v) m

theorem publish_wf (hm : m.wf = true) : (publish s p v m).wf = true := commitRows_wf hm

theorem publish_read_of_not_sampleByte (ha : ¬ sampleByte s p a) : (publish s p v m).read a = m.read a := by
  refine commitRows_out (fun _ => length_of_mem_sampleRows) fun row col hrow hcol => ?_
  have hrow : row < s.rows.toNat := by simpa [sampleRows] using hrow
  rw [Nat.zero_add]
  exact ⟨fun e => ha ⟨row, col, hrow, hcol, .inl e⟩, fun e => ha ⟨row, col, hrow, hcol, .inr e⟩⟩

/-- Memory `m` holds the samples `v` of plane `p`, little-endian at their addresses (R60, R178). -/
def HoldsPlane (s : State) (p : Fin 3) (v : Nat → Nat) (m : Memory 8) : Prop :=
  ∀ row col, row < s.rows.toNat → col < s.cols.toNat →
    m.read (sampleAddr s.stride.toNat p row col) = BitVec.ofNat 8 (v (row * s.cols.toNat + col) % 256) ∧
    m.read (sampleAddr s.stride.toNat p row col + 1) = BitVec.ofNat 8 (v (row * s.cols.toNat + col) / 256)

theorem holdsPlane_publish (hr : planeReady s) (hm : m.wf = true) : HoldsPlane s p v (publish s p v m) := by
  intro row col hrow hcol
  obtain ⟨r, hget, hgetc⟩ := getElem?_sampleRows (v := v) hrow hcol
  have h := commitRows_in (p := p) (row := 0) hm hr.2.1 (fun _ => length_of_mem_sampleRows) hget hgetc
  rwa [Nat.zero_add, ofNat_half_low, ofNat_half_high] at h

theorem HoldsPlane.congr (h : HoldsPlane s p v m) (hm : ∀ a, sampleByte s p a → m'.read a = m.read a) :
    HoldsPlane s p v m' := by
  intro row col hrow hcol
  rw [hm _ ⟨row, col, hrow, hcol, .inl rfl⟩, hm _ ⟨row, col, hrow, hcol, .inr rfl⟩]
  exact h row col hrow hcol

/-- Samples of different planes share no byte when STRIDE ≥ 6 × COLS (R60, R175). -/
theorem not_sampleByte_of_plane_ne (hs : 6 * s.cols.toNat ≤ s.stride.toNat) (hpq : p ≠ q) (ha : sampleByte s p a) :
    ¬ sampleByte s q a := by
  rintro ⟨row', col', -, hcol', ha'⟩
  obtain ⟨row, col, -, hcol, ha⟩ := ha
  have hne : p.val ≠ q.val := fun h => hpq (Fin.ext h)
  have hp := p.isLt
  have hq := q.isLt
  have rowEnd : ∀ r r', r < r' → r * s.stride.toNat + s.stride.toNat ≤ r' * s.stride.toNat := by
    intro r r' h
    rw [← Nat.succ_mul]
    exact Nat.mul_le_mul_right _ h
  unfold sampleAddr at ha ha'
  rcases Nat.lt_trichotomy row row' with h | rfl | h
  · have := rowEnd _ _ h
    omega
  · omega
  · have := rowEnd _ _ h
    omega

end Publishing

/-! ### How the plane commands end -/

section Ends

variable {s t : State} {p : Fin 3}

/-- PL.DECODE fails in the checks, or in its plane, or publishes the plane (R177). -/
theorem exec_plDecode_next (h : exec (.plDecode p) s = .next t) :
    (∃ e, planeChecks s = .raised e ∧ t = s.takeError e) ∨ planeReady s ∧
      ((∃ e, planeBody s p = .raised e ∧ t = s.takeError e) ∨
        ∃ out, planeBody s p = .ok out ∧ t = (s.commit p out.samples).endPlane p out) := by
  obtain h | ⟨e, h, ht⟩ := finish_eq_next.1 h
  · obtain ⟨u, hc, h⟩ := Result.bind_eq_ok.1 h
    obtain ⟨out, hout, h⟩ := Result.bind_eq_ok.1 h
    exact .inr ⟨planeChecks_eq_ok.1 hc, .inr ⟨out, hout, (Result.ok.inj h).symm⟩⟩
  · obtain h | ⟨u, hc, h⟩ := Result.bind_eq_raised.1 h
    · exact .inl ⟨e, h, ht⟩
    obtain h | ⟨out, -, h⟩ := Result.bind_eq_raised.1 h
    · exact .inr ⟨planeChecks_eq_ok.1 hc, .inl ⟨e, h, ht⟩⟩
    · cases h

/-- Past the checks, PL.DECODE fails in its plane or publishes it. -/
theorem exec_plDecode_next_of_planeReady (hr : planeReady s) (h : exec (.plDecode p) s = .next t) :
    (∃ e, planeBody s p = .raised e ∧ t = s.takeError e) ∨
      ∃ out, planeBody s p = .ok out ∧ t = (s.commit p out.samples).endPlane p out := by
  obtain ⟨e, hc, -⟩ | ⟨-, hends⟩ := exec_plDecode_next h
  · rw [planeChecks_eq_ok (u := ()).2 hr] at hc
    cases hc
  · exact hends

/-- PL.DECODEALL fails in the checks, or in the first plane that does not decode, or publishes all three (R179). -/
theorem exec_plDecodeAll_next (h : exec .plDecodeAll s = .next t) :
    (∃ e, planeChecks s = .raised e ∧ t = s.takeError e) ∨ planeReady s ∧
      ((∃ p e, (∀ q, q < p → ∃ out, planeBody s q = .ok out) ∧ planeBody s p = .raised e ∧ t = s.takeError e) ∨
        ∃ out0 out1 out2, planeBody s 0 = .ok out0 ∧ planeBody s 1 = .ok out1 ∧ planeBody s 2 = .ok out2 ∧
          t = (((s.commit 0 out0.samples).commit 1 out1.samples).commit 2 out2.samples).endPlane 2 out2) := by
  obtain h | ⟨e, h, ht⟩ := finish_eq_next.1 h
  · obtain ⟨u, hc, h⟩ := Result.bind_eq_ok.1 h
    obtain ⟨out0, h0, h⟩ := Result.bind_eq_ok.1 h
    obtain ⟨out1, h1, h⟩ := Result.bind_eq_ok.1 h
    obtain ⟨out2, h2, h⟩ := Result.bind_eq_ok.1 h
    exact .inr ⟨planeChecks_eq_ok.1 hc, .inr ⟨out0, out1, out2, h0, h1, h2, (Result.ok.inj h).symm⟩⟩
  · obtain h | ⟨u, hc, h⟩ := Result.bind_eq_raised.1 h
    · exact .inl ⟨e, h, ht⟩
    refine .inr ⟨planeChecks_eq_ok.1 hc, .inl ?_⟩
    obtain h0 | ⟨out0, h0, h⟩ := Result.bind_eq_raised.1 h
    · exact ⟨0, e, fun q hq => absurd hq (Fin.not_lt_zero q), h0, ht⟩
    obtain h1 | ⟨out1, h1, h⟩ := Result.bind_eq_raised.1 h
    · refine ⟨1, e, fun q hq => ?_, h1, ht⟩
      obtain rfl : q = 0 := by omega
      exact ⟨out0, h0⟩
    obtain h2 | ⟨out2, -, h⟩ := Result.bind_eq_raised.1 h
    · refine ⟨2, e, fun q hq => ?_, h2, ht⟩
      obtain rfl | rfl : q = 0 ∨ q = 1 := by omega
      · exact ⟨out0, h0⟩
      · exact ⟨out1, h1⟩
    cases h

end Ends

/-! ### Runs that fill the image -/

/-- The state that PL.DECODE leaves. -/
theorem exec_plDecode_of_planeRun {s : State} {p : Fin 3} {arena : List Node} {pos v : Nat → Nat} {d : Nat → Int}
    (hr : planeReady s) (hseed : s.seed[p].toNat = 512)
    (h : PlaneRun s p arena (s.rows.toNat * s.cols.toNat) pos d v) :
    exec (.plDecode p) s = .next { s with
      obuf := publish s p v s.obuf, arena := arena, order := .msb
      blim := BitVec.ofNat 32 (8 * (s.paddr[p].toNat + s.psize[p].toNat))
      bpos := BitVec.ofNat 32 (pos (s.rows.toNat * s.cols.toNat)) } :=
  exec_of_completes ⟨hr, _, h.planeBody hseed, rfl⟩

theorem encode_plDecode : ∀ p : Fin 3, encode (.plDecode p) = 0x32000000#32 ||| BitVec.ofNat 32 p.val := by decide

/-- Settles O48. -/
theorem plDecodeComputesThePlane : Obligations.PlDecodeComputesThePlane :=
  fun _ p _ _ _ _ hr hseed hwf hrun =>
    ⟨encode_plDecode p, _, exec_plDecode_of_planeRun hr hseed hrun, publish_wf hwf, holdsPlane_publish hr hwf,
      fun _ => publish_read_of_not_sampleByte⟩

theorem State.commit_sampleRows (s : State) (p : Fin 3) (v : Nat → Nat) :
    s.commit p (sampleRows s.cols.toNat s.rows.toNat v) = s.setObuf (publish s p v s.obuf) := rfl

theorem State.setObuf_commit_sampleRows (s : State) (p : Fin 3) (v : Nat → Nat) (m : Memory 8) :
    (s.setObuf m).commit p (sampleRows s.cols.toNat s.rows.toNat v) = s.setObuf (publish s p v m) := rfl

/-- The state that PL.DECODEALL leaves. -/
theorem exec_plDecodeAll_of_planeRun {s : State} {arena : Fin 3 → List Node} {pos v : Fin 3 → Nat → Nat}
    {d : Fin 3 → Nat → Int} (hr : planeReady s) (hseed : ∀ p : Fin 3, s.seed[p].toNat = 512)
    (h : ∀ p, PlaneRun s p (arena p) (s.rows.toNat * s.cols.toNat) (pos p) (d p) (v p)) :
    exec .plDecodeAll s = .next { s with
      obuf := publish s 2 (v 2) (publish s 1 (v 1) (publish s 0 (v 0) s.obuf)), arena := arena 2, order := .msb
      blim := BitVec.ofNat 32 (8 * (s.paddr[2].toNat + s.psize[2].toNat))
      bpos := BitVec.ofNat 32 (pos 2 (s.rows.toNat * s.cols.toNat)) } := by
  have hc := exec_of_completes (i := .plDecodeAll)
    ⟨hr, _, _, _, (h 0).planeBody (hseed 0), (h 1).planeBody (hseed 1), (h 2).planeBody (hseed 2), rfl⟩
  simp only [State.commit_sampleRows, State.setObuf_commit_sampleRows] at hc
  exact hc

/-- Three planes published one after the other: no plane writes over a sample of another. -/
theorem holdsPlane_publish_three {s : State} {m : Memory 8} (hr : planeReady s) (hm : m.wf = true)
    (v : Fin 3 → Nat → Nat) (p : Fin 3) :
    HoldsPlane s p (v p) (publish s 2 (v 2) (publish s 1 (v 1) (publish s 0 (v 0) m))) := by
  have keep : ∀ {q : Fin 3} {w : Nat → Nat} {m : Memory 8}, p ≠ q → HoldsPlane s p (v p) m →
      HoldsPlane s p (v p) (publish s q w m) :=
    fun hpq h => h.congr fun a ha => publish_read_of_not_sampleByte (not_sampleByte_of_plane_ne hr.2.1 hpq ha)
  match p with
  | 0 => exact keep (by decide) (keep (by decide) (holdsPlane_publish hr hm))
  | 1 => exact keep (by decide) (holdsPlane_publish hr (publish_wf hm))
  | 2 => exact holdsPlane_publish hr (publish_wf (publish_wf hm))

/-- Settles O50. -/
theorem plDecodeAllComputesTheImage : Obligations.PlDecodeAllComputesTheImage := by
  intro s arena pos d v hr hseed hwf hrun
  refine ⟨rfl, _, exec_plDecodeAll_of_planeRun hr hseed hrun, publish_wf (publish_wf (publish_wf hwf)),
    holdsPlane_publish_three hr hwf v, fun a ha => ?_⟩
  rw [publish_read_of_not_sampleByte (ha 2), publish_read_of_not_sampleByte (ha 1), publish_read_of_not_sampleByte (ha 0)]

/-! ### The first error -/

section Errors

variable {s t : State} {p : Fin 3} {arena : List Node} {j : Nat} {pos v : Nat → Nat} {d : Nat → Int} {e : Raise}

/-- An error inside PlaneBody leaves the record that the statements write out (R204). -/
theorem State.takeError_inPlane (s : State) (p : Fin 3) (e : Raise) :
    s.takeError (e.inPlane p) = afterPlaneError s p e.sample e.cause.code e.cause.sub e.pos e.exp e.fnd := rfl

theorem planeBody_of_build_raised (hseed : s.seed[p].toNat = 512) (h : build s.cfg s.ctab p = .raised e) :
    planeBody s p = .raised (e.inPlane p) :=
  planeBody_eq_raised.2 (.inr ⟨hseed, e, rfl, .inl h⟩)

/-- After a run the first sample that raises ends the plane, with its row and column in the error (R206 (c)). -/
theorem PlaneRun.planeBody_raised (hseed : s.seed[p].toNat = 512) (h : PlaneRun s p arena j pos d v)
    (hj : j < s.rows.toNat * s.cols.toNat)
    (he : decodeSample (planeResid s p arena) 512 (j % s.cols.toNat) (v (j - 1)) (pos j) = .raised e) :
    Machine.planeBody s p = .raised ((e.atSample (j / s.cols.toNat) (j % s.cols.toNat)).inPlane p) := by
  obtain ⟨count, hb⟩ := h.tree
  have hrows := h.samplesDecode.decodeRows_raised (row := 0) hj he
  rw [h.start, Nat.zero_add] at hrows
  exact planeBody_eq_raised.2 (.inr ⟨hseed, _, rfl, .inr ⟨arena, count, hb, hrows⟩⟩)

/-- Settles O49: the run decodes every sample before the one that fails, so the row loop stops there. -/
theorem plDecodeReportsTheFirstError : Obligations.PlDecodeReportsTheFirstError := by
  intro s p hr hseed
  refine ⟨fun e hb => ?table, fun arena j pos d v hj hrun => ⟨fun e he => ?residual, fun d' pos' pred he hpred hout => ?overflow⟩⟩
  case table =>
    obtain ⟨-, -, -, hsample⟩ := build_raised hb
    rw [exec_plDecode_of_planeBody_raised hr (planeBody_of_build_raised hseed hb), State.takeError_inPlane, hsample]
  case residual =>
    exact exec_plDecode_of_planeBody_raised hr (hrun.planeBody_raised hseed hj (decodeSample_eq_raised.2 (.inl he)))
  case overflow =>
    subst hpred
    exact exec_plDecode_of_planeBody_raised hr
      (hrun.planeBody_raised hseed hj (decodeSample_eq_raised.2 (.inr ⟨d', pos', he, hout, rfl⟩)))

/-- Where the row loop raises: a run of the samples before the first one that does not decode (R176, R206 (c)). -/
theorem planeRun_of_decodeRows_raised {count : Nat} (hb : build s.cfg s.ctab p = .ok (arena, count))
    (h : decodeRows (planeResid s p arena) 512 s.cols.toNat s.rows.toNat 0 (s.planeStart p) = .raised e) :
    ∃ (j : Nat) (pos : Nat → Nat) (d : Nat → Int) (v : Nat → Nat) (e' : Raise),
      j < s.rows.toNat * s.cols.toNat ∧ PlaneRun s p arena j pos d v ∧
      decodeSample (planeResid s p arena) 512 (j % s.cols.toNat) (v (j - 1)) (pos j) = .raised e' ∧
      e = e'.atSample (j / s.cols.toNat) (j % s.cols.toNat) := by
  obtain ⟨j, pos, v, hj, hpos, hok, e', he, rfl⟩ := decodeRows_raised_at h
  exact ⟨j, pos, _, v, e', hj, planeRun_of_samplesDecode hb hpos hok, he, by rw [Nat.zero_add]⟩

/-- A sample of the image has a row and a column that fit ELOC. -/
theorem eloc_of_lt (hj : j < s.rows.toNat * s.cols.toNat) :
    (BitVec.ofNat 16 (j / s.cols.toNat)).toNat = j / s.cols.toNat ∧
      (BitVec.ofNat 16 (j % s.cols.toNat)).toNat = j % s.cols.toNat := by
  have hc : 0 < s.cols.toNat := Nat.pos_of_ne_zero (by intro h; simp [h] at hj)
  have hrow : j / s.cols.toNat < s.rows.toNat := Nat.div_lt_of_lt_mul (by rwa [Nat.mul_comm] at hj)
  rw [BitVec.toNat_ofNat, BitVec.toNat_ofNat]
  exact ⟨Nat.mod_eq_of_lt (hrow.trans s.rows.isLt), Nat.mod_eq_of_lt ((Nat.mod_lt _ hc).trans s.cols.isLt)⟩

/-- Past the checks, an error of PL.DECODE is one of its plane. -/
theorem planeBody_raised_of_err (hr : planeReady s) (hs : s.err = false) (h : exec (.plDecode p) s = .next t)
    (ht : t.err = true) : ∃ e, planeBody s p = .raised e ∧ t = s.takeError e := by
  obtain hraised | ⟨out, -, rfl⟩ := exec_plDecode_next_of_planeReady hr h
  · exact hraised
  · exact absurd ht (by simp [hs])

/-- Settles O58: the errors of PlaneBody, read back from the state that takes them. -/
theorem plDecodeFailsAtTheFirstBadSample : Obligations.PlDecodeFailsAtTheFirstBadSample := by
  intro s t p hr hs hexec ht
  obtain ⟨e, hbody, rfl⟩ := planeBody_raised_of_err hr hs hexec ht
  obtain ⟨hseed, rfl⟩ | ⟨hseed, e, rfl, hb | ⟨arena, count, hb, hrows⟩⟩ := planeBody_eq_raised.1 hbody
  · exact .inl ⟨hseed, rfl⟩
  · obtain ⟨-, -, -, hsample⟩ := build_raised hb
    exact .inr (.inl ⟨hseed, e, hb, by rw [State.takeError_inPlane, hsample]⟩)
  · obtain ⟨j, pos, d, v, e, hj, hrun, he, rfl⟩ := planeRun_of_decodeRows_raised hb hrows
    obtain ⟨hrow, hcol⟩ := eloc_of_lt hj
    refine .inr (.inr ⟨hseed, arena, j, pos, d, v, hj, hrun, hrow, hcol, ?_⟩)
    obtain he | ⟨d', pos', hd, hout, rfl⟩ := decodeSample_eq_raised.1 he
    · exact .inl ⟨e, he, rfl⟩
    · exact .inr ⟨d', pos', _, hd, rfl, hout, rfl⟩

end Errors

end Sys2Proof.Machine
end

section
/-! PL.DECODEALL against three PL.DECODE (R179), and the plane of zero residuals (R177). -/

namespace Sys2Proof.Machine

section Equivalence

variable {s : State} {q : Fin 3}

/-! What a plane command leaves does not change what the next one does: only OBUF, the arena, ORDER and the cursor are
written, and neither the checks nor PlaneBody read them. -/

theorem planeReady_commit {samples : List (List Half)} : planeReady (s.commit q samples) ↔ planeReady s := Iff.rfl

theorem planeReady_endPlane {out : PlaneOut} : planeReady (s.endPlane q out) ↔ planeReady s := Iff.rfl

theorem planeBody_commit (s : State) (p q : Fin 3) (samples : List (List Half)) :
    planeBody (s.commit q samples) p = planeBody s p := rfl

theorem planeBody_endPlane (s : State) (p q : Fin 3) (out : PlaneOut) :
    planeBody (s.endPlane q out) p = planeBody s p := rfl

theorem State.endPlane_commit_endPlane (s : State) (p q : Fin 3) (samples : List (List Half)) (out out' : PlaneOut) :
    ((s.endPlane q out').commit p samples).endPlane p out = (s.commit p samples).endPlane p out := rfl

/-- Settles O51: the first plane that fails decides, in one command as in three. -/
theorem plDecodeAllEqualsThreeDecodes : Obligations.PlDecodeAllEqualsThreeDecodes := by
  intro s t0 hs h0
  obtain ⟨e, hc, rfl⟩ | ⟨hr, ⟨e, hb0, rfl⟩ | ⟨out0, hb0, rfl⟩⟩ := exec_plDecode_next h0
  · exact ⟨fun _ => exec_of_planeChecks_raised (.inl rfl) hc, fun h => Bool.noConfusion h⟩
  · exact ⟨fun _ => exec_plDecodeAll_of_planeBody_raised hr (fun q hq => absurd hq (Fin.not_lt_zero q)) hb0,
      fun h => Bool.noConfusion h⟩
  refine ⟨fun h => absurd h (by simp [hs]), fun _ t1 h1 => ?_⟩
  have fails : ∀ {p : Fin 3} {e : Raise} {u : State}, (∀ q : Fin 3, q < p → ∃ out, planeBody s q = .ok out) →
      planeBody s p = .raised e → exec .plDecodeAll s = .next { s with err := true, record := (u.takeError e).record } :=
    fun hbefore hb => exec_plDecodeAll_of_planeBody_raised hr hbefore hb
  obtain ⟨e, hb1, rfl⟩ | ⟨out1, hb1, rfl⟩ := exec_plDecode_next_of_planeReady
    (planeReady_endPlane.2 (planeReady_commit.2 hr)) h1
  all_goals rw [planeBody_endPlane, planeBody_commit] at hb1
  · refine ⟨fun _ => fails (fun q hq => ?_) hb1, fun h => Bool.noConfusion h⟩
    obtain rfl : q = 0 := by omega
    exact ⟨out0, hb0⟩
  refine ⟨fun h => absurd h (by simp [hs]), fun _ t2 h2 => ?_⟩
  rw [State.endPlane_commit_endPlane] at h2
  obtain ⟨e, hb2, rfl⟩ | ⟨out2, hb2, rfl⟩ := exec_plDecode_next_of_planeReady
    (planeReady_endPlane.2 (planeReady_commit.2 (planeReady_commit.2 hr))) h2
  all_goals rw [planeBody_endPlane, planeBody_commit, planeBody_commit] at hb2
  · refine ⟨fun _ => fails (fun q hq => ?_) hb2, fun h => Bool.noConfusion h⟩
    obtain rfl | rfl : q = 0 ∨ q = 1 := by omega
    · exact ⟨out0, hb0⟩
    · exact ⟨out1, hb1⟩
  refine ⟨fun h => absurd h (by simp [hs]), fun _ => ?_⟩
  rw [State.endPlane_commit_endPlane]
  exact exec_of_completes ⟨hr, out0, out1, out2, hb0, hb1, hb2, rfl⟩

end Equivalence

/-! ### The plane of zero residuals -/

section Zeros

variable {cfg : Config} {ctab : Memory 32} {t : Fin 3}

theorem entryBits_single_zero (hlen : entryLen cfg ctab t 0 = 1) (hbit : (entryCode cfg ctab t 0).getLsbD 0 = false) :
    entryBits cfg ctab t 0 = [false] := by
  rw [entryBits, hlen, codeBits, hbit, codeBits]

/-- The table of the one code 0 is accepted, and its tree has the root and one symbol. -/
theorem build_single_zero (hc : cfg.wf) (hnodes : 2 ≤ cfg.nodeMax) (hlen : entryLen cfg ctab t 0 = 1)
    (hbit : (entryCode cfg ctab t 0).getLsbD 0 = false) (hend : entryLen cfg ctab t 1 = 0) :
    ∃ a, build cfg ctab t = .ok (a, 1) ∧ ArenaWf cfg a ∧ a.length = 2 ∧ leadsTo a [false] 0#32 := by
  have hbits := entryBits_single_zero hlen hbit
  have hneeded : nodesNeeded cfg ctab t 1 = 2 := by
    simp [nodesNeeded, codePaths, hbits]
  have htable : PrefixTable cfg ctab t 1 := by
    refine ⟨hc.2.2.1.1, fun i hi => ?_, hend, fun i j hi hj hij => absurd (by omega) hij⟩
    obtain rfl : i = 0 := by omega
    rw [hlen]
    decide
  obtain ⟨a, hb⟩ := build_completes hc htable (by rw [hneeded]; exact hnodes)
  have hbuilt := (build_ok hc hb).1
  exact ⟨a, hb, hbuilt.wf, (hbuilt.length_eq hc.2.2.2.2).trans hneeded, hbits ▸ hbuilt.codes 0 Nat.one_pos⟩

/-- A plane of that table whose bits are 0 is a run of the value 512, one bit a sample. -/
theorem planeRun_zeros {s : State} {p : Fin 3} {a : List Node} {n count : Nat} (hb : build s.cfg s.ctab p = .ok (a, count))
    (ha : ArenaWf s.cfg a) (hzero : leadsTo a [false] 0#32)
    (hbytes : s.paddr[p].toNat + s.psize[p].toNat ≤ s.cfg.ibufBytes) (hn : n ≤ 8 * s.psize[p].toNat)
    (hbits : ∀ k, k < n → streamBit s.ibuf (8 * s.paddr[p].toNat + k) .msb = false) :
    PlaneRun s p a n (fun k => 8 * s.paddr[p].toNat + k) (fun _ => 0) (fun _ => 512) := by
  refine ⟨⟨count, hb⟩, rfl, fun j hj => ?residual, fun j _ => ?value, fun _ _ => by decide⟩
  case residual =>
    have hstream : streamList s.ibuf .msb (8 * s.paddr[p].toNat + j) 1 = [false] := by
      rw [streamList_succ, streamList_zero, hbits j hj]
    have hinside : 8 * s.paddr[p].toNat + j + 1 + (0#32 : Word).toNat ≤ 8 * (s.paddr[p].toNat + s.psize[p].toNat) := by
      rw [BitVec.toNat_ofNat]
      omega
    exact resid_leadsTo ha hinside (by omega) (hstream ▸ hzero) (by decide)
  case value => simp

/-- Settles O53. -/
theorem zeroResidualPlaneIsUniform : Obligations.ZeroResidualPlaneIsUniform := by
  intro s p hc hnodes hr hseed hwf hlen hbit hend hbytes hn hbits
  obtain ⟨a, hb, ha, hlength, hzero⟩ := build_single_zero hc hnodes hlen hbit hend
  have hrun := planeRun_zeros hb ha hzero hbytes hn hbits
  have hibuf : s.cfg.ibufBytes ≤ 2 ^ 28 := hc.1.2
  refine ⟨_, exec_plDecode_of_planeRun hr hseed hrun, rfl, congrArg (BitVec.ofNat 32) hlength,
    toNat_word_ofNat (by omega), toNat_word_ofNat (by omega), fun row col hrow hcol => ?_⟩
  obtain ⟨hlow, hhigh⟩ := holdsPlane_publish (v := fun _ => 512) (p := p) hr hwf row col hrow hcol
  exact ⟨hlow.trans (by simp), hhigh.trans (by simp)⟩

end Zeros

end Sys2Proof.Machine
end

section
/-! The plane commands are functions of their inputs (R180): what Build, Resid and the row loop read. -/

namespace Sys2Proof.Machine

/-- A chain is determined by its first part and, where that answers, by its second part on the answer. -/
theorem Result.bind_congr {α β : Type} {r : Result α} {f g : α → Result β} (h : ∀ a, r = .ok a → f a = g a) :
    r.bind f = r.bind g := by
  cases r with
  | ok a => exact h a rfl
  | raised e => rfl
  | fault x => rfl

/-! ### The table up to its sentinel -/

section Table

variable {cfg : Config} {ctab ctab' : Memory 32} {t : Fin 3}

/-- The two contents of CTAB have the same table `t` up to its sentinel. -/
def SameTable (cfg : Config) (ctab ctab' : Memory 32) (t : Fin 3) : Prop :=
  ∀ i, i < cfg.tabEntries → (∀ j, j < i → entryLen cfg ctab t j ≠ 0) →
    entryLen cfg ctab' t i = entryLen cfg ctab t i ∧
    (entryLen cfg ctab t i ≠ 0 → entryCode cfg ctab' t i = entryCode cfg ctab t i)

/-- Build reads the table up to its sentinel (R153). -/
theorem build_congr (h : SameTable cfg ctab ctab' t) : build cfg ctab' t = build cfg ctab t := by
  suffices H : ∀ fuel i a, fuel + i = cfg.tabEntries → (∀ j, j < i → entryLen cfg ctab t j ≠ 0) →
      buildLoop cfg ctab' t fuel i a = buildLoop cfg ctab t fuel i a from
    H _ _ _ rfl fun j hj => absurd hj (Nat.not_lt_zero j)
  intro fuel
  induction fuel with
  | zero => exact fun _ _ _ _ => rfl
  | succ fuel ih =>
    intro i a hfuel hbefore
    have hi : i < cfg.tabEntries := by omega
    obtain ⟨hlen, hcode⟩ := h i hi hbefore
    by_cases hz : entryLen cfg ctab t i = 0
    · rw [buildLoop_succ hi, buildLoop_succ hi, if_pos (entryLen_eq_zero.1 (hlen.trans hz)),
        if_pos (entryLen_eq_zero.1 hz)]
    · have hinsert : insertEntry cfg ctab' t i a = insertEntry cfg ctab t i a := by
        have hword : entryLenWord cfg ctab' t i = entryLenWord cfg ctab t i := BitVec.eq_of_toNat_eq hlen
        rw [insertEntry, insertEntry, hword, hcode hz]
      rw [buildLoop_entry hi (by rwa [hlen]), buildLoop_entry hi hz, hinsert]
      refine Result.bind_congr fun a' _ => ih (i + 1) a' (by omega) fun j hj => ?_
      rcases Nat.lt_succ_iff_lt_or_eq.1 hj with hj | rfl
      · exact hbefore j hj
      · exact hz

end Table

/-! ### The bytes of the plane -/

section Stream

variable {cfg : Config} {ibuf ibuf' : Memory 8} {arena : List Node} {first lim pos n : Nat} {order : BitOrder}

/-- The two contents of IBUF have the same bits from position `first` to the limit. -/
def SameBits (ibuf ibuf' : Memory 8) (order : BitOrder) (first lim : Nat) : Prop :=
  ∀ q, first ≤ q → q < lim → streamBit ibuf' q order = streamBit ibuf q order

theorem sameBits_of_read {a b : Nat} (h : ∀ x, a ≤ x → x < b → ibuf'.read x = ibuf.read x) :
    SameBits ibuf ibuf' order (8 * a) (8 * b) := by
  intro q hlo hhi
  have hbyte := h (q >>> 3) (by rw [Nat.shiftRight_eq_div_pow]; omega) (by rw [Nat.shiftRight_eq_div_pow]; omega)
  simp only [streamBit, hbyte]

theorem streamBits_congr (h : ∀ i, i < n → streamBit ibuf' (pos + i) order = streamBit ibuf (pos + i) order) :
    streamBits ibuf' n pos order = streamBits ibuf n pos order := by
  induction n with
  | zero => cases order <;> rfl
  | succ n ih =>
    have hlow := ih fun i hi => h i (by omega)
    have hbit := h n (Nat.lt_succ_self n)
    cases order with
    | msb => exact congrArg₂ (fun b x => (b <<< 1) ||| Bool.toNat x) hlow hbit
    | lsb => exact congrArg₂ (fun b x => b ||| (Bool.toNat x <<< n)) hlow hbit

theorem readBits_congr (h : SameBits ibuf ibuf' order first lim) (hp : first ≤ pos) :
    readBits cfg ibuf' n pos lim order = readBits cfg ibuf n pos lim order := by
  unfold readBits
  split
  · rfl
  · next hin => rw [streamBits_congr fun i hi => h (pos + i) (by omega) (by omega)]

theorem descendFrom_congr (h : SameBits ibuf ibuf' order first lim) {fuel k : Nat} (hp : first ≤ pos) :
    descendFrom cfg ibuf' arena lim order fuel k pos = descendFrom cfg ibuf arena lim order fuel k pos := by
  induction fuel generalizing k pos with
  | zero =>
    unfold descendFrom
    rfl
  | succ fuel ih =>
    unfold descendFrom
    cases arena[k]? with
    | none => rfl
    | some nd =>
      simp only [readBits_congr h hp]
      congr 1
      refine Result.bind_congr fun x hx => ?_
      obtain ⟨-, -, -, hnext⟩ := readBits_eq_ok.1 hx
      rw [ih (by omega)]

theorem resid_congr (h : SameBits ibuf ibuf' order first lim) (hp : first ≤ pos) :
    resid cfg ibuf' arena lim order pos = resid cfg ibuf arena lim order pos := by
  rw [resid, resid, descend, descend, descendFrom_congr h hp]
  refine Result.bind_congr fun x hx => ?_
  obtain ⟨n, -, hnext, -⟩ := descend_ok hx
  simp only
  rw [readBits_congr h (by omega)]

theorem resid_le_pos {d : Int} {pos' : Nat} (h : resid cfg ibuf arena lim order pos = .ok (d, pos')) : pos ≤ pos' := by
  obtain ⟨sym, pos1, hdescend, -, -, -, rfl⟩ := resid_eq_ok.1 h
  obtain ⟨n, -, rfl, -⟩ := descend_ok hdescend
  omega

end Stream

/-! ### The sample loops -/

section Rows

variable {f g : Nat → Result (Int × Nat)} {first seed row col left cols n pos : Nat}

theorem decodeRow_congr (hfg : ∀ q, first ≤ q → f q = g q) (hstep : ∀ q d q', first ≤ q → g q = .ok (d, q') → first ≤ q')
    (hp : first ≤ pos) : decodeRow f seed row n col left pos = decodeRow g seed row n col left pos := by
  induction n generalizing col left pos with
  | zero => rfl
  | succ n ih =>
    have hsample : decodeSample f seed col left pos = decodeSample g seed col left pos := by
      rw [decodeSample, hfg pos hp, decodeSample]
    rw [decodeRow, decodeRow, hsample]
    refine Result.bind_congr fun x hx => ?_
    obtain ⟨d, hd, -⟩ := decodeSample_eq_ok.1 (Result.mapRaise_eq_ok.1 hx)
    simp only
    rw [ih (hstep _ _ _ hp hd)]

theorem decodeRow_first_le {vs : List Half} {pos' : Nat}
    (hstep : ∀ q d q', first ≤ q → g q = .ok (d, q') → first ≤ q') (hp : first ≤ pos)
    (h : decodeRow g seed row n col left pos = .ok (vs, pos')) : first ≤ pos' := by
  obtain ⟨starts, v, rfl, rfl, -, hall⟩ := decodeRow_eq_ok.1 h
  suffices H : ∀ j, j ≤ n → first ≤ starts j from H n (Nat.le_refl n)
  intro j hj
  induction j with
  | zero => exact hp
  | succ j ih =>
    obtain ⟨d, hd, -⟩ := decodeSample_eq_ok.1 (hall j hj)
    exact hstep _ _ _ (ih (by omega)) hd

/-- The row loop reads residuals from its first position on only (R176). -/
theorem decodeRows_congr (hfg : ∀ q, first ≤ q → f q = g q) (hstep : ∀ q d q', first ≤ q → g q = .ok (d, q') → first ≤ q')
    (hp : first ≤ pos) : decodeRows f seed cols n row pos = decodeRows g seed cols n row pos := by
  induction n generalizing row pos with
  | zero => rfl
  | succ n ih =>
    rw [decodeRows, decodeRows, decodeRow_congr hfg hstep hp]
    refine Result.bind_congr fun x hx => ?_
    simp only
    rw [ih (decodeRow_first_le hstep hp hx)]

end Rows

/-! ### The plane commands -/

section Commands

variable {s s' t : State} {p : Fin 3} {out : PlaneOut} {m m' : Memory 8} {a : Nat}

/-- The inputs of the checks of R175 agree. -/
structure SameChecks (s s' : State) : Prop where
  cfg : s'.cfg = s.cfg
  pavalid : s'.pavalid = s.pavalid
  cols : s'.cols = s.cols
  rows : s'.rows = s.rows
  stride : s'.stride = s.stride

/-- The inputs of plane `p` agree: its seed, its place, its table and its bytes (R180). -/
structure SamePlane (s s' : State) (p : Fin 3) : Prop where
  seed : s'.seed[p] = s.seed[p]
  paddr : s'.paddr[p] = s.paddr[p]
  psize : s'.psize[p] = s.psize[p]
  table : SameTable s.cfg s.ctab s'.ctab p
  bytes : ∀ a, s.paddr[p].toNat ≤ a → a < s.paddr[p].toNat + s.psize[p].toNat → s'.ibuf.read a = s.ibuf.read a

theorem SameChecks.planeChecks (h : SameChecks s s') : planeChecks s' = planeChecks s := by
  simp only [Machine.planeChecks, h.cfg, h.pavalid, h.cols, h.rows, h.stride]

theorem SameChecks.planeReady (h : SameChecks s s') (hr : planeReady s) : planeReady s' :=
  planeChecks_eq_ok.1 (h.planeChecks.trans (planeChecks_eq_ok (u := ()).2 hr))

theorem SamePlane.planeBody (h : SamePlane s s' p) (hc : SameChecks s s') : planeBody s' p = planeBody s p := by
  have hbits : SameBits s.ibuf s'.ibuf .msb (s.planeStart p) (s.planeLimit p) := sameBits_of_read h.bytes
  simp only [Machine.planeBody, State.planeStart, State.planeLimit, hc.cfg, hc.cols, hc.rows, h.seed, h.paddr, h.psize,
    build_congr h.table]
  split
  · rfl
  · congr 1
    refine Result.bind_congr fun x _ => ?_
    congr 1
    exact decodeRows_congr (fun q hq => resid_congr hbits hq) (fun q d q' hq hd => hq.trans (resid_le_pos hd)) (Nat.le_refl _)

/-- Two contents of OBUF in canonical form have the same byte at `a`. -/
def AgreeAt (a : Nat) (m m' : Memory 8) : Prop := m.wf = true ∧ m'.wf = true ∧ m'.read a = m.read a

/-- After Commit, a byte of the plane depends on the samples only. -/
theorem agreeAt_commitRows (hr : planeReady s) (hbody : planeBody s p = .ok out) (hm : m.wf = true) (hm' : m'.wf = true)
    (ha : sampleByte s p a) :
    AgreeAt a (commitRows s.stride.toNat p 0 out.samples m) (commitRows s.stride.toNat p 0 out.samples m') := by
  obtain ⟨hlen, hcols⟩ := planeBody_shape hbody
  obtain ⟨row, col, hrow, hcol, haddr⟩ := ha
  have hrow : row < out.samples.length := by omega
  have hget := List.getElem?_eq_getElem hrow
  have hcol : col < (out.samples[row]).length := by rw [hcols _ (List.getElem_mem hrow)]; exact hcol
  have hgetc := List.getElem?_eq_getElem hcol
  obtain ⟨hlow, hhigh⟩ := commitRows_in (p := p) (row := 0) hm hr.2.1 hcols hget hgetc
  obtain ⟨hlow', hhigh'⟩ := commitRows_in (p := p) (row := 0) hm' hr.2.1 hcols hget hgetc
  rw [Nat.zero_add] at hlow hhigh hlow' hhigh'
  refine ⟨commitRows_wf hm, commitRows_wf hm', ?_⟩
  rcases haddr with rfl | rfl
  · exact hlow'.trans hlow.symm
  · exact hhigh'.trans hhigh.symm

/-- Commit keeps an agreement, at its own bytes and at all others. -/
theorem AgreeAt.commitRows (h : AgreeAt a m m') (hr : planeReady s) (hbody : planeBody s p = .ok out) :
    AgreeAt a (commitRows s.stride.toNat p 0 out.samples m) (commitRows s.stride.toNat p 0 out.samples m') := by
  obtain ⟨hm, hm', hread⟩ := h
  by_cases ha : sampleByte s p a
  · exact agreeAt_commitRows hr hbody hm hm' ha
  · refine ⟨commitRows_wf hm, commitRows_wf hm', ?_⟩
    rw [commitRows_read_of_not_sampleByte hbody ha, commitRows_read_of_not_sampleByte hbody ha, hread]

/-- Settles O52. -/
theorem plDecodeIsDeterministic : Obligations.PlDecodeIsDeterministic := by
  intro s s' t p hcfg hs hs' hwf hwf' hpavalid hcols hrows hstride hseed hpaddr hpsize htable hbytes h
  have hchecks : SameChecks s s' := ⟨hcfg, hpavalid, hcols, hrows, hstride⟩
  have hplane : SamePlane s s' p := ⟨hseed, hpaddr, hpsize, htable, hbytes⟩
  obtain ⟨e, hc, rfl⟩ | ⟨hr, ⟨e, hb, rfl⟩ | ⟨out, hb, rfl⟩⟩ := exec_plDecode_next h
  · exact ⟨_, exec_of_planeChecks_raised (.inr ⟨p, rfl⟩) (hchecks.planeChecks.trans hc), rfl, fun _ => rfl,
      fun h => Bool.noConfusion h⟩
  · exact ⟨_, exec_plDecode_of_planeBody_raised (hchecks.planeReady hr) ((hplane.planeBody hchecks).trans hb), rfl,
      fun _ => rfl, fun h => Bool.noConfusion h⟩
  · refine ⟨_, exec_of_completes ⟨hchecks.planeReady hr, out, (hplane.planeBody hchecks).trans hb, rfl⟩, by simp [hs, hs'],
      fun h => absurd h (by simp [hs]), fun _ => ⟨rfl, rfl, rfl, ?limit, fun a ha => ?byte⟩⟩
    case limit => simp [State.planeLimit, hpaddr, hpsize]
    case byte =>
      simp only [State.endPlane_obuf, State.commit_obuf, hstride]
      exact (agreeAt_commitRows hr hb hwf hwf' ha).2.2

/-- Settles O59: a byte of plane `p` is set by Commit of plane `p`, and kept the same by those after it. -/
theorem plDecodeAllIsDeterministic : Obligations.PlDecodeAllIsDeterministic := by
  intro s s' t hcfg hs hs' hwf hwf' hpavalid hcols hrows hstride hseed hpaddr hpsize htable hbytes h
  have hchecks : SameChecks s s' := ⟨hcfg, hpavalid, hcols, hrows, hstride⟩
  have hbody : ∀ p, planeBody s' p = planeBody s p := fun p =>
    SamePlane.planeBody ⟨by rw [hseed], by rw [hpaddr], by rw [hpsize], htable p, hbytes p⟩ hchecks
  obtain ⟨e, hc, rfl⟩ | ⟨hr, ⟨p, e, hbefore, hb, rfl⟩ | ⟨out0, out1, out2, hb0, hb1, hb2, rfl⟩⟩ := exec_plDecodeAll_next h
  · exact ⟨_, exec_of_planeChecks_raised (.inl rfl) (hchecks.planeChecks.trans hc), rfl, fun _ => rfl,
      fun h => Bool.noConfusion h⟩
  · have hbefore' : ∀ q : Fin 3, q < p → ∃ out, planeBody s' q = .ok out := fun q hq => hbody q ▸ hbefore q hq
    exact ⟨_, exec_plDecodeAll_of_planeBody_raised (hchecks.planeReady hr) hbefore' ((hbody p).trans hb), rfl,
      fun _ => rfl, fun h => Bool.noConfusion h⟩
  · refine ⟨_, exec_of_completes ⟨hchecks.planeReady hr, out0, out1, out2, (hbody 0).trans hb0, (hbody 1).trans hb1,
      (hbody 2).trans hb2, rfl⟩, by simp [hs, hs'], fun h => absurd h (by simp [hs]),
      fun _ => ⟨rfl, rfl, rfl, ?limit, fun p a ha => ?byte⟩⟩
    case limit => simp [State.planeLimit, hpaddr, hpsize]
    case byte =>
      simp only [State.endPlane_obuf, State.commit_obuf, State.commit_stride, hstride]
      match p with
      | 0 => exact (((agreeAt_commitRows hr hb0 hwf hwf' ha).commitRows hr hb1).commitRows hr hb2).2.2
      | 1 => exact ((agreeAt_commitRows hr hb1 (commitRows_wf hwf) (commitRows_wf hwf') ha).commitRows hr hb2).2.2
      | 2 =>
        exact (agreeAt_commitRows hr hb2 (commitRows_wf (commitRows_wf hwf)) (commitRows_wf (commitRows_wf hwf')) ha).2.2

end Commands

end Sys2Proof.Machine
end

section
/-! The context that an error record has: the plane and the sample (R204). -/

namespace Sys2Proof.Machine

variable {s t : State} {i : Instr} {p : Fin 3} {e : Raise}

/-! ### The fields of the record -/

theorem Raise.record_inPlane (e : Raise) : e.record.inPlane = e.plane.isSome := rfl

theorem Raise.record_plane (h : e.plane = some p) : e.record.plane = BitVec.ofNat 2 p.val := by
  simp only [Raise.record, h]

theorem Raise.record_row_col_of_none (h : e.sample = none) : e.record.row = 0#16 ∧ e.record.col = 0#16 := by
  simp only [Raise.record, h, and_self]

theorem Raise.record_row_col {r c : Nat} (h : e.sample = some (r, c)) :
    e.record.row = BitVec.ofNat 16 r ∧ e.record.col = BitVec.ofNat 16 c := by
  simp only [Raise.record, h, and_self]

/-! ### What the context says of every command -/

/-- Outside a plane there is no sample, and the record has neither. -/
theorem RaisesIn.record_of_not_inPlane (h : RaisesIn s i e) (hp : e.record.inPlane = false) :
    e.record.plane = 0#2 ∧ e.record.row = 0#16 ∧ e.record.col = 0#16 := by
  obtain ⟨-, ⟨hplane, hsample⟩ | ⟨⟨p, hplane, -⟩, -⟩⟩ := h
  · exact ⟨by simp only [Raise.record, hplane], Raise.record_row_col_of_none hsample⟩
  · simp [Raise.record_inPlane, hplane] at hp

/-- Inside a plane the command is a plane command, and the cause is one of a stream, a table or a value. -/
theorem RaisesIn.record_of_inPlane (h : RaisesIn s i e) (hp : e.record.inPlane = true) :
    (i = .plDecodeAll ∨ ∃ p, i = .plDecode p ∧ e.record.plane = BitVec.ofNat 2 p.val) ∧
      (e.record.cause = 3#8 ∨ e.record.cause = 4#8 ∨ e.record.cause = 5#8) := by
  obtain ⟨-, ⟨hplane, -⟩ | ⟨⟨p, hplane, hi⟩, hcause, -⟩⟩ := h
  · simp [Raise.record_inPlane, hplane] at hp
  · refine ⟨?_, hcause⟩
    obtain rfl | rfl := hi
    · exact .inr ⟨p, rfl, Raise.record_plane hplane⟩
    · exact .inl rfl

/-- A row or a column in the record is one of the image. -/
theorem RaisesIn.record_of_eloc (h : RaisesIn s i e) (hloc : e.record.row ≠ 0#16 ∨ e.record.col ≠ 0#16) :
    e.record.inPlane = true ∧ e.record.row.toNat < s.rows.toNat ∧ e.record.col.toNat < s.cols.toNat := by
  have noSample : e.sample ≠ none := by
    intro hnone
    obtain ⟨hrow, hcol⟩ := Raise.record_row_col_of_none hnone
    rcases hloc with hloc | hloc
    · exact hloc hrow
    · exact hloc hcol
  obtain ⟨-, ⟨-, hsample⟩ | ⟨⟨p, hplane, -⟩, -, hsample | ⟨r, c, hr, hc, hsample⟩⟩⟩ := h
  · exact absurd hsample noSample
  · exact absurd hsample noSample
  · obtain ⟨hrow, hcol⟩ := Raise.record_row_col hsample
    rw [hrow, hcol, BitVec.toNat_ofNat, BitVec.toNat_ofNat, Nat.mod_eq_of_lt (hr.trans s.rows.isLt),
      Nat.mod_eq_of_lt (hc.trans s.cols.isLt)]
    exact ⟨by rw [Raise.record_inPlane, hplane]; rfl, hr, hc⟩

/-! ### Where a plane command fails -/

/-- A failing plane command fails in the checks, or in the body of a plane: its own, or for PL.DECODEALL the first that
does not decode. -/
theorem planeCommand_fails (hi : i = .plDecodeAll ∨ ∃ p, i = .plDecode p) (hs : s.err = false) (h : exec i s = .next t)
    (ht : t.err = true) :
    ∃ e, t.record = e.record ∧ (planeChecks s = .raised e ∨ planeReady s ∧ ∃ p, planeBody s p = .raised e ∧
      (i = .plDecodeAll → ∀ q, q < p → ∃ out, planeBody s q = .ok out)) := by
  obtain rfl | ⟨p, rfl⟩ := hi
  · obtain ⟨e, hc, rfl⟩ | ⟨hr, ⟨p, e, hbefore, hb, rfl⟩ | ⟨_, _, _, -, -, -, rfl⟩⟩ := exec_plDecodeAll_next h
    · exact ⟨e, rfl, .inl hc⟩
    · exact ⟨e, rfl, .inr ⟨hr, p, hb, fun _ => hbefore⟩⟩
    · exact absurd ht (by simp [hs])
  · obtain ⟨e, hc, rfl⟩ | ⟨hr, ⟨e, hb, rfl⟩ | ⟨_, -, rfl⟩⟩ := exec_plDecode_next h
    · exact ⟨e, rfl, .inl hc⟩
    · exact ⟨e, rfl, .inr ⟨hr, p, hb, fun h => Instr.noConfusion h⟩⟩
    · exact absurd ht (by simp [hs])

theorem planeChecks_raised_record (h : planeChecks s = .raised e) : e.record.cause = 10#8 ∧ e.record.inPlane = false := by
  obtain ⟨hcause, hplane, -⟩ := planeChecks_raised h
  refine ⟨?_, by rw [Raise.record_inPlane, hplane]; rfl⟩
  show e.cause.code = 10#8
  obtain hcause | hcause | hcause := hcause <;> rw [hcause] <;> rfl

/-- The errors that come before the first sample have no row and no column: only the sample loops raise at a sample, and
they raise neither a table error nor a bad seed. -/
theorem planeBody_raised_before_samples (h : planeBody s p = .raised e)
    (hcause : e.record.cause = 4#8 ∨ e.record.cause = 5#8 ∧ e.record.sub = 5#8) :
    e.record.row = 0#16 ∧ e.record.col = 0#16 := by
  obtain ⟨-, rfl⟩ | ⟨-, e, rfl, hb | ⟨arena, count, -, hrows⟩⟩ := planeBody_eq_raised.1 h
  · exact Raise.record_row_col_of_none rfl
  · obtain ⟨-, -, -, hsample⟩ := build_raised hb
    exact Raise.record_row_col_of_none hsample
  · obtain ⟨r, c, -, -, -, -, hloop⟩ := decodeRows_raised hrows
    have hloop : e.cause = .sampleOverflow ∨ e.cause = .truncatedStream ∨ e.cause = .undefinedLeaf ∨
        e.cause = .absentBranch ∨ e.cause = .badSizeSymbol := by
      obtain ⟨hover, -⟩ | ⟨q, e', hresid, heq, -⟩ := hloop
      · exact .inl hover
      · exact .inr (heq ▸ (resid_raised hresid).1)
    have hcodes : e.cause.code = 4#8 ∨ e.cause.code = 5#8 ∧ e.cause.sub = 5#8 := hcause
    exfalso
    revert hcodes
    obtain hc | hc | hc | hc | hc := hloop <;> rw [hc] <;> decide

/-- Settles O10. -/
theorem errorContextMatchesTheCommand : Obligations.ErrorContextMatchesTheCommand := by
  intro i s t hs h ht
  have hplanes := fun hi => planeCommand_fails (i := i) hi hs h ht
  obtain ⟨e, hraises, heq⟩ := raises_of_err hs h ht
  have hrecord : t.record = e.record := congrArg State.record heq
  have hcommand : t.record.inPlane = true →
      i = .plDecodeAll ∨ ∃ p, i = .plDecode p ∧ t.record.plane = BitVec.ofNat 2 p.val :=
    fun hp => hrecord ▸ (hraises.record_of_inPlane (hrecord ▸ hp)).1
  refine ⟨hrecord ▸ hraises.record_of_not_inPlane, hcommand,
    fun hp => hrecord ▸ (hraises.record_of_inPlane (hrecord ▸ hp)).2, hrecord ▸ hraises.record_of_eloc,
    fun hi hcause => ?inPlane, fun hi hp => ?firstPlane, fun hp hcause => ?noSample⟩
  case inPlane =>
    obtain ⟨e, hrecord, hc | ⟨-, p, hb, -⟩⟩ := hplanes hi
    · exact absurd (hrecord ▸ (planeChecks_raised_record hc).1) hcause
    · rw [hrecord, Raise.record_inPlane, (planeBody_raised hb).1]
      rfl
  case firstPlane =>
    obtain ⟨e, hrecord, hc | ⟨hr, p, hb, hbefore⟩⟩ := hplanes (.inl hi)
    · rw [hrecord, (planeChecks_raised_record hc).2] at hp
      cases hp
    · refine ⟨p, hrecord ▸ Raise.record_plane (planeBody_raised hb).1,
        ⟨_, exec_plDecode_of_planeBody_raised hr hb, rfl, hrecord.symm⟩, fun q hq => ?_⟩
      obtain ⟨out, hout⟩ := hbefore hi q hq
      exact ⟨_, exec_of_completes ⟨hr, out, hout, rfl⟩, by simp [hs]⟩
  case noSample =>
    obtain ⟨e, hrecord, hc | ⟨-, p, hb, -⟩⟩ := hplanes ((hcommand hp).imp_right fun ⟨p, hi, _⟩ => ⟨p, hi⟩)
    · rw [hrecord, (planeChecks_raised_record hc).2] at hp
      cases hp
    · rw [hrecord] at hcause ⊢
      exact planeBody_raised_before_samples hb hcause

end Sys2Proof.Machine
end
